-- ==== Sys2Proof/Word.lean ====
section
/-! DEFINITION. The two machine words of the block: the byte and the 16-bit word (R9, R13 of spec/00_scope.md). -/

namespace Sys2Proof

/-- `u8`: a byte, 0 to 255 (R9, R13). -/
abbrev Byte := BitVec 8

/-- `u16`: a 16-bit word, 0 to 65535 (R9, R13). -/
abbrev Word := BitVec 16

end Sys2Proof
end

