-- ==== Sys2Proof/Config.lean ====
section
/-! DEFINITION. The types the rules use (R13), the parameters of an implementation (R8) and the free values:
opaque constants, so that no proof can see what they are. -/

namespace Sys2Proof

/-! ## Types used in rules -/

/-- The named wire codes: the 15 rows of R80 and `GpioDirResp` of R82. -/
inductive Code where
  | ping | itfType | version | idGet
  | gpioDirSet | gpioDirGet | gpioRead | gpioWrite
  | gpioValue | good | errGeneric | errCrc | errUnknownCode | errInvalidArgs | errBusy
  | gpioDirResp
  deriving DecidableEq, Repr, Inhabited

/-- The categories that partition the code table (R81). -/
inductive Category where
  | genericRequest | gpioRequest | response
  deriving DecidableEq, Repr

/-- `GpioDir` (R78). -/
inductive GpioDir where
  | pullDownInput | pullUpInput | output
  deriving DecidableEq, Repr

/-- `GpioValue` (R79). -/
inductive GpioValue where
  | low | high
  deriving DecidableEq, Repr

/-- The requests the identity provider answers (R222). -/
inductive IdentKind where
  | itfType | version | idGet
  deriving DecidableEq, Repr

/-- A built request, `REQ` (R29). -/
inductive Request where
  | ping | itfType | version | idGet
  | gpioDirSet (pin : Byte) (dir : GpioDir)
  | gpioDirGet (pin : Byte)
  | gpioWrite (pin : Byte) (value : GpioValue)
  | gpioRead (pin : Byte)
  deriving DecidableEq, Repr

/-- A response variant, `RSP` (R30; R258 to R266). `errBusy` is listed by R265, which no rule builds. -/
inductive Response where
  | good
  | gpioValue (pin : Byte) (value : GpioValue)
  | gpioDirResp (pin : Byte) (dir : GpioDir)
  | errGeneric (msg : List Byte)
  | errCrc
  | errUnknownCode
  | errInvalidArgs (msg : List Byte)
  | errBusy
  | ident (kind : IdentKind)
  deriving DecidableEq, Repr

/-- Why a request could not be built (R307). -/
inductive ArgCause where
  | missing
  | badDir (d : Byte)
  | badValue (v : Byte)
  deriving DecidableEq, Repr, Inhabited

/-- The error taxonomy with the information each error records (R300). -/
inductive Err where
  | badEsc (pos : Nat)
  | bufferFullDec (pos : Nat)
  | invalidLength (n : Nat)
  | invalidCrc (computed received : Word)
  | unknownCode (c16 : Word)
  | notARequest (c16 : Word)
  | invalidArg (code : Code) (cause : ArgCause)
  | invalidPin (code : Code) (pin : Byte)
  | hwError (code : Code) (pin : Byte)
  | bufferFullEnc (pos : Option Nat)
  deriving DecidableEq, Repr

/-- The four calls of the GPIO capability provider port with their arguments (R221). -/
inductive GpioCall where
  | setDirection (pin : Byte) (dir : GpioDir)
  | getDirection (pin : Byte)
  | setValue (pin : Byte) (value : GpioValue)
  | getValue (pin : Byte)
  deriving DecidableEq, Repr

/-- The six classes of an input byte of the decoder (R72). -/
inductive DecClass where
  | lit | esc | endFrame | escEnd | escEsc | badEsc
  deriving DecidableEq, Repr

/-- The three classes of a source byte of the encoder (R73). -/
inductive EncClass where
  | endByte | escByte | lit
  deriving DecidableEq, Repr

/-- The two internal address spaces (R50). -/
inductive Space where
  | dec | enc
  deriving DecidableEq, Repr

/-- The bits of an instruction in the three formats of the opcode table that have bits: a serialized frame
(R74), the 9-bit `(DEC.esc << 8) | b` of a decoder byte (R72), a source byte of the encoder (R73). -/
inductive Encoding where
  | frame (bytes : List Byte)
  | decByte (w : BitVec 9)
  | encByte (b : Byte)
  deriving DecidableEq, Repr

/-! ## Parameters -/

/-- `RESYNC_MODE` (R8, decision D4). -/
inductive ResyncMode where
  | hunt | immediate
  deriving DecidableEq, Repr, Inhabited

/-- `EMPTY_FRAME_MODE` (R8, decision D5). -/
inductive EmptyFrameMode where
  | drop | process
  deriving DecidableEq, Repr, Inhabited

/-- The parameters of R8, as plain data. `diag` lists `DIAG` reason by reason, an unlisted reason giving the
empty string (log entry 2); the three `ident` fields are `IDENT_RESP` (log entry 3). -/
structure Params where
  /-- `DEC_CAP` -/
  decCap : Nat
  /-- `FRAME_PAYLOAD_CAP` -/
  payloadCap : Nat
  /-- `ENC_CAP` -/
  encCap : Nat
  /-- `ERR_MSG_MAX` -/
  errMsgMax : Nat
  /-- `VALID_PINS` -/
  validPins : List Nat
  /-- `RESYNC_MODE` -/
  resyncMode : ResyncMode
  /-- `EMPTY_FRAME_MODE` -/
  emptyFrameMode : EmptyFrameMode
  /-- `GPIO_DIR_RESP_CODE` -/
  gpioDirRespCode : Word
  /-- `IDENT_RESP(ItfType)` -/
  identItfType : Code × List Byte
  /-- `IDENT_RESP(Version)` -/
  identVersion : Code × List Byte
  /-- `IDENT_RESP(IdGet)` -/
  identIdGet : Code × List Byte
  /-- `DIAG` -/
  diag : List (Err × List Byte)
  deriving DecidableEq, Repr, Inhabited

/-- The wire values of the eight request codes (R80). -/
def requestWords : List Word :=
  [0x0000#16, 0x0001#16, 0x0002#16, 0x0003#16, 0x0100#16, 0x0101#16, 0x0102#16, 0x0103#16]

/-- The constraints of R325 on an implementation's parameters. -/
def Params.ok (p : Params) : Bool :=
  !(requestWords.contains p.gpioDirRespCode)
    && p.diag.all (fun entry => entry.2.length ≤ p.errMsgMax)
    && p.validPins.all (fun pin => pin < 256)

/-- Parameters within the constraints of R325: what a machine of this model can have (R343 item 1; log entry 4). -/
structure ValidParams where
  params : Params
  ok : params.ok = true
  deriving DecidableEq, Repr

/-- There are parameters within the constraints. Nothing rests on these. -/
def ValidParams.sample : ValidParams where
  params := { (default : Params) with gpioDirRespCode := 0xFEFE#16 }
  ok := by decide

/-- Some parameters within the constraints: OPEN (R8), so a constant nothing else is known about. -/
opaque Config.someValid [Inhabited ValidParams] : ValidParams

/-- The parameters of the machine at reset (R8, R343 item 1; log entries 1, 4). -/
def Config.valid : ValidParams := @Config.someValid ⟨ValidParams.sample⟩

/-- The same, without the proof that they are within the constraints. -/
def Config.params : Params := Config.valid.params

/-! ## Free values -/

/-- The provider's answer to a `set_*` call on a valid pin: the n-th draw; `some ()` is `Ok(())`, `none` is
`Err(HwError)` (R241, I5; log entry 12). -/
opaque Config.drawUnit : Nat → GpioCall → Option Unit

/-- The provider's answer to `get_direction` on a valid pin: the n-th draw (R241, I5; log entry 12). -/
opaque Config.drawDir : Nat → GpioCall → Option GpioDir

/-- The provider's answer to `get_value` on a valid pin: the n-th draw (R241, I5; log entry 12). -/
opaque Config.drawValue : Nat → GpioCall → Option GpioValue

/-- What the transport still offers on `IN` after a `RESET`, of what it offered before: outside the block, so
free (R340, R345; log entry 15). -/
opaque Config.inputAfterReset : Nat → List Byte → List Byte

/-- What a byte of a buffer holds that nothing has written: any value (I1; log entry 5). -/
opaque Config.unwritten : Space → Nat → Byte

/-- What REQ_BUILD gives for a code that is no request, for which R220 states no result: a request, or the cause of
an InvalidArg, by the draw counter, the code and the payload (log entry 19). -/
opaque Config.unstatedBuild : Nat → Code → List Byte → Except ArgCause Request

end Sys2Proof
end

