-- ==== Sys2Proof/Syntax.lean ====
section
/-! DEFINITION. The instructions: one constructor per row of spec/opcode_table.json, in the table's order. -/

namespace Sys2Proof

/-- The "instructions" of the block (R2): the wire codes with their payload bytes, the byte classes of the SLIP
decoder and encoder with their position operand (R100, R131), the interface operations and the pipeline steps. -/
inductive Instr where
  -- frame codes: the operand is the payload of the frame (R74, R83, R84)
  | ping (payload : List Byte)
  | itfType (payload : List Byte)
  | version (payload : List Byte)
  | idGet (payload : List Byte)
  | gpioDirSet (payload : List Byte)
  | gpioDirGet (payload : List Byte)
  | gpioRead (payload : List Byte)
  | gpioWrite (payload : List Byte)
  | good (payload : List Byte)
  | gpioValue (payload : List Byte)
  | errGeneric (payload : List Byte)
  | errCrc (payload : List Byte)
  | errUnknownCode (payload : List Byte)
  | errInvalidArgs (payload : List Byte)
  | errBusy (payload : List Byte)
  | gpioDirResp (payload : List Byte)
  -- decoder byte classes (R101 to R106)
  | decEnd (pos : Nat)
  | decEsc (pos : Nat)
  | decLit (b : Byte) (pos : Nat)
  | decEscEnd (pos : Nat)
  | decEscEsc (pos : Nat)
  | decBadEsc (b : Byte) (pos : Nat)
  -- encoder byte classes (R131 to R133)
  | encByteEnd (pos : Nat)
  | encByteEsc (pos : Nat)
  | encByteLit (b : Byte) (pos : Nat)
  -- interface operations
  | decFeed (chunk : List Byte)
  | decSlice
  | decReset
  | encFeed (bytes : List Byte)
  | encFinish
  | encSlice
  | encReset
  | crc16 (m : List Byte)
  | frameDecode (bytes : List Byte)
  | frameEncode (code : Code) (payload : List Byte)
  | codeLookup (c16 : Word)
  | codeEncode (code : Code)
  | categorize (code : Code)
  | argInit (payload : List Byte)
  | argU8
  | argU16
  | reqBuild (code : Code) (payload : List Byte)
  | reqExec (req : Request)
  | toFrame (rsp : Response)
  | reset
  -- pipeline steps (R272 to R280)
  | sRx
  | sHunt
  | sDecode
  | sDispatch
  | sRespond
  deriving DecidableEq, Repr

end Sys2Proof
end

