-- ==== Sys2Proof/Decode.lean ====
section
/-! DEFINITION. Decoding and encoding: byte order (R52), the CRC (R150), the code registry (R180 to R182), the byte
classes (R72, R73), `FRAME_DECODE` and `FRAME_ENCODE` (R152, R157), the instruction a frame, a decoder byte or a
source byte stands for, and the encoder back. Everything is total; a frame is rejected by the name of its error. -/

namespace Sys2Proof

/-! ## Byte order -/

/-- `be16(h, l) = h*256 + l` (R10, R52). -/
def be16 (h l : Byte) : Word := (h ++ l : BitVec (8 + 8))

/-- `w[15:8]` (R10). -/
def hiByte (w : Word) : Byte := w.extractLsb' 8 8

/-- `w[7:0]` (R10). -/
def loByte (w : Word) : Byte := w.extractLsb' 0 8

/-- A 16-bit field as its two big-endian bytes (R52). -/
def bytesOf (w : Word) : List Byte := [hiByte w, loByte w]

/-! ## CRC16/CCITT-FALSE -/

/-- One bit step of R150. -/
def crcBit (c : Word) : Word :=
  if c.getLsbD 15 then (c <<< 1) ^^^ 0x1021#16 else c <<< 1

/-- Eight bit steps. -/
def crcShift8 (c : Word) : Word :=
  crcBit (crcBit (crcBit (crcBit (crcBit (crcBit (crcBit (crcBit c)))))))

/-- One message byte of R150. -/
def crcByte (c : Word) (b : Byte) : Word :=
  crcShift8 (c ^^^ (b.zeroExtend 16 <<< 8))

/-- `CRC16(m)` (R150). Its parameters are the spec's, from general knowledge (D24; log entry 22). -/
def crc16 (m : List Byte) : Word := m.foldl crcByte 0xFFFF#16

/-! ## Code registry -/

/-- The code table of R80, row by row in its order. -/
def codeTable : List (Word × Code) :=
  [(0x0000#16, .ping), (0x0001#16, .itfType), (0x0002#16, .version), (0x0003#16, .idGet),
   (0x0100#16, .gpioDirSet), (0x0101#16, .gpioDirGet), (0x0102#16, .gpioRead), (0x0103#16, .gpioWrite),
   (0xFEFF#16, .gpioValue), (0xFFFF#16, .good), (0xFFFE#16, .errGeneric), (0xFFFD#16, .errCrc),
   (0xFFFC#16, .errUnknownCode), (0xFFFB#16, .errInvalidArgs), (0xFFFA#16, .errBusy)]

/-- The named code of a wire value that is a row of R80. -/
def tableCode (c16 : Word) : Option Code := codeTable.lookup c16

/-- `CODE_LOOKUP` (R180): the table first, then `GPIO_DIR_RESP_CODE` (R82). -/
def codeLookup (p : Params) (c16 : Word) : Option Code :=
  match tableCode c16 with
  | some c => some c
  | none => if c16 = p.gpioDirRespCode then some .gpioDirResp else none

/-- `CODE_ENCODE` (R181). -/
def codeEncode (p : Params) : Code → Word
  | .ping => 0x0000#16
  | .itfType => 0x0001#16
  | .version => 0x0002#16
  | .idGet => 0x0003#16
  | .gpioDirSet => 0x0100#16
  | .gpioDirGet => 0x0101#16
  | .gpioRead => 0x0102#16
  | .gpioWrite => 0x0103#16
  | .gpioValue => 0xFEFF#16
  | .good => 0xFFFF#16
  | .errGeneric => 0xFFFE#16
  | .errCrc => 0xFFFD#16
  | .errUnknownCode => 0xFFFC#16
  | .errInvalidArgs => 0xFFFB#16
  | .errBusy => 0xFFFA#16
  | .gpioDirResp => p.gpioDirRespCode

/-- `CATEGORIZE` (R182, R81). -/
def categorize : Code → Category
  | .ping | .itfType | .version | .idGet => .genericRequest
  | .gpioDirSet | .gpioDirGet | .gpioRead | .gpioWrite => .gpioRequest
  | .gpioValue | .good | .errGeneric | .errCrc | .errUnknownCode | .errInvalidArgs | .errBusy
  | .gpioDirResp => .response

/-! ## SLIP byte classes -/

/-- END (R70). -/
def slipEnd : Byte := 0xC0#8
/-- ESC (R70). -/
def slipEsc : Byte := 0xDB#8
/-- ESC_END (R70). -/
def slipEscEnd : Byte := 0xDC#8
/-- ESC_ESC (R70). -/
def slipEscEsc : Byte := 0xDD#8

/-- The class of an input byte by `DEC.esc` and its value (R72). -/
def decClass (esc : Bool) (b : Byte) : DecClass :=
  if esc then
    if b = slipEscEnd then .escEnd else if b = slipEscEsc then .escEsc else .badEsc
  else
    if b = slipEnd then .endFrame else if b = slipEsc then .esc else .lit

/-- The class of a source byte (R73). -/
def encClass (b : Byte) : EncClass :=
  if b = slipEnd then .endByte else if b = slipEsc then .escByte else .lit

/-- The instruction an input byte stands for at position `pos` (R72). -/
def decByteInstr (esc : Bool) (b : Byte) (pos : Nat) : Instr :=
  match decClass esc b with
  | .lit => .decLit b pos
  | .esc => .decEsc pos
  | .endFrame => .decEnd pos
  | .escEnd => .decEscEnd pos
  | .escEsc => .decEscEsc pos
  | .badEsc => .decBadEsc b pos

/-- The instruction a source byte stands for at position `pos` (R73). -/
def encByteInstr (b : Byte) (pos : Nat) : Instr :=
  match encClass b with
  | .endByte => .encByteEnd pos
  | .escByte => .encByteEsc pos
  | .lit => .encByteLit b pos

/-! ## Frame codec -/

/-- `FRAME_DECODE(S)`: length, CRC, code, payload capacity, in this order (R152 to R156). -/
def frameDecode (p : Params) (bytes : List Byte) : Except Err (Code × List Byte) :=
  let n := bytes.length
  if n < 4 then .error (.invalidLength n)
  else
    let crcRx := be16 (bytes.getD (n - 2) 0) (bytes.getD (n - 1) 0)
    let crcC := crc16 (bytes.take (n - 2))
    if crcC ≠ crcRx then .error (.invalidCrc crcC crcRx)
    else
      let c16 := be16 (bytes.getD 0 0) (bytes.getD 1 0)
      match codeLookup p c16 with
      | none => .error (.unknownCode c16)
      | some code =>
        let payload := (bytes.take (n - 2)).drop 2
        if payload.length > p.payloadCap then .error (.invalidLength n)
        else .ok (code, payload)

/-- A serialized frame over a code's wire value: code, payload, CRC over both (R74, R157). -/
def frameBytes (c16 : Word) (payload : List Byte) : List Byte :=
  let m := bytesOf c16 ++ payload
  m ++ bytesOf (crc16 m)

/-- `FRAME_ENCODE(code, payload)` (R157). -/
def frameEncode (p : Params) (code : Code) (payload : List Byte) : List Byte :=
  frameBytes (codeEncode p code) payload

/-! ## Instructions from their bits, and back -/

/-- The instruction of a code with its payload. -/
def frameInstr (code : Code) (payload : List Byte) : Instr :=
  match code with
  | .ping => .ping payload
  | .itfType => .itfType payload
  | .version => .version payload
  | .idGet => .idGet payload
  | .gpioDirSet => .gpioDirSet payload
  | .gpioDirGet => .gpioDirGet payload
  | .gpioRead => .gpioRead payload
  | .gpioWrite => .gpioWrite payload
  | .gpioValue => .gpioValue payload
  | .good => .good payload
  | .errGeneric => .errGeneric payload
  | .errCrc => .errCrc payload
  | .errUnknownCode => .errUnknownCode payload
  | .errInvalidArgs => .errInvalidArgs payload
  | .errBusy => .errBusy payload
  | .gpioDirResp => .gpioDirResp payload

/-- The code and the payload of a frame-code instruction; none for the other formats. -/
def frameParts : Instr → Option (Code × List Byte)
  | .ping pl => some (.ping, pl)
  | .itfType pl => some (.itfType, pl)
  | .version pl => some (.version, pl)
  | .idGet pl => some (.idGet, pl)
  | .gpioDirSet pl => some (.gpioDirSet, pl)
  | .gpioDirGet pl => some (.gpioDirGet, pl)
  | .gpioRead pl => some (.gpioRead, pl)
  | .gpioWrite pl => some (.gpioWrite, pl)
  | .good pl => some (.good, pl)
  | .gpioValue pl => some (.gpioValue, pl)
  | .errGeneric pl => some (.errGeneric, pl)
  | .errCrc pl => some (.errCrc, pl)
  | .errUnknownCode pl => some (.errUnknownCode, pl)
  | .errInvalidArgs pl => some (.errInvalidArgs, pl)
  | .errBusy pl => some (.errBusy, pl)
  | .gpioDirResp pl => some (.gpioDirResp, pl)
  | .decEnd _ | .decEsc _ | .decLit _ _ | .decEscEnd _ | .decEscEsc _ | .decBadEsc _ _ => none
  | .encByteEnd _ | .encByteEsc _ | .encByteLit _ _ => none
  | .decFeed _ | .decSlice | .decReset | .encFeed _ | .encFinish | .encSlice | .encReset => none
  | .crc16 _ | .frameDecode _ | .frameEncode _ _ | .codeLookup _ | .codeEncode _ | .categorize _ => none
  | .argInit _ | .argU8 | .argU16 | .reqBuild _ _ | .reqExec _ | .toFrame _ | .reset => none
  | .sRx | .sHunt | .sDecode | .sDispatch | .sRespond => none

/-- The position operand of a byte-class instruction, which its bits do not carry; 0 for the others. -/
def posOf : Instr → Nat
  | .decEnd pos | .decEsc pos | .decLit _ pos | .decEscEnd pos | .decEscEsc pos | .decBadEsc _ pos => pos
  | .encByteEnd pos | .encByteEsc pos | .encByteLit _ pos => pos
  | .ping _ | .itfType _ | .version _ | .idGet _ | .gpioDirSet _ | .gpioDirGet _ | .gpioRead _
  | .gpioWrite _ | .good _ | .gpioValue _ | .errGeneric _ | .errCrc _ | .errUnknownCode _
  | .errInvalidArgs _ | .errBusy _ | .gpioDirResp _ => 0
  | .decFeed _ | .decSlice | .decReset | .encFeed _ | .encFinish | .encSlice | .encReset => 0
  | .crc16 _ | .frameDecode _ | .frameEncode _ _ | .codeLookup _ | .codeEncode _ | .categorize _ => 0
  | .argInit _ | .argU8 | .argU16 | .reqBuild _ _ | .reqExec _ | .toFrame _ | .reset => 0
  | .sRx | .sHunt | .sDecode | .sDispatch | .sRespond => 0

/-- The frame decoder: the instruction of a completed frame, or the error that rejects it (R92 items 2 to 5). -/
def decodeFrame (p : Params) (bytes : List Byte) : Except Err Instr :=
  match frameDecode p bytes with
  | .error e => .error e
  | .ok (code, payload) => .ok (frameInstr code payload)

/-- The decoder over the three formats that have bits. `pos` is the position operand of a byte class. -/
def decode (p : Params) (pos : Nat) : Encoding → Except Err Instr
  | .frame bytes => decodeFrame p bytes
  | .decByte w => .ok (decByteInstr (w.getLsbD 8) (w.setWidth 8) pos)
  | .encByte b => .ok (encByteInstr b pos)

/-- The 9-bit `(DEC.esc << 8) | b` (R72). -/
def decWord (esc : Bool) (b : Byte) : BitVec 9 := BitVec.ofBool esc ++ b

/-- The encoder: the bits of an instruction, from the encoding tables (R72, R73, R74, R80). None for the
interface operations and the pipeline steps, whose rows have no bits. -/
def encode (p : Params) : Instr → Option Encoding
  | .ping pl => some (.frame (frameEncode p .ping pl))
  | .itfType pl => some (.frame (frameEncode p .itfType pl))
  | .version pl => some (.frame (frameEncode p .version pl))
  | .idGet pl => some (.frame (frameEncode p .idGet pl))
  | .gpioDirSet pl => some (.frame (frameEncode p .gpioDirSet pl))
  | .gpioDirGet pl => some (.frame (frameEncode p .gpioDirGet pl))
  | .gpioRead pl => some (.frame (frameEncode p .gpioRead pl))
  | .gpioWrite pl => some (.frame (frameEncode p .gpioWrite pl))
  | .good pl => some (.frame (frameEncode p .good pl))
  | .gpioValue pl => some (.frame (frameEncode p .gpioValue pl))
  | .errGeneric pl => some (.frame (frameEncode p .errGeneric pl))
  | .errCrc pl => some (.frame (frameEncode p .errCrc pl))
  | .errUnknownCode pl => some (.frame (frameEncode p .errUnknownCode pl))
  | .errInvalidArgs pl => some (.frame (frameEncode p .errInvalidArgs pl))
  | .errBusy pl => some (.frame (frameEncode p .errBusy pl))
  | .gpioDirResp pl => some (.frame (frameEncode p .gpioDirResp pl))
  | .decEnd _ => some (.decByte (decWord false 0xC0#8))
  | .decEsc _ => some (.decByte (decWord false 0xDB#8))
  | .decLit b _ => some (.decByte (decWord false b))
  | .decEscEnd _ => some (.decByte (decWord true 0xDC#8))
  | .decEscEsc _ => some (.decByte (decWord true 0xDD#8))
  | .decBadEsc b _ => some (.decByte (decWord true b))
  | .encByteEnd _ => some (.encByte 0xC0#8)
  | .encByteEsc _ => some (.encByte 0xDB#8)
  | .encByteLit b _ => some (.encByte b)
  | .decFeed _ | .decSlice | .decReset | .encFeed _ | .encFinish | .encSlice | .encReset => none
  | .crc16 _ | .frameDecode _ | .frameEncode _ _ | .codeLookup _ | .codeEncode _ | .categorize _ => none
  | .argInit _ | .argU8 | .argU16 | .reqBuild _ _ | .reqExec _ | .toFrame _ | .reset => none
  | .sRx | .sHunt | .sDecode | .sDispatch | .sRespond => none

/-! ## The opcode table's words -/

/-- How many payload bytes a request consumes (R83); 0 for a response code. -/
def arity : Code → Nat
  | .gpioDirSet | .gpioWrite => 2
  | .gpioDirGet | .gpioRead => 1
  | .ping | .itfType | .version | .idGet => 0
  | .gpioValue | .good | .errGeneric | .errCrc | .errUnknownCode | .errInvalidArgs | .errBusy
  | .gpioDirResp => 0

/-- A row's word with operand bytes of zeros: the frame of the code whose arguments are zeros (log entry 20). -/
def codeInstr (code : Code) : Instr := frameInstr code (List.replicate (arity code) 0)

/-- The instruction a word of the opcode table stands for. The table has three encoding spaces: up to 8 bits are
a source byte of the encoder; 9 to 15 bits are `(DEC.esc << 8) | b`; 16 bits are a wire code, and a 16-bit word that
is no code of R80 but lies below `0x200` is read as `(DEC.esc << 8) | b` (log entry 20). -/
def decodeTableWord (nbits w : Nat) : Option Instr :=
  if w ≥ 2 ^ nbits then none
  else if nbits = 0 then none
  else if nbits ≤ 8 then some (encByteInstr (BitVec.ofNat 8 w) 0)
  else if nbits < 16 then
    if w < 0x200 then some (decByteInstr (w.testBit 8) (BitVec.ofNat 8 w) 0) else none
  else if nbits = 16 then
    match tableCode (BitVec.ofNat 16 w) with
    | some code => some (codeInstr code)
    | none =>
      if w < 0x200 then some (decByteInstr (w.testBit 8) (BitVec.ofNat 8 w) 0)
      else if BitVec.ofNat 16 w = Config.params.gpioDirRespCode then some (codeInstr .gpioDirResp)
      else none
  else none

end Sys2Proof
end

