-- ==== Sys2Proof/Machine/State.lean ====
section
/-! DEFINITION. The state of the block (R20 to R40), its ports, its faults and refusals, and the state after reset
(R38). Plain data. -/

namespace Sys2Proof.Machine

/-- A byte buffer (R50): the bytes written so far, by strictly rising index. An unlisted index holds any value
(I1; log entry 5). -/
abbrev Memory := List Host.Cell

/-- The values of `phase` (R26). -/
inductive Phase where
  | idle | accum | hunt | frameReady | dispatching | responding
  deriving DecidableEq, Repr

/-- The registers that hold a value only in some phases (R27 to R30, R37). -/
inductive Transient where
  | frm | arg | req | rsp
  deriving DecidableEq, Repr

/-- `FRM` (R27; log entry 7). -/
structure Frame where
  code : Code
  payload : List Byte
  deriving DecidableEq, Repr

/-- The argument parser: `ARG.view` and `ARG.cur` (R28, R200; log entry 8). -/
structure ArgParser where
  view : List Byte
  cur : Nat
  deriving DecidableEq, Repr

/-- The result of a decoder byte step (R107). -/
inductive DecResult where
  | continues | completes
  deriving DecidableEq, Repr

/-- A provider's answer as the `Gpio` event records it (R221, R287). -/
inductive GpioAnswer where
  | done
  | dir (d : GpioDir)
  | value (v : GpioValue)
  | invalidPin
  | hwError
  deriving DecidableEq, Repr

/-- One event of a run's observation (R287). -/
inductive Event where
  | inByte (b : Byte)
  | out (bytes : List Byte)
  | gpio (call : GpioCall) (answer : GpioAnswer)
  | err (e : Err)
  deriving DecidableEq, Repr

/-- What an interface operation gives its caller: `return v`, or the error it raised (R12). -/
inductive Result where
  | unit
  | raised (e : Err)
  | step (r : DecResult)
  | feed (consumed : Nat) (frameComplete : Bool)
  | bytes (bs : List Byte)
  | word (w : Word)
  | frame (code : Code) (payload : List Byte)
  | code (c : Option Code)
  | category (k : Category)
  | u8 (v : Option Byte)
  | u16 (v : Option Word)
  | request (r : Request)
  | response (r : Response)
  deriving DecidableEq, Repr

/-- Why a run of the model stops where no rule of the spec gives the next state. Every one is safe: the spec has no
effect there. -/
inductive Fault where
  /-- A transient register is read while it holds no value (R37). Raised by S_DISPATCH, S_RESPOND, ARG_U8, ARG_U16
  and the frame codes. Safe. -/
  | noValue (reg : Transient)
  /-- A pipeline step or a frame code is run in a phase that does not enable it (R271). Raised by the pipeline
  steps and the frame codes. Safe. -/
  | notEnabled (phase : Phase)
  /-- A slice would read at or past the buffer's capacity, an index that R50 does not give the space. Raised by
  DEC_SLICE, ENC_SLICE and S_DECODE, only in states where a cursor stands past its capacity, which R22 and R25 exclude.
  Safe. -/
  | outsideBuffer (space : Space)
  deriving DecidableEq, Repr

/-- Why the model gives an instruction no meaning. -/
inductive Refusal where
  /-- The instruction has no meaning yet. Raised by an arm of `exec` that rejects it by name (no arm does now).
  Safe. -/
  | notModelled (mnemonic : String)
  /-- A machine would be made of parameters that break a constraint (R325, R343). Raised by `powerOn`; no state has
  such parameters. Safe. -/
  | badInstance
  deriving DecidableEq, Repr

/-- The state of the block, its ports, and three fields of the model's own. -/
structure State where
  /-- The instance's parameters (R8); no step writes them (R34). -/
  cfg : Params
  /-- The parameters are within their constraints: no state exists of an instance that breaks one (R325, R343 item 1;
  log entry 4). -/
  cfgOk : cfg.ok = true
  /-- `DEC.buf` (R21). -/
  decBuf : Memory
  /-- `DEC.len` (R22). -/
  decLen : Nat
  /-- `DEC.esc` (R23). -/
  decEsc : Bool
  /-- `ENC.buf` (R24). -/
  encBuf : Memory
  /-- `ENC.len` (R25). -/
  encLen : Nat
  /-- `phase` (R26). -/
  phase : Phase
  /-- `FRM` (R27). -/
  frm : Option Frame
  /-- `ARG.view` and `ARG.cur` (R28, R200; log entry 8 on when they end). -/
  arg : Option ArgParser
  /-- `REQ` (R29). -/
  req : Option Request
  /-- `RSP` (R30). -/
  rsp : Option Response
  /-- `ERR` (R31). -/
  err : Option Err
  /-- `RX.cnt` (R40). -/
  rxCnt : Nat
  /-- The bytes offered on `IN`, oldest first (R270). -/
  input : List Byte
  /-- The event history, oldest first (R287); its `out` events are what `OUT` has carried (R270). -/
  events : List Event
  /-- The model's own: how many draws have been made (R241; log entry 12). -/
  draws : Nat
  /-- The model's own: what the last interface operation gave its caller (R12; log entry 9). -/
  ret : Result
  /-- The model's own: interface operations called from outside the pipeline and external resets, oldest first
  (R7, R340; log entry 10). -/
  calls : List Instr
  deriving DecidableEq, Repr

/-- The machine right after reset (R38), with nothing offered on `IN` and nothing called. Its parameters are
OPEN (R8). -/
def State.reset : State where
  cfg := Config.params
  cfgOk := Config.valid.ok
  decBuf := []
  decLen := 0
  decEsc := false
  encBuf := []
  encLen := 0
  phase := .idle
  frm := none
  arg := none
  req := none
  rsp := none
  err := none
  rxCnt := 0
  input := []
  events := []
  draws := 0
  ret := .unit
  calls := []

end Sys2Proof.Machine
end

