-- ==== Sys2Proof/Machine/Ops.lean ====
section
/-! DEFINITION. The named operations over the buffers and the registers: `MemRead` and `MemWrite` (R12), the codec
resets (R110, R137), the records of results, events and errors, entering an error (R313) and returning from one
(R315), and what is computed from the parameters (R8). -/

namespace Sys2Proof

/-! ## The parameters -/

/-- `IDENT_RESP(kind)` (R222). -/
def Params.identResp (p : Params) : IdentKind → Code × List Byte
  | .itfType => p.identItfType
  | .version => p.identVersion
  | .idGet => p.identIdGet

/-- `DIAG(reason)` (R8; log entry 2). -/
def Params.diagOf (p : Params) (e : Err) : List Byte := (p.diag.lookup e).getD []

/-- `RESP_PAYLOAD_MAX` (R8). -/
def Params.respPayloadMax (p : Params) : Nat :=
  max (max 2 p.errMsgMax)
    (max p.identItfType.2.length (max p.identVersion.2.length p.identIdGet.2.length))

/-- `ERROR_RESPONSE(E, info)` (R311): none for BadEsc and both BufferFull errors. -/
def errorResponse (p : Params) (e : Err) : Option Response :=
  match e with
  | .invalidLength _ => some (.errGeneric (p.diagOf e))
  | .invalidCrc _ _ => some .errCrc
  | .unknownCode _ => some .errUnknownCode
  | .notARequest _ => some (.errGeneric (p.diagOf e))
  | .invalidArg _ _ => some (.errInvalidArgs (p.diagOf e))
  | .invalidPin _ _ => some (.errInvalidArgs (p.diagOf e))
  | .hwError _ _ => some (.errGeneric (p.diagOf e))
  | .badEsc _ | .bufferFullDec _ | .bufferFullEnc _ => none

end Sys2Proof

namespace Sys2Proof.Machine

/-! ## Buffers -/

/-- The byte last written at an index, if one was. -/
def Memory.read : Memory → Nat → Option Byte
  | [], _ => none
  | (k, v) :: m, a => if k = a then some v else Memory.read m a

/-- Write one byte, keeping the indices strictly rising. -/
def Memory.write : Memory → Nat → Byte → Memory
  | [], a, v => [(a, v)]
  | (k, w) :: m, a, v =>
    if a < k then (a, v) :: (k, w) :: m
    else if a = k then (a, v) :: m
    else (k, w) :: Memory.write m a v

/-- The byte an index of a space holds: what was last written there, else any value (I1; log entry 5). -/
def Memory.byteAt (m : Memory) (space : Space) (i : Nat) : Byte := (m.read i).getD (Config.unwritten space i)

/-- `MemRead(SPACE:i, n)` (R12). -/
def Memory.readN (m : Memory) (space : Space) : Nat → Nat → List Byte
  | _, 0 => []
  | i, n + 1 => m.byteAt space i :: Memory.readN m space (i + 1) n

/-- `MemWrite(SPACE:i, n, v)` (R12). -/
def Memory.writeN : Memory → Nat → List Byte → Memory
  | m, _, [] => m
  | m, i, b :: bs => Memory.writeN (m.write i b) (i + 1) bs

/-- The canonical form: indices strictly rising. What an unlisted index holds is a free value, which no entry can be
shown equal to (log entry 5). -/
abbrev Memory.wf (m : Memory) : Prop := (m.map Prod.fst).Pairwise (· < ·)

/-! ## Records -/

/-- Append one event to the history (R287). -/
def State.event (s : State) (e : Event) : State := { s with events := s.events ++ [e] }

/-- `ERR <- E(info)`, which the history records (R31, R287). -/
def State.recordErr (s : State) (e : Err) : State :=
  { s with err := some e, events := s.events ++ [.err e] }

/-- `return v` to the caller of an interface operation (R12). -/
def State.returns (s : State) (r : Result) : State := { s with ret := r }

/-- `raise E(info)` to the caller of an interface operation (R12), recorded in `ERR` (R31; log entry 11). -/
def State.raises (s : State) (e : Err) : State :=
  { s with err := some e, events := s.events ++ [.err e], ret := .raised e }

/-! ## Codec resets -/

/-- `DEC_RESET` (R110). The payload view ends with it: `FRM` (R27, R347; log entry 30), and `ARG`, the parse over it
(R64, R347, I2; log entry 33). -/
def State.decReset (s : State) : State := { s with decLen := 0, decEsc := false, frm := none, arg := none }

/-- `ENC_RESET` (R137). -/
def State.encReset (s : State) : State := { s with encLen := 0 }

/-! ## Entering an error and returning -/

/-- Error entry (R313): write `ERR`, choose the error's response if it has one (R311), and move `phase` to the
handling phase. It serves message-level errors (R277), transport-framing errors (R275) and encoder errors (R280). -/
def State.takeError (s : State) (e : Err) (handler : Phase) : State :=
  match errorResponse s.cfg e with
  | some r => { s.recordErr e with rsp := some r, phase := handler }
  | none => { s.recordErr e with phase := handler }

/-- The return to `IDLE` with both codecs reset (R279, R280, R315): `RSP`, `FRM` and `ARG` hold no value after it. -/
def State.returnToIdle (s : State) : State :=
  { s.decReset.encReset with rxCnt := 0, rsp := none, phase := .idle }

end Sys2Proof.Machine
end

