-- ==== Sys2Proof/Machine/Operands.lean ====
section
/-! DEFINITION. Operand forms (R77): the argument parser (R200 to R202) and the one-byte enumerations (R78, R79). -/

namespace Sys2Proof.Machine

/-- `ARG_INIT(payload)` (R200). -/
def parserInit (payload : List Byte) : ArgParser := { view := payload, cur := 0 }

/-- `ARG_U8()` (R201): the value and the parser after it. -/
def parserU8 (a : ArgParser) : Option Byte × ArgParser :=
  if a.cur + 1 > a.view.length then (none, a)
  else (some (a.view.getD a.cur 0), { a with cur := a.cur + 1 })

/-- `ARG_U16()` (R202): big-endian. -/
def parserU16 (a : ArgParser) : Option Word × ArgParser :=
  if a.cur + 2 > a.view.length then (none, a)
  else (some (be16 (a.view.getD a.cur 0) (a.view.getD (a.cur + 1) 0)), { a with cur := a.cur + 2 })

/-- The `GpioDir` of a byte (R78); none outside {0, 1, 2} (R88). -/
def gpioDirOf (d : Byte) : Option GpioDir :=
  if d = 0#8 then some .pullDownInput
  else if d = 1#8 then some .pullUpInput
  else if d = 2#8 then some .output
  else none

/-- The byte of a `GpioDir` (R78). -/
def gpioDirByte : GpioDir → Byte
  | .pullDownInput => 0#8
  | .pullUpInput => 1#8
  | .output => 2#8

/-- The `GpioValue` of a byte (R79); none outside {0, 1} (R88). -/
def gpioValueOf (v : Byte) : Option GpioValue :=
  if v = 0#8 then some .low
  else if v = 1#8 then some .high
  else none

/-- The byte of a `GpioValue` (R79). -/
def gpioValueByte : GpioValue → Byte
  | .low => 0#8
  | .high => 1#8

end Sys2Proof.Machine
end

