-- ==== Sys2Proof/Machine/Flags.lean ====
section
/-! DEFINITION. The block's two flags (R33): `DEC.esc` (R23) and the `frame_complete` result of the decoder. -/

namespace Sys2Proof.Machine

/-- `DEC.esc <- 1` (R102). -/
def State.setEsc (s : State) : State := { s with decEsc := true }

/-- `DEC.esc <- 0` (R104, R105, R106). -/
def State.clearEsc (s : State) : State := { s with decEsc := false }

/-- `frame_complete` of a byte step's result (R108): true exactly at Complete. -/
def frameComplete : DecResult → Bool
  | .continues => false
  | .completes => true

end Sys2Proof.Machine
end

