-- ==== Sys2Proof/Machine/Codec.lean ====
section
/-! DEFINITION. The pure operations called at the interfaces: `CRC16`, `FRAME_DECODE`, `FRAME_ENCODE`
(42_frame_codec.md), `CODE_LOOKUP`, `CODE_ENCODE`, `CATEGORIZE` (43_code_registry.md), and the argument parser
(44_arg_parser.md). -/

namespace Sys2Proof.Machine

/-- CRC16 (R150). -/
def execCrc16 (m : List Byte) (s : State) : Host.Outcome State Fault Refusal :=
  .next (s.returns (.word (crc16 m)))

/-- FRAME_DECODE (R152). -/
def execFrameDecode (bytes : List Byte) (s : State) : Host.Outcome State Fault Refusal :=
  .next (match frameDecode s.cfg bytes with
    | .ok (code, payload) => s.returns (.frame code payload)
    | .error e => s.raises e)

/-- FRAME_ENCODE (R157). -/
def execFrameEncode (code : Code) (payload : List Byte) (s : State) : Host.Outcome State Fault Refusal :=
  .next (s.returns (.bytes (frameEncode s.cfg code payload)))

/-- CODE_LOOKUP (R180). -/
def execCodeLookup (c16 : Word) (s : State) : Host.Outcome State Fault Refusal :=
  .next (s.returns (.code (codeLookup s.cfg c16)))

/-- CODE_ENCODE (R181). -/
def execCodeEncode (code : Code) (s : State) : Host.Outcome State Fault Refusal :=
  .next (s.returns (.word (codeEncode s.cfg code)))

/-- CATEGORIZE (R182). -/
def execCategorize (code : Code) (s : State) : Host.Outcome State Fault Refusal :=
  .next (s.returns (.category (categorize code)))

/-- ARG_INIT (R200). -/
def execArgInit (payload : List Byte) (s : State) : Host.Outcome State Fault Refusal :=
  .next ({ s with arg := some (parserInit payload) }.returns .unit)

/-- ARG_U8 (R201). -/
def execArgU8 (s : State) : Host.Outcome State Fault Refusal :=
  match s.arg with
  | none => .fault (.noValue .arg)
  | some a => .next ({ s with arg := some (parserU8 a).2 }.returns (.u8 (parserU8 a).1))

/-- ARG_U16 (R202). -/
def execArgU16 (s : State) : Host.Outcome State Fault Refusal :=
  match s.arg with
  | none => .fault (.noValue .arg)
  | some a => .next ({ s with arg := some (parserU16 a).2 }.returns (.u16 (parserU16 a).1))

end Sys2Proof.Machine
end

