-- ==== Sys2Proof/Machine/Dispatcher.lean ====
section
/-! DEFINITION. The dispatcher (45_dispatcher.md): building a request, the provider port, executing a request, and
the frame of a response. -/

namespace Sys2Proof.Machine

/-! ## Building -/

/-- The code a request was built from (R29, R220). -/
def requestCode : Request → Code
  | .ping => .ping
  | .itfType => .itfType
  | .version => .version
  | .idGet => .idGet
  | .gpioDirSet _ _ => .gpioDirSet
  | .gpioDirGet _ => .gpioDirGet
  | .gpioWrite _ _ => .gpioWrite
  | .gpioRead _ => .gpioRead

/-- `REQ_BUILD(code, payload)` (R220, R203): the parser after it, and the request or the InvalidArg it raises. None
for a code that is no request, which R220 has no arm for. -/
def buildRequest (code : Code) (payload : List Byte) : Option (ArgParser × Except Err Request) :=
  let a0 := parserInit payload
  match code with
  | .ping => some (a0, .ok .ping)
  | .itfType => some (a0, .ok .itfType)
  | .version => some (a0, .ok .version)
  | .idGet => some (a0, .ok .idGet)
  | .gpioDirSet =>
    match parserU8 a0 with
    | (none, a1) => some (a1, .error (.invalidArg code .missing))
    | (some pin, a1) =>
      match parserU8 a1 with
      | (none, a2) => some (a2, .error (.invalidArg code .missing))
      | (some d, a2) =>
        match gpioDirOf d with
        | none => some (a2, .error (.invalidArg code (.badDir d)))
        | some dir => some (a2, .ok (.gpioDirSet pin dir))
  | .gpioDirGet =>
    match parserU8 a0 with
    | (none, a1) => some (a1, .error (.invalidArg code .missing))
    | (some pin, a1) => some (a1, .ok (.gpioDirGet pin))
  | .gpioRead =>
    match parserU8 a0 with
    | (none, a1) => some (a1, .error (.invalidArg code .missing))
    | (some pin, a1) => some (a1, .ok (.gpioRead pin))
  | .gpioWrite =>
    match parserU8 a0 with
    | (none, a1) => some (a1, .error (.invalidArg code .missing))
    | (some pin, a1) =>
      match parserU8 a1 with
      | (none, a2) => some (a2, .error (.invalidArg code .missing))
      | (some v, a2) =>
        match gpioValueOf v with
        | none => some (a2, .error (.invalidArg code (.badValue v)))
        | some value => some (a2, .ok (.gpioWrite pin value))
  | .gpioValue | .good | .errGeneric | .errCrc | .errUnknownCode | .errInvalidArgs | .errBusy
  | .gpioDirResp => none

/-! ## The GPIO capability provider port -/

/-- An answer of the provider to a call whose `Ok` carries an `α` (R221). -/
inductive Answer (α : Type) where
  | ok (x : α)
  | invalidPin
  | hwError
  deriving DecidableEq, Repr

/-- What the provider may answer (R241): `InvalidPin` exactly for a pin outside `VALID_PINS`, else what was drawn. -/
def answerOf {α : Type} (p : Params) (pin : Byte) (draw : Option α) : Answer α :=
  if p.validPins.contains pin.toNat then
    match draw with
    | some x => .ok x
    | none => .hwError
  else .invalidPin

/-- The answer as its event records it. -/
def answerEvent {α : Type} (shown : α → GpioAnswer) : Answer α → GpioAnswer
  | .ok x => shown x
  | .invalidPin => .invalidPin
  | .hwError => .hwError

/-- One call and its answer, one event (R221, R270, R287). -/
def State.calling (s : State) (call : GpioCall) (answer : GpioAnswer) : State :=
  { s with draws := s.draws + 1, events := s.events ++ [.gpio call answer] }

/-- `FOLD(c, p, answer, on_ok)` (R223): the response, and the error the provider answered, if it did. -/
def fold {α : Type} (p : Params) (code : Code) (pin : Byte) (answer : Answer α) (onOk : α → Response) :
    Response × Option Err :=
  match answer with
  | .ok x => (onOk x, none)
  | .invalidPin =>
    (.errInvalidArgs (p.diagOf (.invalidPin code pin)), some (.invalidPin code pin))
  | .hwError => (.errGeneric (p.diagOf (.hwError code pin)), some (.hwError code pin))

/-! ## Executing -/

/-- `REQ_EXEC(REQ)` (R242; R224 to R231): the state after the provider call if there is one (R240), the response,
and the error the provider answered, if it did. -/
def execRequest (r : Request) (s : State) : State × Response × Option Err :=
  match r with
  | .ping => (s, .good, none)
  | .itfType => (s, .ident .itfType, none)
  | .version => (s, .ident .version, none)
  | .idGet => (s, .ident .idGet, none)
  | .gpioDirSet pin dir =>
    let call := GpioCall.setDirection pin dir
    let a := answerOf s.cfg pin (Config.drawUnit s.draws call)
    (s.calling call (answerEvent (fun _ => .done) a), fold s.cfg .gpioDirSet pin a (fun _ => .good))
  | .gpioDirGet pin =>
    let call := GpioCall.getDirection pin
    let a := answerOf s.cfg pin (Config.drawDir s.draws call)
    (s.calling call (answerEvent .dir a), fold s.cfg .gpioDirGet pin a (fun d => .gpioDirResp pin d))
  | .gpioWrite pin value =>
    let call := GpioCall.setValue pin value
    let a := answerOf s.cfg pin (Config.drawUnit s.draws call)
    (s.calling call (answerEvent (fun _ => .done) a), fold s.cfg .gpioWrite pin a (fun _ => .good))
  | .gpioRead pin =>
    let call := GpioCall.getValue pin
    let a := answerOf s.cfg pin (Config.drawValue s.draws call)
    (s.calling call (answerEvent .value a), fold s.cfg .gpioRead pin a (fun v => .gpioValue pin v))

/-- `TO_FRAME(RSP)` (R267; R258 to R266, R84). DESIGN CHOICE, log entry 36: R261 and R264 bound `msg` by `ERR_MSG_MAX`
and state nothing for a longer one, which a direct caller of TO_FRAME may pass; it is the payload unchanged. -/
def responseFrame (p : Params) : Response → Code × List Byte
  | .good => (.good, [])
  | .gpioValue pin value => (.gpioValue, [pin, gpioValueByte value])
  | .gpioDirResp pin dir => (.gpioDirResp, [pin, gpioDirByte dir])
  | .errGeneric msg => (.errGeneric, msg)
  | .errCrc => (.errCrc, [])
  | .errUnknownCode => (.errUnknownCode, [])
  | .errInvalidArgs msg => (.errInvalidArgs, msg)
  | .errBusy => (.errBusy, [])
  | .ident kind => p.identResp kind

/-! ## Meanings -/

/-- The result of `REQ_BUILD` for a code that is no request, which R220 does not state: a free value, a request or the
cause of an InvalidArg, R220's one error (log entry 19). The parse is discarded with the construction (R28). -/
def unstatedBuild (code : Code) (payload : List Byte) (s : State) : State :=
  let t : State := { s with arg := none, draws := s.draws + 1 }
  match Config.unstatedBuild s.draws code payload with
  | .ok r => t.returns (.request r)
  | .error cause => t.raises (.invalidArg code cause)

/-- REQ_BUILD (R220). The parser is discarded after the construction, whether it gives a request or raises (R28; log
entry 8). -/
def execReqBuild (code : Code) (payload : List Byte) (s : State) : Host.Outcome State Fault Refusal :=
  match buildRequest code payload with
  | none => .next (unstatedBuild code payload s)
  | some (_, .ok r) => .next ({ s with arg := none }.returns (.request r))
  | some (_, .error e) => .next ({ s with arg := none }.raises e)

/-- REQ_EXEC (R242): no arm raises. -/
def execReqExec (r : Request) (s : State) : Host.Outcome State Fault Refusal :=
  .next (match execRequest r s with
    | (t, rsp, _) => t.returns (.response rsp))

/-- TO_FRAME (R267). -/
def execToFrame (rsp : Response) (s : State) : Host.Outcome State Fault Refusal :=
  .next (s.returns (.frame (responseFrame s.cfg rsp).1 (responseFrame s.cfg rsp).2))

end Sys2Proof.Machine
end

