-- ==== Sys2Proof/Machine/SlipDecoder.lean ====
section
/-! DEFINITION. The SLIP decoder (40_slip_decoder.md): the six byte operations, `DEC_STEP`, `DEC_FEED`, `DEC_SLICE`
and `DEC_RESET`. -/

namespace Sys2Proof.Machine

/-! ## Operations on the decoder's state -/

/-- `APPEND(v, pos)` and then `return Continue` (R100; log entry 6 on the comparison). -/
def decAppend (v : Byte) (pos : Nat) (s : State) : State × Except Err DecResult :=
  if s.decLen < s.cfg.decCap then
    ({ s with decBuf := s.decBuf.write s.decLen v, decLen := s.decLen + 1 }, .ok .continues)
  else (s, .error (.bufferFullDec pos))

/-- `DEC_STEP(b, pos)` (R107): the operation of the byte's class. -/
def decStep (b : Byte) (pos : Nat) (s : State) : State × Except Err DecResult :=
  match decClass s.decEsc b with
  | .lit => decAppend b pos s
  | .esc => (s.setEsc, .ok .continues)
  | .endFrame => (s, .ok .completes)
  | .escEnd => decAppend slipEnd pos s.clearEsc
  | .escEsc => decAppend slipEsc pos s.clearEsc
  | .badEsc => (s.clearEsc, .error (.badEsc pos))

/-- `DEC_FEED` from chunk index `i` on (R108): `(consumed, frame_complete)` or the error that ended it. -/
def decFeedFrom (i : Nat) : List Byte → State → State × Except Err (Nat × Bool)
  | [], s => (s, .ok (i, false))
  | b :: rest, s =>
    match decStep b i s with
    | (t, .error e) => (t, .error e)
    | (t, .ok r) => if frameComplete r then (t, .ok (i + 1, true)) else decFeedFrom (i + 1) rest t

/-- `DEC_SLICE()` (R109): the bytes below the cursor. -/
def State.decBytes (s : State) : List Byte := s.decBuf.readN .dec 0 s.decLen

/-! ## Meanings -/

/-- Give a byte operation's result to its caller (R12). -/
def replyStep (r : State × Except Err DecResult) : Host.Outcome State Fault Refusal :=
  .next (match r with
    | (t, .ok d) => t.returns (.step d)
    | (t, .error e) => t.raises e)

/-- DEC_LIT (R101). -/
def execDecLit (b : Byte) (pos : Nat) (s : State) : Host.Outcome State Fault Refusal :=
  replyStep (decAppend b pos s)

/-- DEC_ESC (R102). Its position operand is not used. -/
def execDecEsc (_pos : Nat) (s : State) : Host.Outcome State Fault Refusal :=
  replyStep (s.setEsc, .ok .continues)

/-- DEC_END (R103): no state is written. Its position operand is not used. -/
def execDecEnd (_pos : Nat) (s : State) : Host.Outcome State Fault Refusal :=
  replyStep (s, .ok .completes)

/-- DEC_ESC_END (R104): the flag is cleared first; the byte appended is END. -/
def execDecEscEnd (pos : Nat) (s : State) : Host.Outcome State Fault Refusal :=
  replyStep (decAppend slipEnd pos s.clearEsc)

/-- DEC_ESC_ESC (R105): the flag is cleared first; the byte appended is ESC. -/
def execDecEscEsc (pos : Nat) (s : State) : Host.Outcome State Fault Refusal :=
  replyStep (decAppend slipEsc pos s.clearEsc)

/-- DEC_BADESC (R106): the flag is cleared and BadEsc raised, whatever the byte. -/
def execDecBadEsc (_b : Byte) (pos : Nat) (s : State) : Host.Outcome State Fault Refusal :=
  replyStep (s.clearEsc, .error (.badEsc pos))

/-- DEC_FEED (R108). -/
def execDecFeed (chunk : List Byte) (s : State) : Host.Outcome State Fault Refusal :=
  .next (match decFeedFrom 0 chunk s with
    | (t, .ok (consumed, done)) => t.returns (.feed consumed done)
    | (t, .error e) => t.raises e)

/-- DEC_SLICE (R109), within the space (R50). -/
def execDecSlice (s : State) : Host.Outcome State Fault Refusal :=
  if s.decLen ≤ s.cfg.decCap then .next (s.returns (.bytes s.decBytes)) else .fault (.outsideBuffer .dec)

/-- DEC_RESET (R110). -/
def execDecReset (s : State) : Host.Outcome State Fault Refusal :=
  .next (s.decReset.returns .unit)

end Sys2Proof.Machine
end

