-- ==== Sys2Proof/Machine/SlipEncoder.lean ====
section
/-! DEFINITION. The SLIP encoder (41_slip_encoder.md): the three byte operations, `ENC_FEED`, `ENC_FINISH`,
`ENC_SLICE` and `ENC_RESET`. -/

namespace Sys2Proof.Machine

/-! ## Operations on the encoder's state -/

/-- `ENC_APPEND(unit, pos)` (R130): whole or not at all. -/
def encAppend (bytes : List Byte) (pos : Option Nat) (s : State) : State × Except Err Unit :=
  if s.encLen + bytes.length > s.cfg.encCap then (s, .error (.bufferFullEnc pos))
  else
    ({ s with encBuf := s.encBuf.writeN s.encLen bytes, encLen := s.encLen + bytes.length }, .ok ())

/-- The encoded unit of a source byte (R73, R131 to R133). -/
def encUnit (b : Byte) : List Byte :=
  match encClass b with
  | .endByte => [slipEsc, slipEscEnd]
  | .escByte => [slipEsc, slipEscEsc]
  | .lit => [b]

/-- The byte mapping `SLIP_ENC` (R113, R71): the encoded units one after another. -/
def slipEnc (bytes : List Byte) : List Byte := bytes.flatMap encUnit

/-- `SLIP_LEN` (R140). -/
def slipLen (bytes : List Byte) : Nat :=
  bytes.length + bytes.count slipEnd + bytes.count slipEsc + 1

/-- `ENC_FEED` from source index `i` on (R134). -/
def encFeedFrom (i : Nat) : List Byte → State → State × Except Err Unit
  | [], s => (s, .ok ())
  | b :: rest, s =>
    match encAppend (encUnit b) (some i) s with
    | (t, .error e) => (t, .error e)
    | (t, .ok ()) => encFeedFrom (i + 1) rest t

/-- `ENC_FINISH` (R135): its error carries no position. -/
def encFinishOp (s : State) : State × Except Err Unit := encAppend [slipEnd] none s

/-- `ENC_SLICE()` (R136): the bytes below the cursor. -/
def State.encBytes (s : State) : List Byte := s.encBuf.readN .enc 0 s.encLen

/-! ## Meanings -/

/-- Give an encoder operation's result to its caller (R12). -/
def replyUnit (r : State × Except Err Unit) : Host.Outcome State Fault Refusal :=
  .next (match r with
    | (t, .ok ()) => t.returns .unit
    | (t, .error e) => t.raises e)

/-- ENC_BYTE_END (R131). -/
def execEncByteEnd (pos : Nat) (s : State) : Host.Outcome State Fault Refusal :=
  replyUnit (encAppend [slipEsc, slipEscEnd] (some pos) s)

/-- ENC_BYTE_ESC (R132). -/
def execEncByteEsc (pos : Nat) (s : State) : Host.Outcome State Fault Refusal :=
  replyUnit (encAppend [slipEsc, slipEscEsc] (some pos) s)

/-- ENC_BYTE_LIT (R133). Called with END or ESC, which its encoding excludes (R73), it appends that byte as it is: the
model's choice (log entry 35). -/
def execEncByteLit (b : Byte) (pos : Nat) (s : State) : Host.Outcome State Fault Refusal :=
  replyUnit (encAppend [b] (some pos) s)

/-- ENC_FEED (R134). -/
def execEncFeed (bytes : List Byte) (s : State) : Host.Outcome State Fault Refusal :=
  replyUnit (encFeedFrom 0 bytes s)

/-- ENC_FINISH (R135). -/
def execEncFinish (s : State) : Host.Outcome State Fault Refusal :=
  replyUnit (encFinishOp s)

/-- ENC_SLICE (R136), within the space (R50). -/
def execEncSlice (s : State) : Host.Outcome State Fault Refusal :=
  if s.encLen ≤ s.cfg.encCap then .next (s.returns (.bytes s.encBytes)) else .fault (.outsideBuffer .enc)

/-- ENC_RESET (R137). -/
def execEncReset (s : State) : Host.Outcome State Fault Refusal :=
  .next (s.encReset.returns .unit)

end Sys2Proof.Machine
end

