-- ==== Sys2Proof/Machine/Pipeline.lean ====
section
/-! DEFINITION. The pipeline controller (46_pipeline.md): its five steps, and what a frame code does in the phases
its frame passes through. -/

namespace Sys2Proof.Machine

/-! ## Receiving bytes -/

/-- Accept the byte `b` from the head of `IN`, leaving `rest` offered (R270, R287). The step that accepts it is outside
S_DECODE, so `ARG` holds no value after it (R28; log entry 8). -/
def State.accept (s : State) (b : Byte) (rest : List Byte) : State :=
  { s with input := rest, events := s.events ++ [.inByte b], arg := none }

/-- The Complete outcome of S_RX (R274). -/
def completeFrame (s : State) : State :=
  if s.decLen = 0 ∧ s.cfg.emptyFrameMode = .drop then
    { s.decReset with rxCnt := 0, phase := .idle }
  else { s with phase := .frameReady }

/-- A transport-framing error in S_RX, raised at the byte `b` (R275). -/
def framingError (e : Err) (b : Byte) (s : State) : State :=
  State.takeError { s.decReset with rxCnt := 0 } e
    (if s.cfg.resyncMode = .hunt ∧ b ≠ slipEnd then .hunt else .idle)

/-- S_RX on an offered byte (R272 to R275). -/
def rxByte (b : Byte) (rest : List Byte) (s : State) : State :=
  match decStep b s.rxCnt { s.accept b rest with rxCnt := s.rxCnt + 1 } with
  | (t, .ok .continues) => { t with phase := .accum }
  | (t, .ok .completes) => completeFrame t
  | (t, .error e) => framingError e b t

/-- S_HUNT on an offered byte (R276). -/
def huntByte (b : Byte) (rest : List Byte) (s : State) : State :=
  if b = slipEnd then { s.accept b rest with phase := .idle } else s.accept b rest

/-! ## Decoding, dispatching, responding -/

/-- S_DECODE once `FRAME_DECODE` has given the code and the payload (R277, R184): `FRM` is written, the category
checked, the request built. `ARG.cur` holds no value after the step. -/
def acceptFrame (code : Code) (payload : List Byte) (s : State) : State :=
  let s1 : State := { s with frm := some { code := code, payload := payload }, arg := none }
  if categorize code = .response then
    s1.takeError (.notARequest (codeEncode s.cfg code)) .responding
  else
    match buildRequest code payload with
    | some (_, .ok r) => { s1 with req := some r, phase := .dispatching }
    | some (_, .error e) => s1.takeError e .responding
    -- no request code reaches this line: R220 has an arm for each
    | none => s1.takeError (.notARequest (codeEncode s.cfg code)) .responding

/-- S_DECODE on the bytes of the completed frame (R277). -/
def decodeBytes (bytes : List Byte) (s : State) : State :=
  match frameDecode s.cfg bytes with
  | .error e => State.takeError { s with arg := none } e .responding
  | .ok (code, payload) => acceptFrame code payload s

/-- S_DISPATCH on the request `r` (R278): a provider's error is recorded in `ERR`. The step is outside S_DECODE, so
`ARG` holds no value after it (R28; log entry 8). -/
def dispatchRequest (r : Request) (s : State) : State :=
  match execRequest r s with
  | (t, rsp, none) => { t with arg := none, req := none, rsp := some rsp, phase := .responding }
  | (t, rsp, some e) => { t.recordErr e with arg := none, req := none, rsp := some rsp, phase := .responding }

/-- S_RESPOND on a response's code and payload (R279); an encoder overflow drops the response (R280). -/
def sendFrame (code : Code) (payload : List Byte) (s : State) : Host.Outcome State Fault Refusal :=
  match encFeedFrom 0 (frameEncode s.cfg code payload) s with
  | (t, .error e) => .next (t.takeError e .idle).returnToIdle
  | (t, .ok ()) =>
    match encFinishOp t with
    | (u, .error e) => .next (u.takeError e .idle).returnToIdle
    | (u, .ok ()) => .next (u.event (.out u.encBytes)).returnToIdle

/-- What a frame code does in the phase its frame is in (log entry 17): in `FRAME_READY` it is categorized and built,
as S_DECODE does; in `DISPATCHING` its request is executed (S_DISPATCH); in `RESPONDING` the response frame of that code
is sent (S_RESPOND). In another phase, with another code than the request's in `DISPATCHING`, and with another code or
payload than the response's in `RESPONDING`, it is not enabled. In `FRAME_READY` the model takes the code and the payload
from the instruction itself and compares them with nothing: not with the bytes in `DEC.buf`, not with
`FRAME_PAYLOAD_CAP`, where a direct caller gives another frame than the decoder holds (the model's choice, log entry 34);
nor is the payload compared in `DISPATCHING`. -/
def frameCode (code : Code) (payload : List Byte) (s : State) : Host.Outcome State Fault Refusal :=
  match s.phase with
  | .frameReady => .next (acceptFrame code payload s)
  | .dispatching =>
    match s.req with
    | none => .fault (.noValue .req)
    | some r => if requestCode r = code then .next (dispatchRequest r s) else .fault (.notEnabled s.phase)
  | .responding =>
    match s.rsp with
    | none => .fault (.noValue .rsp)
    | some r =>
      if responseFrame s.cfg r = (code, payload) then sendFrame code payload s
      else .fault (.notEnabled s.phase)
  | .idle | .accum | .hunt => .fault (.notEnabled s.phase)

/-! ## Meanings -/

/-- S_RX (R272 to R275). With no byte offered it is a poll that returns zero bytes (R270, R288; log entry 13). -/
def execSRx (s : State) : Host.Outcome State Fault Refusal :=
  match s.phase with
  | .idle | .accum =>
    match s.input with
    | [] => .next s
    | b :: rest => .next (rxByte b rest s)
  | .hunt | .frameReady | .dispatching | .responding => .fault (.notEnabled s.phase)

/-- S_HUNT (R276). With no byte offered it is a poll that returns zero bytes (R270, R288; log entry 13). -/
def execSHunt (s : State) : Host.Outcome State Fault Refusal :=
  match s.phase with
  | .hunt =>
    match s.input with
    | [] => .next s
    | b :: rest => .next (huntByte b rest s)
  | .idle | .accum | .frameReady | .dispatching | .responding => .fault (.notEnabled s.phase)

/-- S_DECODE (R277). -/
def execSDecode (s : State) : Host.Outcome State Fault Refusal :=
  match s.phase with
  | .frameReady =>
    if s.decLen ≤ s.cfg.decCap then .next (decodeBytes s.decBytes s) else .fault (.outsideBuffer .dec)
  | .idle | .accum | .hunt | .dispatching | .responding => .fault (.notEnabled s.phase)

/-- S_DISPATCH (R278). -/
def execSDispatch (s : State) : Host.Outcome State Fault Refusal :=
  match s.phase with
  | .dispatching =>
    match s.req with
    | none => .fault (.noValue .req)
    | some r => .next (dispatchRequest r s)
  | .idle | .accum | .hunt | .frameReady | .responding => .fault (.notEnabled s.phase)

/-- S_RESPOND (R279, R280). -/
def execSRespond (s : State) : Host.Outcome State Fault Refusal :=
  match s.phase with
  | .responding =>
    match s.rsp with
    | none => .fault (.noValue .rsp)
    | some r => sendFrame (responseFrame s.cfg r).1 (responseFrame s.cfg r).2 s
  | .idle | .accum | .hunt | .frameReady | .dispatching => .fault (.notEnabled s.phase)

end Sys2Proof.Machine
end

