-- ==== Sys2Proof/Machine/Requests.lean ====
section
/-! DEFINITION. The eight request codes (R224 to R231): the frame is built into `REQ` in `FRAME_READY`, and `REQ` executed in
`DISPATCHING`. -/

namespace Sys2Proof.Machine

/-- PING (R224; build R220, execute R242). -/
def execPing (payload : List Byte) (s : State) : Host.Outcome State Fault Refusal :=
  frameCode .ping payload s

/-- ITF_TYPE (R225; build R220, execute R242). -/
def execItfType (payload : List Byte) (s : State) : Host.Outcome State Fault Refusal :=
  frameCode .itfType payload s

/-- VERSION (R226; build R220, execute R242). -/
def execVersion (payload : List Byte) (s : State) : Host.Outcome State Fault Refusal :=
  frameCode .version payload s

/-- ID_GET (R227; build R220, execute R242). -/
def execIdGet (payload : List Byte) (s : State) : Host.Outcome State Fault Refusal :=
  frameCode .idGet payload s

/-- GPIO_DIR_SET (R228; build R220, execute R242). -/
def execGpioDirSet (payload : List Byte) (s : State) : Host.Outcome State Fault Refusal :=
  frameCode .gpioDirSet payload s

/-- GPIO_DIR_GET (R229; build R220, execute R242). -/
def execGpioDirGet (payload : List Byte) (s : State) : Host.Outcome State Fault Refusal :=
  frameCode .gpioDirGet payload s

/-- GPIO_READ (R230; build R220, execute R242). -/
def execGpioRead (payload : List Byte) (s : State) : Host.Outcome State Fault Refusal :=
  frameCode .gpioRead payload s

/-- GPIO_WRITE (R231; build R220, execute R242). -/
def execGpioWrite (payload : List Byte) (s : State) : Host.Outcome State Fault Refusal :=
  frameCode .gpioWrite payload s

end Sys2Proof.Machine
end

