-- ==== Sys2Proof/Machine/ResetOp.lean ====
section
/-! DEFINITION. The external reset (70_reset_and_hazards.md R340), and making a machine of given parameters (R343). -/

namespace Sys2Proof.Machine

/-- The block's state elements at their reset values (R340, R38). The ports and the model's own fields are no state
elements of the block: what the transport still offers on `IN` is free (R340, R345; log entry 15), the history and the
calls from outside stay. -/
def State.resetBlock (s : State) : State :=
  { s.decReset.encReset with
    rxCnt := 0
    phase := .idle
    frm := none
    arg := none
    req := none
    rsp := none
    err := none
    input := Config.inputAfterReset s.draws s.input
    draws := s.draws + 1
    ret := .unit }

/-- RESET (R340). -/
def execReset (s : State) : Host.Outcome State Fault Refusal := .next s.resetBlock

/-- Making a machine of given parameters (R343): refused where they break a constraint (R325, I14; log entry 4), else
the machine right after reset with them. -/
def powerOn (p : Params) : Host.Outcome State Fault Refusal :=
  if h : p.ok = true then .next { State.reset with cfg := p, cfgOk := h } else .refused .badInstance

end Sys2Proof.Machine
end

