-- ==== Sys2Proof/Machine/Responses.lean ====
section
/-! DEFINITION. The response codes (R258 to R266): inbound, in `FRAME_READY`, each is NotARequest (R184, R306); outbound, in
`RESPONDING`, the frame of that code is the response sent (R267, R279). -/

namespace Sys2Proof.Machine

/-- GOOD (R258; inbound R306). -/
def execGood (payload : List Byte) (s : State) : Host.Outcome State Fault Refusal :=
  frameCode .good payload s

/-- GPIO_VALUE (R259; inbound R306). -/
def execGpioValue (payload : List Byte) (s : State) : Host.Outcome State Fault Refusal :=
  frameCode .gpioValue payload s

/-- ERR_GENERIC (R261; inbound R306). -/
def execErrGeneric (payload : List Byte) (s : State) : Host.Outcome State Fault Refusal :=
  frameCode .errGeneric payload s

/-- ERR_CRC (R262; inbound R306). -/
def execErrCrc (payload : List Byte) (s : State) : Host.Outcome State Fault Refusal :=
  frameCode .errCrc payload s

/-- ERR_UNKNOWN_CODE (R263; inbound R306). -/
def execErrUnknownCode (payload : List Byte) (s : State) : Host.Outcome State Fault Refusal :=
  frameCode .errUnknownCode payload s

/-- ERR_INVALID_ARGS (R264; inbound R306). -/
def execErrInvalidArgs (payload : List Byte) (s : State) : Host.Outcome State Fault Refusal :=
  frameCode .errInvalidArgs payload s

/-- ERR_BUSY (R265; inbound R306). -/
def execErrBusy (payload : List Byte) (s : State) : Host.Outcome State Fault Refusal :=
  frameCode .errBusy payload s

/-- GPIO_DIR_RESP (R260; inbound R306). -/
def execGpioDirResp (payload : List Byte) (s : State) : Host.Outcome State Fault Refusal :=
  frameCode .gpioDirResp payload s

end Sys2Proof.Machine
end

