-- ==== Sys2Proof/Machine/Dispatch.lean ====
section
/-! DEFINITION. The meaning of every instruction: one arm per constructor. -/

namespace Sys2Proof.Machine

def exec (i : Instr) (s : State) : Host.Outcome State Fault Refusal :=
  match i with
  | .ping payload => Sys2Proof.Machine.execPing payload s
  | .itfType payload => Sys2Proof.Machine.execItfType payload s
  | .version payload => Sys2Proof.Machine.execVersion payload s
  | .idGet payload => Sys2Proof.Machine.execIdGet payload s
  | .gpioDirSet payload => Sys2Proof.Machine.execGpioDirSet payload s
  | .gpioDirGet payload => Sys2Proof.Machine.execGpioDirGet payload s
  | .gpioRead payload => Sys2Proof.Machine.execGpioRead payload s
  | .gpioWrite payload => Sys2Proof.Machine.execGpioWrite payload s
  | .good payload => Sys2Proof.Machine.execGood payload s
  | .gpioValue payload => Sys2Proof.Machine.execGpioValue payload s
  | .errGeneric payload => Sys2Proof.Machine.execErrGeneric payload s
  | .errCrc payload => Sys2Proof.Machine.execErrCrc payload s
  | .errUnknownCode payload => Sys2Proof.Machine.execErrUnknownCode payload s
  | .errInvalidArgs payload => Sys2Proof.Machine.execErrInvalidArgs payload s
  | .errBusy payload => Sys2Proof.Machine.execErrBusy payload s
  | .gpioDirResp payload => Sys2Proof.Machine.execGpioDirResp payload s
  | .decEnd pos => Sys2Proof.Machine.execDecEnd pos s
  | .decEsc pos => Sys2Proof.Machine.execDecEsc pos s
  | .decLit b pos => Sys2Proof.Machine.execDecLit b pos s
  | .decEscEnd pos => Sys2Proof.Machine.execDecEscEnd pos s
  | .decEscEsc pos => Sys2Proof.Machine.execDecEscEsc pos s
  | .decBadEsc b pos => Sys2Proof.Machine.execDecBadEsc b pos s
  | .encByteEnd pos => Sys2Proof.Machine.execEncByteEnd pos s
  | .encByteEsc pos => Sys2Proof.Machine.execEncByteEsc pos s
  | .encByteLit b pos => Sys2Proof.Machine.execEncByteLit b pos s
  | .decFeed chunk => Sys2Proof.Machine.execDecFeed chunk s
  | .decSlice => Sys2Proof.Machine.execDecSlice s
  | .decReset => Sys2Proof.Machine.execDecReset s
  | .encFeed bytes => Sys2Proof.Machine.execEncFeed bytes s
  | .encFinish => Sys2Proof.Machine.execEncFinish s
  | .encSlice => Sys2Proof.Machine.execEncSlice s
  | .encReset => Sys2Proof.Machine.execEncReset s
  | .crc16 m => Sys2Proof.Machine.execCrc16 m s
  | .frameDecode bytes => Sys2Proof.Machine.execFrameDecode bytes s
  | .frameEncode code payload => Sys2Proof.Machine.execFrameEncode code payload s
  | .codeLookup c16 => Sys2Proof.Machine.execCodeLookup c16 s
  | .codeEncode code => Sys2Proof.Machine.execCodeEncode code s
  | .categorize code => Sys2Proof.Machine.execCategorize code s
  | .argInit payload => Sys2Proof.Machine.execArgInit payload s
  | .argU8 => Sys2Proof.Machine.execArgU8 s
  | .argU16 => Sys2Proof.Machine.execArgU16 s
  | .reqBuild code payload => Sys2Proof.Machine.execReqBuild code payload s
  | .reqExec req => Sys2Proof.Machine.execReqExec req s
  | .toFrame rsp => Sys2Proof.Machine.execToFrame rsp s
  | .reset => Sys2Proof.Machine.execReset s
  | .sRx => Sys2Proof.Machine.execSRx s
  | .sHunt => Sys2Proof.Machine.execSHunt s
  | .sDecode => Sys2Proof.Machine.execSDecode s
  | .sDispatch => Sys2Proof.Machine.execSDispatch s
  | .sRespond => Sys2Proof.Machine.execSRespond s

end Sys2Proof.Machine
end

