-- ==== Sys2Proof/Machine/Fetch.lean ====
section
/-! DEFINITION. What a step runs next: a call waiting at the interfaces, else the pipeline step of the phase (R271);
the instruction in flight; and where a word of the opcode table is placed so that the next step runs it. -/

namespace Sys2Proof.Machine

/-- The one step kind that can run in a phase (R271). -/
def phaseStep : Phase → Instr
  | .idle => .sRx
  | .accum => .sRx
  | .hunt => .sHunt
  | .frameReady => .sDecode
  | .dispatching => .sDispatch
  | .responding => .sRespond

/-- The next instruction, and the state it runs on: a waiting call is taken off the queue (R7, R340; log entry 10);
with none waiting, the pipeline step of the phase runs. -/
def nextInstr (s : State) : Instr × State :=
  match s.calls with
  | i :: rest => (i, { s with calls := rest })
  | [] => (phaseStep s.phase, s)

/-- The bytes of the frame that stands for an undecodable 16-bit word: the code alone, with its CRC. -/
def wordFrame (w : Nat) : List Byte := frameBytes (BitVec.ofNat 16 w) []

/-- Place a completed frame where S_DECODE reads it, with nothing called before it, and with capacities enlarged by its
length, so that it fits whatever they were (log entry 21). -/
def State.placeFrame (s : State) (bytes : List Byte) : State :=
  { s with
    cfg := { s.cfg with
      decCap := s.cfg.decCap + (bytes.length + 1)
      payloadCap := s.cfg.payloadCap + (bytes.length + 1) }
    cfgOk := s.cfgOk
    decBuf := s.decBuf.writeN 0 bytes, decLen := bytes.length, phase := .frameReady, calls := [] }

/-- Place a call so that it is the next one taken. -/
def State.placeCall (s : State) (i : Instr) : State := { s with calls := i :: s.calls }

/-- Place a word of the opcode table (log entries 20, 21): a wire code as the completed frame of that code with
arguments of zeros and its CRC, whether registered or not; a decoder byte as a call, with `DEC.esc` as the word says;
a source byte of the encoder as a call. -/
def placeTableWord (s : State) (nbits w : Nat) : State :=
  match decodeTableWord nbits w with
  | none => s.placeFrame (wordFrame w)
  | some i =>
    match frameParts i with
    | some (_, payload) => s.placeFrame (frameBytes (BitVec.ofNat 16 w) payload)
    | none => if nbits ≤ 8 then s.placeCall i else { s.placeCall i with decEsc := w.testBit 8 }

end Sys2Proof.Machine
end

