-- ==== Sys2Proof/WellFormed.lean ====
section
/-! DEFINITION. Well-formed instructions: the terms that stand for an encoding, or for a call the rules allow. -/

namespace Sys2Proof

/-- A frame the block can receive: its payload within `FRAME_PAYLOAD_CAP`, its bytes within `DEC_CAP` (R75). -/
def payloadFits (p : Params) (payload : List Byte) : Bool :=
  decide (payload.length ≤ p.payloadCap) && decide (payload.length + 4 ≤ p.decCap)

/-- Well-formedness over an implementation's parameters: a frame fits (R75); `GpioDirResp` has a wire value of its
own (R82, R183); a byte lies in the class its constructor names (R72, R73); `REQ_BUILD` is given a request code
(R220). `TO_FRAME` is well-formed with a message of any length (DESIGN CHOICE, log entry 36). -/
def Instr.wf (p : Params) : Instr → Bool
  | .ping pl | .itfType pl | .version pl | .idGet pl | .gpioDirSet pl | .gpioDirGet pl | .gpioRead pl
  | .gpioWrite pl | .good pl | .gpioValue pl | .errGeneric pl | .errCrc pl | .errUnknownCode pl
  | .errInvalidArgs pl | .errBusy pl => payloadFits p pl
  | .gpioDirResp pl => payloadFits p pl && (tableCode p.gpioDirRespCode).isNone
  | .decLit b _ => decide (decClass false b = .lit)
  | .decBadEsc b _ => decide (decClass true b = .badEsc)
  | .encByteLit b _ => decide (encClass b = .lit)
  | .decEnd _ | .decEsc _ | .decEscEnd _ | .decEscEsc _ | .encByteEnd _ | .encByteEsc _ => true
  | .reqBuild code _ => decide (Sys2Proof.categorize code ≠ .response)
  | .decFeed _ | .decSlice | .decReset | .encFeed _ | .encFinish | .encSlice | .encReset => true
  | .crc16 _ | .frameDecode _ | .frameEncode _ _ | .codeLookup _ | .codeEncode _ | .categorize _ => true
  | .argInit _ | .argU8 | .argU16 | .reqExec _ | .toFrame _ | .reset => true
  | .sRx | .sHunt | .sDecode | .sDispatch | .sRespond => true

end Sys2Proof
end

