-- ==== Sys2Proof/Safety.lean ====
section
/-! DEFINITION. What holds of a safe state, in the terms the claims use: the buffer and parser bounds that every
instruction keeps, and the pipeline's invariants between steps (R284). -/

namespace Sys2Proof.Machine

/-- The bounds of the buffers and of the parser (R21 to R25, R28), which every instruction keeps from every state. -/
structure BufferInv (s : State) : Prop where
  /-- `DEC.buf` is in canonical form. -/
  decWf : s.decBuf.wf
  /-- `ENC.buf` is in canonical form. -/
  encWf : s.encBuf.wf
  /-- `DEC.len <= DEC_CAP` (R22). -/
  decBound : s.decLen ≤ s.cfg.decCap
  /-- `ENC.len <= ENC_CAP` (R25). -/
  encBound : s.encLen ≤ s.cfg.encCap
  /-- Every byte below `DEC.len` has been written. -/
  decWritten : ∀ a, a < s.decLen → (s.decBuf.read a).isSome = true
  /-- Every byte below `ENC.len` has been written. -/
  encWritten : ∀ a, a < s.encLen → (s.encBuf.read a).isSome = true
  /-- `DEC.buf` has indices `0..DEC_CAP-1` only (R21). -/
  decInside : ∀ a, (s.decBuf.read a).isSome = true → a < s.cfg.decCap
  /-- `ENC.buf` has indices `0..ENC_CAP-1` only (R24). -/
  encInside : ∀ a, (s.encBuf.read a).isSome = true → a < s.cfg.encCap
  /-- `ARG.cur <= len(ARG.view)` (R28). -/
  argBound : ∀ a, s.arg = some a → a.cur ≤ a.view.length

/-- The most input bytes that can have been accepted for what the decoder holds: two for each appended byte, and
one for a pending escape (R40). -/
def rxAllowance (s : State) : Nat := 2 * s.decLen + (if s.decEsc then 1 else 0)

/-- The diagnostic bytes a response carries are within `ERR_MSG_MAX` (R261, R264). -/
def msgWithin (p : Params) : Response → Prop
  | .errGeneric msg => msg.length ≤ p.errMsgMax
  | .errInvalidArgs msg => msg.length ≤ p.errMsgMax
  | .good | .gpioValue _ _ | .gpioDirResp _ _ | .errCrc | .errUnknownCode | .errBusy | .ident _ => True

/-- The invariants of the pipeline between steps (R284, R40, R51, R265), in runs that the outside enters only through
`IN` and the external reset (R7, R340). -/
structure PipelineInv (s : State) : Prop where
  /-- Only external resets wait to be taken. -/
  onlyResets : ∀ i ∈ s.calls, i = .reset
  /-- The bounds of R284 item 5 and more. -/
  buffers : BufferInv s
  /-- R284 item 1. -/
  encEmpty : s.encLen = 0
  /-- R284 item 2. -/
  freshDecoder : s.phase = .idle ∨ s.phase = .hunt → s.decLen = 0 ∧ s.decEsc = false ∧ s.rxCnt = 0
  /-- In `ACCUM` something has been accepted (R26, R274). -/
  accumStarted : s.phase = .accum → 0 < s.decLen ∨ s.decEsc = true
  /-- A completed frame has no escape pending (R103). -/
  completeClean : s.phase = .frameReady ∨ s.phase = .dispatching ∨ s.phase = .responding → s.decEsc = false
  /-- R284 item 3, first half. -/
  reqLive : s.req.isSome = true ↔ s.phase = .dispatching
  /-- R284 item 3, second half. -/
  rspLive : s.rsp.isSome = true ↔ s.phase = .responding
  /-- R284 item 4: the phases of `FRM`. -/
  frmLive : s.frm.isSome = true → s.phase = .dispatching ∨ s.phase = .responding
  /-- R284 item 4 and R51: `FRM` is what `FRAME_DECODE` gives for the current frame. -/
  frmCurrent : ∀ f, s.frm = some f →
    frameDecode s.cfg s.decBytes = .ok (f.code, f.payload)
  /-- The request was built from the current frame (R29). -/
  reqBuilt : ∀ r, s.req = some r →
    ∃ f a, s.frm = some f ∧ buildRequest f.code f.payload = some (a, .ok r)
  /-- `ARG` holds a value only inside S_DECODE (R28). -/
  argIdle : s.arg = none
  /-- The count of accepted bytes while a frame is received (R40). -/
  rxAccum : s.phase = .accum → s.rxCnt ≤ rxAllowance s
  /-- The count of accepted bytes once the END has been accepted (R40). -/
  rxComplete : s.rxCnt ≤ rxAllowance s + 1
  /-- R284 item 5: the bound of `RX.cnt`. -/
  rxBound : s.rxCnt ≤ 2 * s.cfg.decCap + 1
  /-- ErrBusy is never chosen (R265). -/
  neverBusy : s.rsp ≠ some .errBusy
  /-- Diagnostics are within `ERR_MSG_MAX` (R8). -/
  msgBounded : ∀ r, s.rsp = some r → msgWithin s.cfg r

/-- The provider call a request stands for (R228 to R231); a generic request stands for none (R224 to R227, R240). -/
def requestCall : Request → Option GpioCall
  | .ping | .itfType | .version | .idGet => none
  | .gpioDirSet pin dir => some (.setDirection pin dir)
  | .gpioDirGet pin => some (.getDirection pin)
  | .gpioWrite pin value => some (.setValue pin value)
  | .gpioRead pin => some (.getValue pin)

/-! ## What an observer counts in the history (R287) -/

/-- The byte sequences written to `OUT`, oldest first. -/
def outWrites (events : List Event) : List (List Byte) :=
  events.filterMap fun
    | .out bytes => some bytes
    | .inByte _ | .gpio _ _ | .err _ => none

/-- The provider calls with their answers, oldest first. -/
def gpioCalls (events : List Event) : List (GpioCall × GpioAnswer) :=
  events.filterMap fun
    | .gpio call answer => some (call, answer)
    | .inByte _ | .out _ | .err _ => none

/-- The errors recorded, oldest first. -/
def errWrites (events : List Event) : List Err :=
  events.filterMap fun
    | .err e => some e
    | .inByte _ | .out _ | .gpio _ _ => none

/-- The bytes accepted from `IN`, oldest first. -/
def inBytes (events : List Event) : List Byte :=
  events.filterMap fun
    | .inByte b => some b
    | .out _ | .gpio _ _ | .err _ => none

/-- A result of DEC_FEED with its offsets moved by `k` bytes (R112). -/
def shiftFeed (k : Nat) : Result → Result
  | .feed n done => .feed (k + n) done
  | .raised (.badEsc pos) => .raised (.badEsc (k + pos))
  | .raised (.bufferFullDec pos) => .raised (.bufferFullDec (k + pos))
  | r => r

/-- The bytes a response is sent as: its frame, escaped, and one END (R139, R279). -/
def wireBytes (p : Params) (code : Code) (payload : List Byte) : List Byte :=
  slipEnc (frameEncode p code payload) ++ [slipEnd]

end Sys2Proof.Machine
end

