-- ==== Sys2Proof/Certificates/Slice0/Obligations.lean ====
section
/-! DEFINITION. The statements for the provers. Each docstring names the rule of spec/ it formalises. -/

open Sys2Proof Sys2Proof.Machine

/-! ## Reset, parameters, the buffers -/

/-- R38: every state element at its reset value; the unspecified buffer contents are unobservable, because both
slices are empty. -/
def Obligations.ResetLeavesTheResetValues : Prop :=
  State.reset.decLen = 0 ∧ State.reset.decEsc = false ∧ State.reset.encLen = 0
    ∧ State.reset.phase = .idle ∧ State.reset.rxCnt = 0
    ∧ State.reset.frm = none ∧ State.reset.arg = none ∧ State.reset.req = none
    ∧ State.reset.rsp = none ∧ State.reset.err = none
    ∧ State.reset.decBytes = [] ∧ State.reset.encBytes = []

/-- R284 holds at reset. -/
def Obligations.ResetMeetsPipelineInv : Prop := PipelineInv State.reset

/-- R340: RESET writes every state element to its reset value and leaves the buffers' contents and the parameters. The
model's: the history is kept (log entry 16), so are the waiting calls (log entry 10), and what IN offers afterwards is
free (log entry 15). -/
def Obligations.ResetClearsEveryStateElement : Prop :=
  ∀ s : State,
    ∃ t, exec .reset s = .next t
      ∧ t.decLen = 0 ∧ t.decEsc = false ∧ t.encLen = 0 ∧ t.phase = .idle ∧ t.rxCnt = 0
      ∧ t.frm = none ∧ t.arg = none ∧ t.req = none ∧ t.rsp = none ∧ t.err = none
      ∧ t.decBuf = s.decBuf ∧ t.encBuf = s.encBuf
      ∧ t.cfg = s.cfg ∧ t.events = s.events ∧ t.calls = s.calls

/-- R325, R343 item 1: a machine of parameters that break a constraint is refused before its first reset, any other is
made, right after reset; and every state has parameters within the constraints, so no step runs on others. That a
state carries this is the model's form of the refusal (log entry 4); `DIAG` is listed reason by reason (log entry 2). -/
def Obligations.BadInstanceRefusedAtReset : Prop :=
  let within := fun p : Params =>
    p.gpioDirRespCode ∉ [0x0000#16, 0x0001#16, 0x0002#16, 0x0003#16, 0x0100#16, 0x0101#16, 0x0102#16, 0x0103#16]
      ∧ (∀ entry ∈ p.diag, entry.2.length ≤ p.errMsgMax)
      ∧ (∀ pin ∈ p.validPins, pin < 256)
  (∀ p : Params,
    (within p → ∃ h, powerOn p = .next { State.reset with cfg := p, cfgOk := h })
    ∧ (¬ within p → powerOn p = .refused .badInstance))
  ∧ ∀ s : State, within s.cfg ∧ ∀ e, (s.cfg.diagOf e).length ≤ s.cfg.errMsgMax

/-- R34: no instruction writes a parameter (the parameters are a field of State, log entry 1). -/
def Obligations.NoInstructionWritesParameters : Prop :=
  ∀ (i : Instr) (s t : State), exec i s = .next t → t.cfg = s.cfg

/-- The buffers read back what was written, at the written indices and nowhere else, and stay in canonical form; what an
index holds that was never written is a free value (I1; log entry 5). -/
def Obligations.BufferReadsBackWhatWasWritten : Prop :=
  ∀ (m : Memory) (space : Space) (a b : Nat) (v : Byte) (bytes : List Byte),
    (m.write a v).read b = (if b = a then some v else m.read b)
    ∧ (m.writeN a bytes).read b =
        (if a ≤ b ∧ b < a + bytes.length then bytes[b - a]? else m.read b)
    ∧ (m.write a v).byteAt space b = (if b = a then v else m.byteAt space b)
    ∧ (m.writeN a bytes).readN space a bytes.length = bytes
    ∧ (m.wf → (m.write a v).wf ∧ (m.writeN a bytes).wf)

/-- R21 to R25, R28: every instruction, from every state within the bounds, keeps them. -/
def Obligations.EveryInstructionKeepsBufferInv : Prop :=
  ∀ (i : Instr) (s t : State), BufferInv s → exec i s = .next t → BufferInv t

/-! ## The step -/

/-- What a step runs: the oldest waiting call, else the pipeline step of the phase (R271; the queue of calls is the
model's, log entry 10). -/
def Obligations.StepRunsNextInstruction : Prop :=
  ∀ s : State,
    (∀ i rest, s.calls = i :: rest → step s = exec i { s with calls := rest })
    ∧ (s.calls = [] → s.phase = .idle ∨ s.phase = .accum → step s = exec .sRx s)
    ∧ (s.calls = [] → s.phase = .hunt → step s = exec .sHunt s)
    ∧ (s.calls = [] → s.phase = .frameReady → step s = exec .sDecode s)
    ∧ (s.calls = [] → s.phase = .dispatching → step s = exec .sDispatch s)
    ∧ (s.calls = [] → s.phase = .responding → step s = exec .sRespond s)

/-- When the bytes of the completed frame, which lie within the buffer, decode to an instruction, the step runs it; and
while the frame is in flight the step runs its frame code: in DISPATCHING the code of the request, in RESPONDING the code
the response is sent as. Nothing else is added around it. The model's: a frame code acts by phase (log entry 17), and in
DISPATCHING its payload is compared with nothing (log entry 34). -/
def Obligations.StepRunsDecodedFrame : Prop :=
  ∀ s : State, s.calls = [] →
    (∀ i, s.phase = .frameReady → s.decLen ≤ s.cfg.decCap →
      decodeFrame s.cfg s.decBytes = .ok i → step s = exec i s)
    ∧ (∀ r payload, s.phase = .dispatching → s.req = some r →
      step s = exec (frameInstr (requestCode r) payload) s)
    ∧ (∀ r, s.phase = .responding → s.rsp = some r →
      step s = exec (frameInstr (responseFrame s.cfg r).1 (responseFrame s.cfg r).2) s)

/-- Where no rule gives a next state, the model stops by name. R271: in each phase the pipeline steps of the other
phases are not enabled, and neither is a frame code in a phase that receives bytes, another code than the request's in
DISPATCHING, or another code or payload than the response's in RESPONDING (log entries 17, 18). R37: a register that
holds no value is not read. R50: a slice does not read past the capacity, where R22 and R25 let no cursor stand. -/
def Obligations.StopsWhereNoRuleApplies : Prop :=
  ∀ s : State,
    (s.phase ≠ .idle → s.phase ≠ .accum → exec .sRx s = .fault (.notEnabled s.phase))
    ∧ (s.phase ≠ .hunt → exec .sHunt s = .fault (.notEnabled s.phase))
    ∧ (s.phase ≠ .frameReady → exec .sDecode s = .fault (.notEnabled s.phase))
    ∧ (s.phase ≠ .dispatching → exec .sDispatch s = .fault (.notEnabled s.phase))
    ∧ (s.phase ≠ .responding → exec .sRespond s = .fault (.notEnabled s.phase))
    ∧ (s.phase = .idle ∨ s.phase = .accum ∨ s.phase = .hunt →
        ∀ code payload, exec (frameInstr code payload) s = .fault (.notEnabled s.phase))
    ∧ (∀ r code payload, s.phase = .dispatching → s.req = some r → requestCode r ≠ code →
        exec (frameInstr code payload) s = .fault (.notEnabled .dispatching))
    ∧ (∀ r code payload, s.phase = .responding → s.rsp = some r → responseFrame s.cfg r ≠ (code, payload) →
        exec (frameInstr code payload) s = .fault (.notEnabled .responding))
    ∧ (s.phase = .dispatching → s.req = none → exec .sDispatch s = .fault (.noValue .req)
        ∧ ∀ code payload, exec (frameInstr code payload) s = .fault (.noValue .req))
    ∧ (s.phase = .responding → s.rsp = none → exec .sRespond s = .fault (.noValue .rsp)
        ∧ ∀ code payload, exec (frameInstr code payload) s = .fault (.noValue .rsp))
    ∧ (s.arg = none → exec .argU8 s = .fault (.noValue .arg) ∧ exec .argU16 s = .fault (.noValue .arg))
    ∧ (s.cfg.decCap < s.decLen → exec .decSlice s = .fault (.outsideBuffer .dec)
        ∧ (s.phase = .frameReady → exec .sDecode s = .fault (.outsideBuffer .dec)))
    ∧ (s.cfg.encCap < s.encLen → exec .encSlice s = .fault (.outsideBuffer .enc))

/-! ## Encoding -/

/-- Decoding the bits of a well-formed instruction gives it back, with every operand (the position operand of a
byte class is not in its bits). -/
def Obligations.DecodeOfEncodeIsInstruction : Prop :=
  ∀ (p : Params) (i : Instr) (w : Encoding),
    i.wf p = true → encode p i = some w → decode p (posOf i) w = .ok i

/-- A few words of the spec: R224's and R231's frames, and a byte of each class of R72 and R73. -/
def Obligations.SpecWordsDecode : Prop :=
  ∀ p : Params, 2 ≤ p.payloadCap →
    decodeFrame p [0x00#8, 0x00#8, 0x1D#8, 0x0F#8] = .ok (.ping [])
    ∧ decodeFrame p [0x01#8, 0x03#8, 0x05#8, 0x01#8, 0x44#8, 0xF0#8] = .ok (.gpioWrite [0x05#8, 0x01#8])
    ∧ decodeFrame p [0xFF#8, 0xFF#8, 0x00#8, 0x00#8] = .ok (.good [])
    ∧ decode p 7 (.decByte 0x0C0#9) = .ok (.decEnd 7)
    ∧ decode p 7 (.decByte 0x0DB#9) = .ok (.decEsc 7)
    ∧ decode p 7 (.decByte 0x005#9) = .ok (.decLit 0x05#8 7)
    ∧ decode p 7 (.decByte 0x1DC#9) = .ok (.decEscEnd 7)
    ∧ decode p 7 (.decByte 0x1DD#9) = .ok (.decEscEsc 7)
    ∧ decode p 7 (.decByte 0x141#9) = .ok (.decBadEsc 0x41#8 7)
    ∧ decode p 7 (.encByte 0xC0#8) = .ok (.encByteEnd 7)
    ∧ decode p 7 (.encByte 0xDB#8) = .ok (.encByteEsc 7)
    ∧ decode p 7 (.encByte 0xDC#8) = .ok (.encByteLit 0xDC#8 7)

/-! ## SLIP decoder -/

/-- R101: DEC_LIT appends the byte or raises BufferFull; 0xDC and 0xDD are literals outside an escape. The model's: it
runs whatever DEC.esc and the byte are (log entry 27), is full wherever DEC.len is not below the capacity (log entry 6),
and a raise to a direct caller writes ERR and its event (R31; log entry 11). -/
def Obligations.DecLitAppends : Prop :=
  ∀ (b : Byte) (pos : Nat) (s : State),
    (b ≠ 0xC0#8 → b ≠ 0xDB#8 → decByteInstr false b pos = .decLit b pos)
    ∧ (s.decLen < s.cfg.decCap →
        exec (.decLit b pos) s = .next { s with
          decBuf := s.decBuf.write s.decLen b, decLen := s.decLen + 1, ret := .step .continues })
    ∧ (s.cfg.decCap ≤ s.decLen →
        exec (.decLit b pos) s = .next { s with
          err := some (.bufferFullDec pos), events := s.events ++ [.err (.bufferFullDec pos)],
          ret := .raised (.bufferFullDec pos) })

/-- R102, R103, R106: DEC_ESC sets the flag and raises nothing, at any fill; DEC_END completes and writes no state;
DEC_BADESC clears the flag and raises BadEsc at its byte, which may be END or ESC, and the buffer stays. The model's:
each runs whatever DEC.esc is, and DEC_BADESC whatever its byte is (log entry 27), and a raise to a direct caller writes
ERR and its event (R31; log entry 11). -/
def Obligations.DecFlagBytesWriteNoBuffer : Prop :=
  ∀ (b : Byte) (pos : Nat) (s : State),
    decByteInstr false 0xDB#8 pos = .decEsc pos
    ∧ exec (.decEsc pos) s = .next { s with decEsc := true, ret := .step .continues }
    ∧ decByteInstr false 0xC0#8 pos = .decEnd pos
    ∧ exec (.decEnd pos) s = .next { s with ret := .step .completes }
    ∧ (b ≠ 0xDC#8 → b ≠ 0xDD#8 → decByteInstr true b pos = .decBadEsc b pos)
    ∧ exec (.decBadEsc b pos) s = .next { s with
        decEsc := false, err := some (.badEsc pos), events := s.events ++ [.err (.badEsc pos)],
        ret := .raised (.badEsc pos) }

/-- R104 and R105: the flag is cleared first, even if the append fails; the byte appended is 0xC0 or 0xDB. The model's:
both run whatever DEC.esc is (log entry 27), are full wherever DEC.len is not below the capacity (log entry 6), and a
raise to a direct caller writes ERR and its event (R31; log entry 11). -/
def Obligations.DecEscapedBytesAppend : Prop :=
  ∀ (pos : Nat) (s : State),
    decByteInstr true 0xDC#8 pos = .decEscEnd pos
    ∧ decByteInstr true 0xDD#8 pos = .decEscEsc pos
    ∧ (s.decLen < s.cfg.decCap →
        exec (.decEscEnd pos) s = .next { s with
          decEsc := false, decBuf := s.decBuf.write s.decLen 0xC0#8, decLen := s.decLen + 1,
          ret := .step .continues }
        ∧ exec (.decEscEsc pos) s = .next { s with
          decEsc := false, decBuf := s.decBuf.write s.decLen 0xDB#8, decLen := s.decLen + 1,
          ret := .step .continues })
    ∧ (s.cfg.decCap ≤ s.decLen →
        exec (.decEscEnd pos) s = .next { s with
          decEsc := false, err := some (.bufferFullDec pos),
          events := s.events ++ [.err (.bufferFullDec pos)], ret := .raised (.bufferFullDec pos) }
        ∧ exec (.decEscEsc pos) s = .next { s with
          decEsc := false, err := some (.bufferFullDec pos),
          events := s.events ++ [.err (.bufferFullDec pos)], ret := .raised (.bufferFullDec pos) })

/-- R108, R352: DEC_FEED runs the byte operations in order, each at its index in the chunk; after the first Complete
or error nothing further of the chunk is examined; it writes the decoder, of the buffer only the indices its cursor
passes, ERR with its event, and its result. That an error given to a direct caller also writes ERR and its event is R31
as the model reads it (log entry 11). -/
def Obligations.FeedRunsByteByByte : Prop :=
  ∀ (chunk : List Byte) (s : State),
    exec (.decFeed []) s = .next { s with ret := .feed 0 false }
    ∧ ∃ t, exec (.decFeed chunk) s = .next t
      ∧ t = { s with decBuf := t.decBuf, decLen := t.decLen, decEsc := t.decEsc, err := t.err,
                     events := t.events, ret := t.ret }
      ∧ s.decLen ≤ t.decLen
      ∧ (∀ a, a < s.decLen ∨ t.decLen ≤ a → t.decBuf.read a = s.decBuf.read a)
      ∧ (t.ret = .feed chunk.length false → ∀ b,
          exec (.decFeed (chunk ++ [b])) s = .next (match decStep b chunk.length t with
            | (u, .ok .continues) => { u with ret := .feed (chunk.length + 1) false }
            | (u, .ok .completes) => { u with ret := .feed (chunk.length + 1) true }
            | (u, .error e) => { u with err := some e, events := u.events ++ [.err e], ret := .raised e }))
      ∧ (t.ret ≠ .feed chunk.length false → ∀ more, exec (.decFeed (chunk ++ more)) s = .next t)

/-- R107, which the spec derives from R101 to R106: the byte step is the operation of the byte's class, on every
state. That a raise to a direct caller writes ERR and its event is R31 as the model reads it (log entry 11). -/
def Obligations.DecStepRunsItsClass : Prop :=
  ∀ (b : Byte) (pos : Nat) (s : State),
    exec (decByteInstr s.decEsc b pos) s = .next (match decStep b pos s with
      | (t, .ok r) => { t with ret := .step r }
      | (t, .error e) => { t with err := some e, events := t.events ++ [.err e], ret := .raised e })
    ∧ decStep b pos s =
      (if s.decEsc = true then
        if b = 0xDC#8 then decAppend 0xC0#8 pos { s with decEsc := false }
        else if b = 0xDD#8 then decAppend 0xDB#8 pos { s with decEsc := false }
        else ({ s with decEsc := false }, .error (.badEsc pos))
      else
        if b = 0xC0#8 then (s, .ok .completes)
        else if b = 0xDB#8 then ({ s with decEsc := true }, .ok .continues)
        else decAppend b pos s)

/-- R112, which the spec derives from R108: feeding two chunks one after the other leaves the decoder as feeding them
at once does, with the same outcome, its offsets shifted. -/
def Obligations.FeedChunkingIsIrrelevant : Prop :=
  ∀ (c1 c2 : List Byte) (s t : State),
    exec (.decFeed c1) s = .next t → t.ret = .feed c1.length false →
    ∃ u v, exec (.decFeed c2) t = .next u ∧ exec (.decFeed (c1 ++ c2)) s = .next v
      ∧ v.decBuf = u.decBuf ∧ v.decLen = u.decLen ∧ v.decEsc = u.decEsc
      ∧ v.ret = shiftFeed c1.length u.ret

/-- R113, which the spec derives from R101 to R105 and R131 to R133: feeding the escaped form of any bytes within
capacity and an END to a reset decoder completes a frame whose slice is those bytes. -/
def Obligations.SlipDecodesWhatItEncodes : Prop :=
  ∀ (p : List Byte) (s : State),
    p.length ≤ s.cfg.decCap → s.decLen = 0 → s.decEsc = false →
    ∃ t, exec (.decFeed (slipEnc p ++ [0xC0#8])) s = .next t
      ∧ t.ret = .feed ((slipEnc p).length + 1) true
      ∧ exec .decSlice t = .next { t with ret := .bytes p }

/-- R109, R136: the slices give the bytes below the cursor, one at each index, and write no state. An index that was
written holds the byte last written; any other, which the invariant rules out below a cursor, holds any value (I1; log
entry 5). -/
def Obligations.SlicesReadBelowCursor : Prop :=
  ∀ s : State,
    (s.decLen ≤ s.cfg.decCap →
      ∃ bs, exec .decSlice s = .next { s with ret := .bytes bs } ∧ bs.length = s.decLen
        ∧ ∀ k b, k < s.decLen → s.decBuf.read k = some b → bs[k]? = some b)
    ∧ (s.encLen ≤ s.cfg.encCap →
      ∃ bs, exec .encSlice s = .next { s with ret := .bytes bs } ∧ bs.length = s.encLen
        ∧ ∀ k b, k < s.encLen → s.encBuf.read k = some b → bs[k]? = some b)

/-- R110, R137: the codec resets. DEC_RESET also ends the payload view, FRM and the parse over it, which is then not
read (R27, R37, R64, R347). The model's: FRM ends with every DEC_RESET (log entry 30), and ARG does whatever bytes a
direct caller gave it (log entry 33). -/
def Obligations.CodecResetsClearCursors : Prop :=
  ∀ s : State,
    let t : State := { s with decLen := 0, decEsc := false, frm := none, arg := none, ret := .unit }
    exec .decReset s = .next t
    ∧ exec .argU8 t = .fault (.noValue .arg) ∧ exec .argU16 t = .fault (.noValue .arg)
    ∧ exec .encReset s = .next { s with encLen := 0, ret := .unit }

/-! ## SLIP encoder -/

/-- R130 to R133: each byte operation appends its whole unit, or raises BufferFull and writes no byte and no cursor. The
model's: ENC_BYTE_LIT appends whatever byte it is called with (log entry 35), and a raise to a direct caller writes ERR
and its event (R31; log entry 11). -/
def Obligations.EncByteUnitsAppendWhole : Prop :=
  ∀ (b : Byte) (pos : Nat) (s : State),
    encByteInstr 0xC0#8 pos = .encByteEnd pos
    ∧ encByteInstr 0xDB#8 pos = .encByteEsc pos
    ∧ (b ≠ 0xC0#8 → b ≠ 0xDB#8 → encByteInstr b pos = .encByteLit b pos)
    ∧ (s.encLen + 2 ≤ s.cfg.encCap →
        exec (.encByteEnd pos) s = .next { s with
          encBuf := (s.encBuf.write s.encLen 0xDB#8).write (s.encLen + 1) 0xDC#8,
          encLen := s.encLen + 2, ret := .unit }
        ∧ exec (.encByteEsc pos) s = .next { s with
          encBuf := (s.encBuf.write s.encLen 0xDB#8).write (s.encLen + 1) 0xDD#8,
          encLen := s.encLen + 2, ret := .unit })
    ∧ (s.encLen + 1 ≤ s.cfg.encCap →
        exec (.encByteLit b pos) s = .next { s with
          encBuf := s.encBuf.write s.encLen b, encLen := s.encLen + 1, ret := .unit })
    ∧ (s.cfg.encCap < s.encLen + 2 →
        exec (.encByteEnd pos) s = .next { s with
          err := some (.bufferFullEnc (some pos)), events := s.events ++ [.err (.bufferFullEnc (some pos))],
          ret := .raised (.bufferFullEnc (some pos)) }
        ∧ exec (.encByteEsc pos) s = .next { s with
          err := some (.bufferFullEnc (some pos)), events := s.events ++ [.err (.bufferFullEnc (some pos))],
          ret := .raised (.bufferFullEnc (some pos)) })
    ∧ (s.cfg.encCap < s.encLen + 1 →
        exec (.encByteLit b pos) s = .next { s with
          err := some (.bufferFullEnc (some pos)), events := s.events ++ [.err (.bufferFullEnc (some pos))],
          ret := .raised (.bufferFullEnc (some pos)) })

/-- R134: ENC_FEED appends the units of its bytes in order; at the first unit that does not fit it raises BufferFull
with that byte's position, and the units before it stay. R135: ENC_FINISH appends one END, or raises BufferFull
without a position. That a raise to a direct caller also writes ERR and its event is R31 as the model reads it (log
entry 11). -/
def Obligations.EncFeedAndFinishAppend : Prop :=
  ∀ (bytes : List Byte) (s : State),
    (s.encLen < s.cfg.encCap →
      exec .encFinish s = .next { s with
        encBuf := s.encBuf.write s.encLen 0xC0#8, encLen := s.encLen + 1, ret := .unit })
    ∧ (s.cfg.encCap ≤ s.encLen →
      exec .encFinish s = .next { s with
        err := some (.bufferFullEnc none), events := s.events ++ [.err (.bufferFullEnc none)],
        ret := .raised (.bufferFullEnc none) })
    ∧ (s.encLen + (slipEnc bytes).length ≤ s.cfg.encCap →
      exec (.encFeed bytes) s = .next { s with
        encBuf := s.encBuf.writeN s.encLen (slipEnc bytes),
        encLen := s.encLen + (slipEnc bytes).length, ret := .unit })
    ∧ (∀ pre b post, bytes = pre ++ b :: post →
        s.encLen + (slipEnc pre).length ≤ s.cfg.encCap →
        s.cfg.encCap < s.encLen + (slipEnc pre).length + (encUnit b).length →
        exec (.encFeed bytes) s = .next { s with
          encBuf := s.encBuf.writeN s.encLen (slipEnc pre),
          encLen := s.encLen + (slipEnc pre).length,
          err := some (.bufferFullEnc (some pre.length)),
          events := s.events ++ [.err (.bufferFullEnc (some pre.length))],
          ret := .raised (.bufferFullEnc (some pre.length)) })

/-- R140, which the spec derives from R131 to R135: the encoded length, and its maximum, which bytes that all need
escaping reach. -/
def Obligations.SlipLengthFormula : Prop :=
  ∀ p : List Byte,
    (slipEnc p).length + 1 = p.length + p.count 0xC0#8 + p.count 0xDB#8 + 1
    ∧ (slipEnc p).length + 1 ≤ 2 * p.length + 1
    ∧ ∀ n, (slipEnc (List.replicate n 0xC0#8)).length + 1 = 2 * n + 1

/-! ## Frame codec -/

/-- R150: CRC16 returns the value of the bit-serial definition and writes no state (its parameters: log entry 22). -/
def Obligations.Crc16IsBitSerial : Prop :=
  (∀ (m : List Byte) (s : State), exec (.crc16 m) s = .next { s with ret := .word (crc16 m) })
  ∧ crc16 [] = 0xFFFF#16
  ∧ ∀ (m : List Byte) (b : Byte), crc16 (m ++ [b]) =
      (List.range 8).foldl
        (fun (c : Word) _ => if c.getLsbD 15 = true then (c <<< 1) ^^^ 0x1021#16 else c <<< 1)
        (crc16 m ^^^ (b.setWidth 16 <<< 8))

/-- R151 item 2, which the spec derives from R150: a message followed by its own CRC, big-endian, has residue 0. -/
def Obligations.CrcResidueIsZero : Prop :=
  ∀ m : List Byte, crc16 (m ++ [hiByte (crc16 m), loByte (crc16 m)]) = 0x0000#16

/-- R152 to R156: FRAME_DECODE checks the length, the CRC, the code and the payload capacity in this order, and
writes nothing but its result, or ERR with its event: that a raise to a direct caller writes them is R31 as the model
reads it (log entry 11). -/
def Obligations.FrameDecodeChecksInOrder : Prop :=
  ∀ (S : List Byte) (s : State),
    let n := S.length
    let raise := fun e : Err => Host.Outcome.next (φ := Fault) (ρ := Refusal)
      { s with err := some e, events := s.events ++ [.err e], ret := .raised e }
    (n < 4 → exec (.frameDecode S) s = raise (.invalidLength n))
    ∧ (∀ h l payload ch cl, S = h :: l :: (payload ++ [ch, cl]) →
        (crc16 (h :: l :: payload) ≠ be16 ch cl →
          exec (.frameDecode S) s = raise (.invalidCrc (crc16 (h :: l :: payload)) (be16 ch cl)))
        ∧ (crc16 (h :: l :: payload) = be16 ch cl → codeLookup s.cfg (be16 h l) = none →
          exec (.frameDecode S) s = raise (.unknownCode (be16 h l)))
        ∧ (∀ code, crc16 (h :: l :: payload) = be16 ch cl → codeLookup s.cfg (be16 h l) = some code →
          (s.cfg.payloadCap < payload.length → exec (.frameDecode S) s = raise (.invalidLength n))
          ∧ (payload.length ≤ s.cfg.payloadCap →
            exec (.frameDecode S) s = .next { s with ret := .frame code payload })))

/-- R157: FRAME_ENCODE returns the big-endian code, the payload and the big-endian CRC over both. -/
def Obligations.FrameEncodeLayout : Prop :=
  ∀ (code : Code) (payload : List Byte) (s : State),
    let m := hiByte (codeEncode s.cfg code) :: loByte (codeEncode s.cfg code) :: payload
    exec (.frameEncode code payload) s =
        .next { s with ret := .bytes (m ++ [hiByte (crc16 m), loByte (crc16 m)]) }
    ∧ ∀ w : Word, be16 (hiByte w) (loByte w) = w ∧ (be16 (hiByte w) (loByte w)).toNat =
        (hiByte w).toNat * 256 + (loByte w).toNat

/-- R158, which the spec derives from R152, R157 and R183: for every code of the table and every payload within
capacity, decoding the encoded frame gives both back. -/
def Obligations.FrameRoundTrip : Prop :=
  ∀ (code : Code) (payload : List Byte) (s : State),
    (code = .gpioDirResp → tableCode s.cfg.gpioDirRespCode = none) →
    payload.length ≤ s.cfg.payloadCap →
    exec (.frameDecode (frameEncode s.cfg code payload)) s = .next { s with ret := .frame code payload }

/-- R159, which the spec derives from R151 and R152: a valid frame with any single bit flipped is InvalidCRC. -/
def Obligations.SingleBitFlipIsInvalidCrc : Prop :=
  ∀ (p : Params) (S : List Byte) (code : Code) (payload : List Byte) (i j : Nat) (b : Byte),
    frameDecode p S = .ok (code, payload) → S[i]? = some b → j < 8 →
    ∃ computed received,
      frameDecode p (S.set i (b ^^^ (1#8 <<< j))) = .error (.invalidCrc computed received)

/-! ## Code registry -/

/-- R80, R180, R181: CODE_LOOKUP gives the table's code of its wire value, else GpioDirResp for GPIO_DIR_RESP_CODE,
else None; CODE_ENCODE gives the table's wire value, and GPIO_DIR_RESP_CODE for GpioDirResp. -/
def Obligations.RegistryFollowsTable : Prop :=
  ∀ (c16 : Word) (s : State),
    let table : List (Word × Code) :=
      [(0x0000#16, .ping), (0x0001#16, .itfType), (0x0002#16, .version), (0x0003#16, .idGet),
       (0x0100#16, .gpioDirSet), (0x0101#16, .gpioDirGet), (0x0102#16, .gpioRead),
       (0x0103#16, .gpioWrite), (0xFEFF#16, .gpioValue), (0xFFFF#16, .good), (0xFFFE#16, .errGeneric),
       (0xFFFD#16, .errCrc), (0xFFFC#16, .errUnknownCode), (0xFFFB#16, .errInvalidArgs),
       (0xFFFA#16, .errBusy)]
    (∀ code, (c16, code) ∈ table →
      exec (.codeLookup c16) s = .next { s with ret := .code (some code) })
    ∧ ((∀ code, (c16, code) ∉ table) →
      exec (.codeLookup c16) s =
        .next { s with ret := .code (if c16 = s.cfg.gpioDirRespCode then some .gpioDirResp else none) })
    ∧ (∀ code, (c16, code) ∈ table → exec (.codeEncode code) s = .next { s with ret := .word c16 })
    ∧ exec (.codeEncode .gpioDirResp) s = .next { s with ret := .word s.cfg.gpioDirRespCode }

/-- R81, R182: CATEGORIZE by the table's category column; for the 15 codes this is the ranges of R81. -/
def Obligations.CategoriesAreTheRanges : Prop :=
  ∀ (code : Code) (s : State),
    (code = .gpioDirResp → exec (.categorize code) s = .next { s with ret := .category .response })
    ∧ (code ≠ .gpioDirResp →
      let w := codeEncode s.cfg code
      exec (.categorize code) s = .next { s with ret := .category (
        if w ≤ 0x0003#16 then .genericRequest
        else if 0x0100#16 ≤ w ∧ w ≤ 0x0103#16 then .gpioRequest
        else .response) }
      ∧ (w ≤ 0x0003#16 ∨ 0x0100#16 ≤ w ∧ w ≤ 0x0103#16 ∨ w = 0xFEFF#16 ∨ 0xFFFA#16 ≤ w))

/-- R183, which the spec derives from R180 and R181: the registry is a bijection where GPIO_DIR_RESP_CODE differs from
the 15 codes; where it is one of the Response codes, CODE_LOOKUP gives the table's name. -/
def Obligations.RegistryIsBijective : Prop :=
  ∀ p : Params,
    (tableCode p.gpioDirRespCode = none →
      (∀ code, codeLookup p (codeEncode p code) = some code)
      ∧ (∀ c16 code, codeLookup p c16 = some code → codeEncode p code = c16))
    ∧ (∀ code, code ≠ .gpioDirResp → codeLookup p (codeEncode p code) = some code)
    ∧ (∀ code, tableCode p.gpioDirRespCode = some code →
        codeLookup p (codeEncode p .gpioDirResp) = some code)

/-! ## Argument parser -/

/-- R200, R201, R202: ARG_INIT starts a parse at the payload's first byte; the parser reads the next one or two
bytes, big-endian, and advances past them; with too few left it gives None and does not move. -/
def Obligations.ArgReadsAdvanceOrStay : Prop :=
  ∀ (s : State) (done : List Byte) (h l : Byte) (rest : List Byte),
    exec (.argInit rest) s = .next { s with arg := some { view := rest, cur := 0 }, ret := .unit }
    ∧ (s.arg = some { view := done ++ h :: rest, cur := done.length } →
      exec .argU8 s = .next { s with
        arg := some { view := done ++ h :: rest, cur := done.length + 1 }, ret := .u8 (some h) })
    ∧ (s.arg = some { view := done, cur := done.length } →
      exec .argU8 s = .next { s with ret := .u8 none })
    ∧ (s.arg = some { view := done ++ h :: l :: rest, cur := done.length } →
      exec .argU16 s = .next { s with
        arg := some { view := done ++ h :: l :: rest, cur := done.length + 2 },
        ret := .u16 (some (be16 h l)) })
    ∧ (s.arg = some { view := done ++ [h], cur := done.length } →
      exec .argU16 s = .next { s with ret := .u16 none })
    ∧ (s.arg = some { view := done, cur := done.length } →
      exec .argU16 s = .next { s with ret := .u16 none })

/-! ## Dispatcher -/

/-- R220, R203, R205, R88: REQ_BUILD. The generic requests consume no field and ignore the payload; the GPIO requests
give a missing field, a value outside its enumeration, or the request, and ignore bytes after the last field. The
parser has then moved past the fields read, and is discarded (R28). The model's: it is discarded after a raise too (log
entry 8), a raise to a direct caller writes ERR and its event (R31; log entry 11), and for a code that is no request, for
which R220 states no result, the result is a free value (log entry 19). -/
def Obligations.ReqBuildTakesFields : Prop :=
  ∀ (pin v : Byte) (rest : List Byte) (s : State),
    let raises := fun (code : Code) (payload : List Byte) (cur : Nat) (cause : ArgCause) =>
      buildRequest code payload = some ({ view := payload, cur := cur }, .error (.invalidArg code cause))
      ∧ exec (.reqBuild code payload) s = .next { s with
          arg := none, err := some (.invalidArg code cause),
          events := s.events ++ [.err (.invalidArg code cause)], ret := .raised (.invalidArg code cause) }
    let builds := fun (code : Code) (payload : List Byte) (cur : Nat) (r : Request) =>
      buildRequest code payload = some ({ view := payload, cur := cur }, .ok r)
      ∧ exec (.reqBuild code payload) s = .next { s with arg := none, ret := .request r }
    builds .ping rest 0 .ping ∧ builds .itfType rest 0 .itfType
    ∧ builds .version rest 0 .version ∧ builds .idGet rest 0 .idGet
    ∧ (∀ code, categorize code = .gpioRequest → raises code [] 0 .missing)
    ∧ (∀ code, code = .gpioDirSet ∨ code = .gpioWrite → raises code [pin] 1 .missing)
    ∧ builds .gpioDirGet (pin :: rest) 1 (.gpioDirGet pin)
    ∧ builds .gpioRead (pin :: rest) 1 (.gpioRead pin)
    ∧ (if v = 0#8 then builds .gpioDirSet (pin :: v :: rest) 2 (.gpioDirSet pin .pullDownInput)
        else if v = 1#8 then builds .gpioDirSet (pin :: v :: rest) 2 (.gpioDirSet pin .pullUpInput)
        else if v = 2#8 then builds .gpioDirSet (pin :: v :: rest) 2 (.gpioDirSet pin .output)
        else raises .gpioDirSet (pin :: v :: rest) 2 (.badDir v))
    ∧ (if v = 0#8 then builds .gpioWrite (pin :: v :: rest) 2 (.gpioWrite pin .low)
        else if v = 1#8 then builds .gpioWrite (pin :: v :: rest) 2 (.gpioWrite pin .high)
        else raises .gpioWrite (pin :: v :: rest) 2 (.badValue v))
    ∧ (∀ code, categorize code = .response →
        exec (.reqBuild code rest) s = .next (match Config.unstatedBuild s.draws code rest with
          | .ok r => { s with arg := none, draws := s.draws + 1, ret := .request r }
          | .error cause => { s with
              arg := none, draws := s.draws + 1,
              err := some (.invalidArg code cause), events := s.events ++ [.err (.invalidArg code cause)],
              ret := .raised (.invalidArg code cause) }))

/-- R242, R223, R240, R241: REQ_EXEC of a generic request makes no provider call, and of a GPIO request exactly one.
An invalid pin answers InvalidPin, folded to ErrInvalidArgs; a valid pin answers Ok or HwError, a free value of the
model at its own draw counter (log entry 12), and HwError folds to ErrGeneric. -/
def Obligations.ReqExecFoldsAnswer : Prop :=
  ∀ (pin : Byte) (dir : GpioDir) (value : GpioValue) (s : State),
    let after := fun (call : GpioCall) (answer : GpioAnswer) (r : Response) =>
      Host.Outcome.next (φ := Fault) (ρ := Refusal)
        { s with draws := s.draws + 1, events := s.events ++ [.gpio call answer], ret := .response r }
    exec (.reqExec .ping) s = .next { s with ret := .response .good }
    ∧ exec (.reqExec .itfType) s = .next { s with ret := .response (.ident .itfType) }
    ∧ exec (.reqExec .version) s = .next { s with ret := .response (.ident .version) }
    ∧ exec (.reqExec .idGet) s = .next { s with ret := .response (.ident .idGet) }
    ∧ (pin.toNat ∉ s.cfg.validPins →
      exec (.reqExec (.gpioDirSet pin dir)) s = after (.setDirection pin dir) .invalidPin
          (.errInvalidArgs (s.cfg.diagOf (.invalidPin .gpioDirSet pin)))
      ∧ exec (.reqExec (.gpioDirGet pin)) s = after (.getDirection pin) .invalidPin
          (.errInvalidArgs (s.cfg.diagOf (.invalidPin .gpioDirGet pin)))
      ∧ exec (.reqExec (.gpioWrite pin value)) s = after (.setValue pin value) .invalidPin
          (.errInvalidArgs (s.cfg.diagOf (.invalidPin .gpioWrite pin)))
      ∧ exec (.reqExec (.gpioRead pin)) s = after (.getValue pin) .invalidPin
          (.errInvalidArgs (s.cfg.diagOf (.invalidPin .gpioRead pin))))
    ∧ (pin.toNat ∈ s.cfg.validPins →
      exec (.reqExec (.gpioDirSet pin dir)) s =
        (match Config.drawUnit s.draws (.setDirection pin dir) with
        | some _ => after (.setDirection pin dir) .done .good
        | none => after (.setDirection pin dir) .hwError
            (.errGeneric (s.cfg.diagOf (.hwError .gpioDirSet pin))))
      ∧ exec (.reqExec (.gpioDirGet pin)) s =
        (match Config.drawDir s.draws (.getDirection pin) with
        | some d => after (.getDirection pin) (.dir d) (.gpioDirResp pin d)
        | none => after (.getDirection pin) .hwError
            (.errGeneric (s.cfg.diagOf (.hwError .gpioDirGet pin))))
      ∧ exec (.reqExec (.gpioWrite pin value)) s =
        (match Config.drawUnit s.draws (.setValue pin value) with
        | some _ => after (.setValue pin value) .done .good
        | none => after (.setValue pin value) .hwError
            (.errGeneric (s.cfg.diagOf (.hwError .gpioWrite pin))))
      ∧ exec (.reqExec (.gpioRead pin)) s =
        (match Config.drawValue s.draws (.getValue pin) with
        | some v => after (.getValue pin) (.value v) (.gpioValue pin v)
        | none => after (.getValue pin) .hwError
            (.errGeneric (s.cfg.diagOf (.hwError .gpioRead pin)))))

/-- R267, R258 to R266, R84: TO_FRAME's code and payload of every response variant that a rule builds (for ErrBusy
see NeverChoosesErrBusy). The model's: a message longer than ERR_MSG_MAX, which R261 and R264 exclude, is the payload
unchanged (log entry 36). -/
def Obligations.ToFrameLayouts : Prop :=
  ∀ (pin : Byte) (msg : List Byte) (s : State),
    let frame := fun (code : Code) (payload : List Byte) =>
      Host.Outcome.next (φ := Fault) (ρ := Refusal) { s with ret := .frame code payload }
    exec (.toFrame .good) s = frame .good []
    ∧ exec (.toFrame (.gpioValue pin .low)) s = frame .gpioValue [pin, 0#8]
    ∧ exec (.toFrame (.gpioValue pin .high)) s = frame .gpioValue [pin, 1#8]
    ∧ exec (.toFrame (.gpioDirResp pin .pullDownInput)) s = frame .gpioDirResp [pin, 0#8]
    ∧ exec (.toFrame (.gpioDirResp pin .pullUpInput)) s = frame .gpioDirResp [pin, 1#8]
    ∧ exec (.toFrame (.gpioDirResp pin .output)) s = frame .gpioDirResp [pin, 2#8]
    ∧ exec (.toFrame (.errGeneric msg)) s = frame .errGeneric msg
    ∧ exec (.toFrame .errCrc) s = frame .errCrc []
    ∧ exec (.toFrame .errUnknownCode) s = frame .errUnknownCode []
    ∧ exec (.toFrame (.errInvalidArgs msg)) s = frame .errInvalidArgs msg
    ∧ exec (.toFrame (.ident .itfType)) s = frame s.cfg.identItfType.1 s.cfg.identItfType.2
    ∧ exec (.toFrame (.ident .version)) s = frame s.cfg.identVersion.1 s.cfg.identVersion.2
    ∧ exec (.toFrame (.ident .idGet)) s = frame s.cfg.identIdGet.1 s.cfg.identIdGet.2

/-! ## Request codes -/

/-- R224 to R227: an inbound PING, ITF_TYPE, VERSION or ID_GET becomes its request, whatever its payload; executing
the request gives the response, with no provider call and no event. The model's: a frame code acts by phase (log entry
17), the payload is the instruction's own, compared with neither DEC.buf, FRAME_PAYLOAD_CAP nor the frame whose request
is executed (log entry 34), and executing ends ARG, which R28 gives no value there (log entry 8). -/
def Obligations.GenericRequestsBuildAndExecute : Prop :=
  ∀ (payload : List Byte) (s : State),
    let built := fun (code : Code) (r : Request) => Host.Outcome.next (φ := Fault) (ρ := Refusal)
      { s with frm := some { code := code, payload := payload }, arg := none, req := some r,
               phase := .dispatching }
    let answered := fun r : Response => Host.Outcome.next (φ := Fault) (ρ := Refusal)
      { s with arg := none, req := none, rsp := some r, phase := .responding }
    (s.phase = .frameReady →
      exec (.ping payload) s = built .ping .ping
      ∧ exec (.itfType payload) s = built .itfType .itfType
      ∧ exec (.version payload) s = built .version .version
      ∧ exec (.idGet payload) s = built .idGet .idGet)
    ∧ (s.phase = .dispatching → s.req = some .ping → exec (.ping payload) s = answered .good)
    ∧ (s.phase = .dispatching → s.req = some .itfType →
      exec (.itfType payload) s = answered (.ident .itfType))
    ∧ (s.phase = .dispatching → s.req = some .version →
      exec (.version payload) s = answered (.ident .version))
    ∧ (s.phase = .dispatching → s.req = some .idGet →
      exec (.idGet payload) s = answered (.ident .idGet))

/-- R228 to R231, Build: the fields of an inbound GPIO request; surplus bytes are ignored. A missing field or a value
outside its enumeration is InvalidArg, answered ErrInvalidArgs, and builds no request. The model's: by phase (log entry
17), and the payload is the instruction's own, compared with neither DEC.buf nor FRAME_PAYLOAD_CAP (log entry 34). -/
def Obligations.GpioRequestsBuild : Prop :=
  ∀ (pin v : Byte) (rest : List Byte) (s : State), s.phase = .frameReady →
    let built := fun (code : Code) (payload : List Byte) (r : Request) =>
      Host.Outcome.next (φ := Fault) (ρ := Refusal)
        { s with frm := some { code := code, payload := payload }, arg := none, req := some r,
                 phase := .dispatching }
    let rejected := fun (code : Code) (payload : List Byte) (cause : ArgCause) =>
      Host.Outcome.next (φ := Fault) (ρ := Refusal)
        { s with frm := some { code := code, payload := payload }, arg := none,
                 err := some (.invalidArg code cause),
                 events := s.events ++ [.err (.invalidArg code cause)],
                 rsp := some (.errInvalidArgs (s.cfg.diagOf (.invalidArg code cause))),
                 phase := .responding }
    exec (.gpioDirSet []) s = rejected .gpioDirSet [] .missing
    ∧ exec (.gpioDirSet [pin]) s = rejected .gpioDirSet [pin] .missing
    ∧ exec (.gpioDirSet (pin :: v :: rest)) s =
        (if v = 0#8 then built .gpioDirSet (pin :: v :: rest) (.gpioDirSet pin .pullDownInput)
        else if v = 1#8 then built .gpioDirSet (pin :: v :: rest) (.gpioDirSet pin .pullUpInput)
        else if v = 2#8 then built .gpioDirSet (pin :: v :: rest) (.gpioDirSet pin .output)
        else rejected .gpioDirSet (pin :: v :: rest) (.badDir v))
    ∧ exec (.gpioDirGet []) s = rejected .gpioDirGet [] .missing
    ∧ exec (.gpioDirGet (pin :: rest)) s = built .gpioDirGet (pin :: rest) (.gpioDirGet pin)
    ∧ exec (.gpioRead []) s = rejected .gpioRead [] .missing
    ∧ exec (.gpioRead (pin :: rest)) s = built .gpioRead (pin :: rest) (.gpioRead pin)
    ∧ exec (.gpioWrite []) s = rejected .gpioWrite [] .missing
    ∧ exec (.gpioWrite [pin]) s = rejected .gpioWrite [pin] .missing
    ∧ exec (.gpioWrite (pin :: v :: rest)) s =
        (if v = 0#8 then built .gpioWrite (pin :: v :: rest) (.gpioWrite pin .low)
        else if v = 1#8 then built .gpioWrite (pin :: v :: rest) (.gpioWrite pin .high)
        else rejected .gpioWrite (pin :: v :: rest) (.badValue v))

/-- R228 to R231, Execute, R278: one provider call, its answer folded into the response, and a provider's error
recorded in ERR. The model's: the answer on a valid pin is a free value, drawn by a counter of State and the call (log
entry 12); by phase (log entry 17), with whatever payload the frame code has (log entry 34); it ends ARG, which
R28 gives no value there (log entry 8). -/
def Obligations.GpioRequestsExecute : Prop :=
  ∀ (pin : Byte) (dir : GpioDir) (value : GpioValue) (payload : List Byte) (s : State),
    s.phase = .dispatching →
    let answered := fun (call : GpioCall) (answer : GpioAnswer) (r : Response) =>
      Host.Outcome.next (φ := Fault) (ρ := Refusal)
        { s with draws := s.draws + 1, events := s.events ++ [.gpio call answer],
                 arg := none, req := none, rsp := some r, phase := .responding }
    let failed := fun (call : GpioCall) (answer : GpioAnswer) (e : Err) (r : Response) =>
      Host.Outcome.next (φ := Fault) (ρ := Refusal)
        { s with draws := s.draws + 1, events := s.events ++ [.gpio call answer, .err e],
                 err := some e, arg := none, req := none, rsp := some r, phase := .responding }
    (s.req = some (.gpioDirSet pin dir) → exec (.gpioDirSet payload) s =
      if pin.toNat ∈ s.cfg.validPins then
        match Config.drawUnit s.draws (.setDirection pin dir) with
        | some _ => answered (.setDirection pin dir) .done .good
        | none => failed (.setDirection pin dir) .hwError (.hwError .gpioDirSet pin)
            (.errGeneric (s.cfg.diagOf (.hwError .gpioDirSet pin)))
      else failed (.setDirection pin dir) .invalidPin (.invalidPin .gpioDirSet pin)
            (.errInvalidArgs (s.cfg.diagOf (.invalidPin .gpioDirSet pin))))
    ∧ (s.req = some (.gpioDirGet pin) → exec (.gpioDirGet payload) s =
      if pin.toNat ∈ s.cfg.validPins then
        match Config.drawDir s.draws (.getDirection pin) with
        | some d => answered (.getDirection pin) (.dir d) (.gpioDirResp pin d)
        | none => failed (.getDirection pin) .hwError (.hwError .gpioDirGet pin)
            (.errGeneric (s.cfg.diagOf (.hwError .gpioDirGet pin)))
      else failed (.getDirection pin) .invalidPin (.invalidPin .gpioDirGet pin)
            (.errInvalidArgs (s.cfg.diagOf (.invalidPin .gpioDirGet pin))))
    ∧ (s.req = some (.gpioRead pin) → exec (.gpioRead payload) s =
      if pin.toNat ∈ s.cfg.validPins then
        match Config.drawValue s.draws (.getValue pin) with
        | some v => answered (.getValue pin) (.value v) (.gpioValue pin v)
        | none => failed (.getValue pin) .hwError (.hwError .gpioRead pin)
            (.errGeneric (s.cfg.diagOf (.hwError .gpioRead pin)))
      else failed (.getValue pin) .invalidPin (.invalidPin .gpioRead pin)
            (.errInvalidArgs (s.cfg.diagOf (.invalidPin .gpioRead pin))))
    ∧ (s.req = some (.gpioWrite pin value) → exec (.gpioWrite payload) s =
      if pin.toNat ∈ s.cfg.validPins then
        match Config.drawUnit s.draws (.setValue pin value) with
        | some _ => answered (.setValue pin value) .done .good
        | none => failed (.setValue pin value) .hwError (.hwError .gpioWrite pin)
            (.errGeneric (s.cfg.diagOf (.hwError .gpioWrite pin)))
      else failed (.setValue pin value) .invalidPin (.invalidPin .gpioWrite pin)
            (.errInvalidArgs (s.cfg.diagOf (.invalidPin .gpioWrite pin))))

/-! ## Response codes -/

/-- R86, R184, R306: a response code received inbound is NotARequest with its wire value, answered ErrGeneric, with
no request built. The model's: by phase (log entry 17), with whatever payload the frame code has, compared with neither
DEC.buf nor FRAME_PAYLOAD_CAP (log entry 34). -/
def Obligations.InboundResponseCodesRejected : Prop :=
  ∀ (payload : List Byte) (s : State), s.phase = .frameReady →
    let rejected := fun (code : Code) (c16 : Word) => Host.Outcome.next (φ := Fault) (ρ := Refusal)
      { s with frm := some { code := code, payload := payload }, arg := none,
               err := some (.notARequest c16), events := s.events ++ [.err (.notARequest c16)],
               rsp := some (.errGeneric (s.cfg.diagOf (.notARequest c16))), phase := .responding }
    exec (.good payload) s = rejected .good 0xFFFF#16
    ∧ exec (.gpioValue payload) s = rejected .gpioValue 0xFEFF#16
    ∧ exec (.errGeneric payload) s = rejected .errGeneric 0xFFFE#16
    ∧ exec (.errCrc payload) s = rejected .errCrc 0xFFFD#16
    ∧ exec (.errUnknownCode payload) s = rejected .errUnknownCode 0xFFFC#16
    ∧ exec (.errInvalidArgs payload) s = rejected .errInvalidArgs 0xFFFB#16
    ∧ exec (.errBusy payload) s = rejected .errBusy 0xFFFA#16
    ∧ exec (.gpioDirResp payload) s = rejected .gpioDirResp s.cfg.gpioDirRespCode

/-- R279, R258 to R264: S_RESPOND, which is the frame code the response is sent as, writes its whole SLIP frame in one
write, with no leading END, resets both codecs and returns to IDLE. The model's: a frame code acts by phase (log entry
17), a message longer than ERR_MSG_MAX, which no run has in RSP, is sent unchanged (log entry 36), and DEC_RESET ends FRM
and ARG (log entries 30, 33). -/
def Obligations.RespondStepWritesFrame : Prop :=
  ∀ (code : Code) (payload : List Byte) (r : Response) (s : State),
    s.phase = .responding → s.rsp = some r → responseFrame s.cfg r = (code, payload) →
    s.encLen = 0 → (wireBytes s.cfg code payload).length ≤ s.cfg.encCap →
    exec .sRespond s = exec (frameInstr code payload) s
    ∧ exec (frameInstr code payload) s = .next { s with
      encBuf := s.encBuf.writeN 0 (wireBytes s.cfg code payload), encLen := 0,
      events := s.events ++ [.out (wireBytes s.cfg code payload)],
      decLen := 0, decEsc := false, rxCnt := 0, frm := none, arg := none, rsp := none, phase := .idle }
    ∧ (r = .good → frameInstr code payload = .good [])
    ∧ (∀ pin v, r = .gpioValue pin v → frameInstr code payload = .gpioValue [pin, gpioValueByte v])
    ∧ (∀ pin d, r = .gpioDirResp pin d → frameInstr code payload = .gpioDirResp [pin, gpioDirByte d])
    ∧ (∀ msg, r = .errGeneric msg → frameInstr code payload = .errGeneric msg)
    ∧ (r = .errCrc → frameInstr code payload = .errCrc [])
    ∧ (r = .errUnknownCode → frameInstr code payload = .errUnknownCode [])
    ∧ (∀ msg, r = .errInvalidArgs msg → frameInstr code payload = .errInvalidArgs msg)

/-! ## Pipeline -/

/-- R272, R273: S_RX on a literal byte or an ESC outside an escape, and on a completed escape: the byte is accepted
and counted, and the phase is ACCUM. That the step ends ARG, which R28 gives no value there, is the model's (log entry
8). -/
def Obligations.RxContinues : Prop :=
  ∀ (b : Byte) (rest : List Byte) (s : State),
    s.phase = .idle ∨ s.phase = .accum → s.input = b :: rest →
    (s.decEsc = false → b = 0xDB#8 →
      exec .sRx s = .next { s with
        input := rest, events := s.events ++ [.inByte b], arg := none, rxCnt := s.rxCnt + 1, decEsc := true,
        phase := .accum })
    ∧ (s.decEsc = false → b ≠ 0xC0#8 → b ≠ 0xDB#8 → s.decLen < s.cfg.decCap →
      exec .sRx s = .next { s with
        input := rest, events := s.events ++ [.inByte b], arg := none, rxCnt := s.rxCnt + 1,
        decBuf := s.decBuf.write s.decLen b, decLen := s.decLen + 1, phase := .accum })
    ∧ (s.decEsc = true → b = 0xDC#8 ∨ b = 0xDD#8 → s.decLen < s.cfg.decCap →
      exec .sRx s = .next { s with
        input := rest, events := s.events ++ [.inByte b], arg := none, rxCnt := s.rxCnt + 1, decEsc := false,
        decBuf := s.decBuf.write s.decLen (if b = 0xDC#8 then 0xC0#8 else 0xDB#8),
        decLen := s.decLen + 1, phase := .accum })

/-- R274: S_RX on an END outside an escape: an empty frame is dropped under DROP, any other frame is ready and its
bytes stay. The model's: every DEC_RESET ends FRM (R27; log entry 30), and the step ends ARG, which R28 gives no value
there (log entry 8). -/
def Obligations.RxCompletesOrDrops : Prop :=
  ∀ (rest : List Byte) (s : State),
    s.phase = .idle ∨ s.phase = .accum → s.input = 0xC0#8 :: rest → s.decEsc = false →
    (s.decLen = 0 → s.cfg.emptyFrameMode = .drop →
      exec .sRx s = .next { s with
        input := rest, events := s.events ++ [.inByte 0xC0#8], rxCnt := 0, decLen := 0, decEsc := false,
        frm := none, arg := none, phase := .idle })
    ∧ (s.decLen ≠ 0 ∨ s.cfg.emptyFrameMode = .process →
      exec .sRx s = .next { s with
        input := rest, events := s.events ++ [.inByte 0xC0#8], arg := none, rxCnt := s.rxCnt + 1,
        phase := .frameReady })

/-- R275: S_RX on a byte at which the decoder raises BadEsc (R106) or BufferFull (R101, R104, R105): ERR is written with
the byte's position, the decoder is reset, the block hunts or is idle, and nothing is answered. The model's: the buffer
is full wherever DEC.len is not below DEC_CAP (log entry 6), and every DEC_RESET ends FRM and ARG (log entries 30,
33). -/
def Obligations.RxFramingErrorResyncs : Prop :=
  ∀ (b : Byte) (rest : List Byte) (s : State),
    s.phase = .idle ∨ s.phase = .accum → s.input = b :: rest →
    let resynced := fun e : Err => Host.Outcome.next (φ := Fault) (ρ := Refusal)
      { s with input := rest, events := s.events ++ [.inByte b, .err e], err := some e,
               rxCnt := 0, decLen := 0, decEsc := false, frm := none, arg := none,
               phase := if s.cfg.resyncMode = .hunt ∧ b ≠ 0xC0#8 then .hunt else .idle }
    (s.decEsc = true → b ≠ 0xDC#8 → b ≠ 0xDD#8 → exec .sRx s = resynced (.badEsc s.rxCnt))
    ∧ (s.decEsc = true → b = 0xDC#8 ∨ b = 0xDD#8 → s.cfg.decCap ≤ s.decLen →
        exec .sRx s = resynced (.bufferFullDec s.rxCnt))
    ∧ (s.decEsc = false → b ≠ 0xC0#8 → b ≠ 0xDB#8 → s.cfg.decCap ≤ s.decLen →
        exec .sRx s = resynced (.bufferFullDec s.rxCnt))

/-- R276, R270, R288: S_HUNT discards one byte, and an END ends the hunt; with no byte offered, S_HUNT and S_RX leave
the state as it is. The model's: the empty poll (log entry 13), and that a step which accepts a byte ends ARG, which R28
gives no value there (log entry 8). -/
def Obligations.HuntDiscardsToEndAndPollsAreEmpty : Prop :=
  ∀ s : State,
    (∀ b rest, s.phase = .hunt → s.input = b :: rest →
      exec .sHunt s = .next { s with
        input := rest, events := s.events ++ [.inByte b], arg := none,
        phase := if b = 0xC0#8 then .idle else .hunt })
    ∧ (s.phase = .hunt → s.input = [] → exec .sHunt s = .next s)
    ∧ (s.phase = .idle ∨ s.phase = .accum → s.input = [] → exec .sRx s = .next s)

/-- R277, R311: S_DECODE on a frame that FRAME_DECODE rejects records the error and chooses its response; the decoder
is not changed. On any other frame it runs the frame's instruction (that a frame code acts by phase is the model's, log
entry 17). -/
def Obligations.DecodeStepAnswersOrRuns : Prop :=
  ∀ s : State, s.phase = .frameReady → s.decLen ≤ s.cfg.decCap →
    let bytes := s.decBytes
    let answered := fun (e : Err) (r : Response) => Host.Outcome.next (φ := Fault) (ρ := Refusal)
      { s with arg := none, err := some e, events := s.events ++ [.err e], rsp := some r,
               phase := .responding }
    (∀ n, frameDecode s.cfg bytes = .error (.invalidLength n) →
      exec .sDecode s = answered (.invalidLength n) (.errGeneric (s.cfg.diagOf (.invalidLength n))))
    ∧ (∀ c r, frameDecode s.cfg bytes = .error (.invalidCrc c r) →
      exec .sDecode s = answered (.invalidCrc c r) .errCrc)
    ∧ (∀ c, frameDecode s.cfg bytes = .error (.unknownCode c) →
      exec .sDecode s = answered (.unknownCode c) .errUnknownCode)
    ∧ (∀ code payload, frameDecode s.cfg bytes = .ok (code, payload) →
      exec .sDecode s = exec (frameInstr code payload) s
      ∧ ∃ t, exec .sDecode s = .next t ∧ (t.phase = .dispatching ∨ t.phase = .responding))
    ∧ (∀ e, frameDecode s.cfg bytes = .error e →
      (∃ n, e = .invalidLength n) ∨ (∃ c r, e = .invalidCrc c r) ∨ (∃ c, e = .unknownCode c))

/-- R278: S_DISPATCH executes REQ as its request code does, always answers, and moves to RESPONDING. The model's: the
request code acts by phase (log entry 17), does the same with every payload (log entry 34), and ends ARG, which R28 gives
no value there (log entry 8). -/
def Obligations.DispatchStepExecutesRequest : Prop :=
  ∀ (r : Request) (payload : List Byte) (s : State), s.phase = .dispatching → s.req = some r →
    exec .sDispatch s = exec (frameInstr (requestCode r) payload) s
    ∧ ∃ t rsp, exec .sDispatch s = .next t ∧ t.phase = .responding ∧ t.req = none ∧ t.rsp = some rsp
      ∧ t = { s with draws := t.draws, events := t.events, err := t.err, arg := none, req := none, rsp := some rsp,
                     phase := .responding }

/-- R280, R134, R135: when the encoder overflows, S_RESPOND writes nothing to OUT, records BufferFull, resets both
codecs and returns to IDLE. At the first byte of the frame whose unit does not fit, the position is that byte's and the
units before it are in the buffer; where only the END does not fit, there is no position and all units are. One of the
two is the case. RSP ends by R30 and R284; that FRM and ARG do is the model's (log entries 30,
33). -/
def Obligations.RespondStepDropsOnOverflow : Prop :=
  ∀ (r : Response) (s : State), s.phase = .responding → s.rsp = some r → s.encLen = 0 →
    let frame := frameEncode s.cfg (responseFrame s.cfg r).1 (responseFrame s.cfg r).2
    let dropped := fun (written : List Byte) (pos : Option Nat) => Host.Outcome.next (φ := Fault) (ρ := Refusal)
      { s with encBuf := s.encBuf.writeN 0 written, encLen := 0, err := some (.bufferFullEnc pos),
               events := s.events ++ [.err (.bufferFullEnc pos)],
               decLen := 0, decEsc := false, rxCnt := 0, frm := none, arg := none, rsp := none, phase := .idle }
    (∀ pre b post, frame = pre ++ b :: post → (slipEnc pre).length ≤ s.cfg.encCap →
      s.cfg.encCap < (slipEnc pre).length + (encUnit b).length →
      exec .sRespond s = dropped (slipEnc pre) (some pre.length))
    ∧ ((slipEnc frame).length = s.cfg.encCap → exec .sRespond s = dropped (slipEnc frame) none)
    ∧ (s.cfg.encCap < (slipEnc frame).length + 1 →
      (∃ pre b post, frame = pre ++ b :: post ∧ (slipEnc pre).length ≤ s.cfg.encCap
        ∧ s.cfg.encCap < (slipEnc pre).length + (encUnit b).length)
      ∨ (slipEnc frame).length = s.cfg.encCap)

/-- R138, R351: with the recommended ENC_CAP the encoder never overflows: the whole SLIP frame of every response is
written. -/
def Obligations.RecommendedEncoderNeverOverflows : Prop :=
  ∀ s : State, PipelineInv s →
    2 * (4 + s.cfg.respPayloadMax) + 1 ≤ s.cfg.encCap → s.phase = .responding →
    ∃ r t, s.rsp = some r ∧ exec .sRespond s = .next t
      ∧ t.events = s.events ++ [.out (wireBytes s.cfg (responseFrame s.cfg r).1 (responseFrame s.cfg r).2)]
      ∧ t.phase = .idle ∧ t.err = s.err

/-! ## The whole machine -/

/-- R284, which the spec derives from R272 to R280: every step keeps the pipeline's invariants. -/
def Obligations.StepKeepsPipelineInv : Prop :=
  ∀ s t : State, PipelineInv s → step s = .next t → PipelineInv t

/-- R281, which the spec derives from R271 to R280: the block never halts: from every state of the pipeline a step
answers a next state, and from FRAME_READY with no reset waiting it is back in IDLE within three steps. That a step
answers one with no byte offered, where R288 enables none, is the model's empty poll (log entry 13). -/
def Obligations.BlockNeverHalts : Prop :=
  ∀ s : State, PipelineInv s →
    (∃ t, step s = .next t)
    ∧ (s.calls = [] → s.phase = .frameReady →
        ∃ k t, k ≤ 3 ∧ Sys2Proof.core.run k s = .next t ∧ t.phase = .idle)

/-- R282 item 1, which the spec derives: a completed frame gets exactly one response: from FRAME_READY, with an encoder
of the recommended size, at most two steps choose a response, and the next step, which ends in IDLE, writes its whole SLIP
frame; that is the only write of the run. -/
def Obligations.CompletedFrameGetsOneResponse : Prop :=
  ∀ s : State, PipelineInv s →
    2 * (4 + s.cfg.respPayloadMax) + 1 ≤ s.cfg.encCap → s.calls = [] → s.phase = .frameReady →
    ∃ k u r t, k ≤ 2 ∧ Sys2Proof.core.run k s = .next u ∧ u.phase = .responding ∧ u.rsp = some r
      ∧ Sys2Proof.core.run (k + 1) s = .next t ∧ t.phase = .idle ∧ t.input = s.input
      ∧ outWrites t.events =
        outWrites s.events ++ [wireBytes s.cfg (responseFrame s.cfg r).1 (responseFrame s.cfg r).2]

/-- R113 through the pipeline, R76, R274: the escaped form of any non-empty bytes within capacity, offered to an idle
block and followed by an END, completes exactly that frame, and the bytes after the END stay offered. -/
def Obligations.OfferedFrameIsReceived : Prop :=
  ∀ (p rest : List Byte) (s : State),
    p ≠ [] → p.length ≤ s.cfg.decCap → s.calls = [] → s.phase = .idle →
    s.decLen = 0 → s.decEsc = false → s.input = slipEnc p ++ 0xC0#8 :: rest →
    ∃ t, Sys2Proof.core.run ((slipEnc p).length + 1) s = .next t
      ∧ t.phase = .frameReady ∧ t.decBytes = p ∧ t.input = rest
      ∧ outWrites t.events = outWrites s.events ∧ gpioCalls t.events = gpioCalls s.events

/-- R271, R285, R348: only an input-accepting phase accepts a byte, the head of IN, one per instruction, and records
it; every other instruction but the external reset leaves IN as it was. -/
def Obligations.InputAcceptedInOrder : Prop :=
  ∀ (i : Instr) (s t : State), i ≠ .reset → exec i s = .next t →
    (t.input = s.input ∧ inBytes t.events = inBytes s.events)
    ∨ ∃ b, s.input = b :: t.input ∧ inBytes t.events = inBytes s.events ++ [b]
        ∧ (s.phase = .idle ∨ s.phase = .accum ∨ s.phase = .hunt) ∧ (i = .sRx ∨ i = .sHunt)

/-- R282 item 4, which the spec derives: nothing but responding writes to OUT, and it writes at most once. -/
def Obligations.OnlyRespondingWritesOut : Prop :=
  ∀ (i : Instr) (s t : State), exec i s = .next t →
    outWrites t.events = outWrites s.events
    ∨ (s.phase = .responding ∧ (i = .sRespond ∨ ∃ c, frameParts i = some c)
        ∧ ∃ bytes, outWrites t.events = outWrites s.events ++ [bytes])

/-- R240, R314: an instruction makes at most one provider call, the one a GPIO request stands for, and only by executing
that request: REQ_EXEC of it, or, while it is in REQ in DISPATCHING, S_DISPATCH or its frame code. So building,
rejecting and generic requests make none. -/
def Obligations.AtMostOneProviderCall : Prop :=
  ∀ (i : Instr) (s t : State), exec i s = .next t →
    gpioCalls t.events = gpioCalls s.events
    ∨ ∃ r call answer, requestCall r = some call
        ∧ gpioCalls t.events = gpioCalls s.events ++ [(call, answer)]
        ∧ (i = .reqExec r
          ∨ (s.phase = .dispatching ∧ s.req = some r
            ∧ (i = .sDispatch ∨ ∃ payload, i = frameInstr (requestCode r) payload)))

/-- R31, R287: every write of ERR is one Err event with the same error, and an instruction writes ERR at most once;
only the external reset takes its value away. -/
def Obligations.ErrWritesAreRecorded : Prop :=
  ∀ (i : Instr) (s t : State), i ≠ .reset → exec i s = .next t →
    (t.err = s.err ∧ errWrites t.events = errWrites s.events)
    ∨ ∃ e, t.err = some e ∧ errWrites t.events = errWrites s.events ++ [e]

/-- R265: no instruction chooses ErrBusy as the response. That TO_FRAME of it, which no rule runs, is its code with no
payload is read from R265's example frame (log entry 25). -/
def Obligations.NeverChoosesErrBusy : Prop :=
  (∀ (i : Instr) (s t : State), exec i s = .next t → t.rsp = some .errBusy → s.rsp = some .errBusy)
  ∧ ∀ s : State, exec (.toFrame .errBusy) s = .next { s with ret := .frame .errBusy [] }

/-- R283, R286, R348: bytes offered later do not change a step that has a byte or needs none; they stay offered, in
order, behind the others. The two steps get the same provider answers, which the model draws by its counter and the call
(log entry 12). -/
def Obligations.BytesOfferedLaterWait : Prop :=
  ∀ (s t : State) (more : List Byte),
    s.calls = [] →
    (s.input ≠ [] ∨ s.phase = .frameReady ∨ s.phase = .dispatching ∨ s.phase = .responding) →
    step s = .next t →
    step { s with input := s.input ++ more } = .next { t with input := t.input ++ more }
end

