-- ==== Sys2Proof/Laws/Codec.lean ====
section
/-! SUPPORT. The laws of the byte order, the CRC, the code registry and the frame codec. -/

namespace Sys2Proof

/-! ## Byte order -/

@[simp] theorem be16_hiByte_loByte (w : Word) : be16 (hiByte w) (loByte w) = w := by
  apply BitVec.eq_of_getLsbD_eq
  intro i hi
  simp only [be16, hiByte, loByte, BitVec.getLsbD_append, BitVec.getLsbD_extractLsb']
  split
  · simp; omega
  · have : i - 8 < 8 := by omega
    simp [this, show 8 + (i - 8) = i by omega]

theorem be16_toNat (h l : Byte) : (be16 h l).toNat = h.toNat * 256 + l.toNat := by
  have := l.isLt
  simp only [be16, BitVec.toNat_append, Nat.shiftLeft_eq]
  rw [← Nat.shiftLeft_eq, ← Nat.shiftLeft_add_eq_or_of_lt (by simpa using this), Nat.shiftLeft_eq]

/-! ## CRC -/

@[simp] theorem crc16_nil : crc16 [] = 0xFFFF#16 := rfl

@[simp] theorem crc16_append_byte (m : List Byte) (b : Byte) : crc16 (m ++ [b]) = crcByte (crc16 m) b := by
  simp [crc16]

/-- Every bit step can be undone. -/
theorem crcBit_injective {a b : Word} (h : crcBit a = crcBit b) : a = b := by
  have bit : ∀ (c : Word) (i : Nat), (crcBit c).getLsbD i =
      ((decide (i < 16) && !decide (i < 1) && c.getLsbD (i - 1)) ^^ (c.getLsbD 15 && (0x1021#16).getLsbD i)) := by
    intro c i
    cases hc : c.getLsbD 15 <;> simp only [crcBit, hc] <;> simp
  have top : a.getLsbD 15 = b.getLsbD 15 := by
    have := congrArg (fun c : Word => c.getLsbD 0) h
    simp only [bit] at this
    simpa using this
  apply BitVec.eq_of_getLsbD_eq
  intro i hi
  by_cases h15 : i = 15
  · subst h15; exact top
  · have := congrArg (fun c : Word => c.getLsbD (i + 1)) h
    simp only [bit, top] at this
    simpa [show i + 1 < 16 by omega] using this

theorem crcShift8_injective {a b : Word} (h : crcShift8 a = crcShift8 b) : a = b := by
  iterate 8 apply crcBit_injective
  exact h

/-- A message byte's step can be undone, whatever the byte. -/
theorem crcByte_injective {c d : Word} {b : Byte} (h : crcByte c b = crcByte d b) : c = d := by
  have := crcShift8_injective h
  simpa using congrArg (· ^^^ (b.zeroExtend 16 <<< 8)) this

/-- Different message bytes give different states. -/
theorem crcByte_byte_injective {c : Word} {a b : Byte} (h : crcByte c a = crcByte c b) : a = b := by
  have h8 := crcShift8_injective h
  apply BitVec.eq_of_getLsbD_eq
  intro i hi
  have := congrArg (fun w : Word => w.getLsbD (i + 8)) h8
  simpa [show i + 8 < 16 by omega, hi, show i < 16 by omega] using this

/-- Two runs of the same bytes from different states end in different states. -/
theorem crc_foldl_injective {m : List Byte} {c d : Word} (h : m.foldl crcByte c = m.foldl crcByte d) :
    c = d := by
  induction m generalizing c d with
  | nil => exact h
  | cons b m ih => exact crcByte_injective (ih h)

/-- Eight bit steps of a value in the low byte only move it up. -/
theorem crcShift8_low (b : Byte) : crcShift8 (b.setWidth 16) = b.setWidth 16 <<< 8 := by
  have step : ∀ (k : Nat), k < 8 → crcBit (b.setWidth 16 <<< k) = b.setWidth 16 <<< (k + 1) := by
    intro k hk
    have h15 : (b.setWidth 16 <<< k).getLsbD 15 = false := by
      have : b.getLsbD (15 - k) = false := BitVec.getLsbD_of_ge _ _ (by omega)
      rw [BitVec.getLsbD_shiftLeft, BitVec.getLsbD_setWidth, this]; simp
    simp only [crcBit, h15, Bool.false_eq_true, if_false, BitVec.shiftLeft_add]
  have s0 := step 0 (by omega)
  simp only [BitVec.shiftLeft_zero, Nat.zero_add] at s0
  simp [crcShift8, s0, step]

/-! ## The decoder's 9-bit words -/

theorem decWord_flag (esc : Bool) (b : Byte) : (decWord esc b).getLsbD 8 = esc := by
  rw [decWord, BitVec.getLsbD_append]; cases esc <;> rfl

theorem decWord_byte (esc : Bool) (b : Byte) : (decWord esc b).setWidth 8 = b := by
  apply BitVec.eq_of_getLsbD_eq
  intro i hi
  rw [BitVec.getLsbD_setWidth, decWord, BitVec.getLsbD_append]
  simp [hi]

/-! ## Code registry -/

/-- The wire value of every code of R80 is its row. -/
theorem tableCode_codeEncode (p : Params) {code : Code} (h : code ≠ .gpioDirResp) :
    tableCode (codeEncode p code) = some code := by
  cases code <;> first | rfl | exact absurd rfl h

/-- A row's code has the row's wire value. -/
theorem codeEncode_of_tableCode (p : Params) {c16 : Word} {code : Code} (h : tableCode c16 = some code) :
    codeEncode p code = c16 ∧ code ≠ .gpioDirResp := by
  simp only [tableCode, codeTable, List.lookup] at h
  repeat' split at h
  all_goals first
    | (simp only [Option.some.injEq] at h; subst h; simp_all [codeEncode])
    | simp at h

/-- `CODE_LOOKUP` undoes `CODE_ENCODE` (R183). -/
theorem codeLookup_codeEncode (p : Params) {code : Code}
    (h : code = .gpioDirResp → tableCode p.gpioDirRespCode = none) :
    codeLookup p (codeEncode p code) = some code := by
  by_cases hc : code = .gpioDirResp
  · subst hc; simp [codeLookup, codeEncode, h rfl]
  · simp [codeLookup, tableCode_codeEncode p hc]

/-! ## Frame codec -/

theorem frameBytes_length (c16 : Word) (payload : List Byte) :
    (frameBytes c16 payload).length = payload.length + 4 := by
  simp [frameBytes, bytesOf]

/-- `FRAME_DECODE` of four bytes or more, by the parts of the frame (R152 to R156). -/
theorem frameDecode_parts (p : Params) (h l ch cl : Byte) (payload : List Byte) :
    frameDecode p (h :: l :: (payload ++ [ch, cl])) =
      (if crc16 (h :: l :: payload) ≠ be16 ch cl then
        .error (.invalidCrc (crc16 (h :: l :: payload)) (be16 ch cl))
      else match codeLookup p (be16 h l) with
        | none => .error (.unknownCode (be16 h l))
        | some code => if payload.length > p.payloadCap then .error (.invalidLength (payload.length + 4))
            else .ok (code, payload)) := by
  have hn : (h :: l :: (payload ++ [ch, cl])).length = payload.length + 4 := by simp
  have ht : (h :: l :: (payload ++ [ch, cl])).take (payload.length + 2) = h :: l :: payload := by simp
  have e1 : (h :: l :: (payload ++ [ch, cl])).getD (payload.length + 2) 0 = ch := by simp
  have e2 : (h :: l :: (payload ++ [ch, cl])).getD (payload.length + 3) 0 = cl := by simp
  simp only [frameDecode, hn, show ¬ payload.length + 4 < 4 by omega, if_false,
    show payload.length + 4 - 2 = payload.length + 2 by omega,
    show payload.length + 4 - 1 = payload.length + 3 by omega, ht, e1, e2]
  rfl

/-- Four bytes or more are a frame's parts. -/
theorem exists_frame_parts {S : List Byte} (hn : 4 ≤ S.length) :
    ∃ h l payload ch cl, S = h :: l :: (payload ++ [ch, cl]) := by
  match S, hn with
  | h :: l :: rest, hn =>
    have hr : 2 ≤ rest.length := by simpa using hn
    refine ⟨h, l, rest.take (rest.length - 2), rest[rest.length - 2], rest[rest.length - 1], ?_⟩
    have e : rest.drop (rest.length - 2) = [rest[rest.length - 2], rest[rest.length - 1]] := by
      rw [List.drop_eq_getElem_cons (by omega), List.drop_eq_getElem_cons (by omega)]
      simp [show rest.length - 2 + 1 = rest.length - 1 by omega,
        show rest.length - 1 + 1 = rest.length by omega]
    rw [← e, List.take_append_drop]

/-- The errors `FRAME_DECODE` can raise (R152 to R156). -/
theorem frameDecode_error {p : Params} {S : List Byte} {e : Err} (h : frameDecode p S = .error e) :
    (∃ n, e = .invalidLength n) ∨ (∃ c r, e = .invalidCrc c r) ∨ ∃ c, e = .unknownCode c := by
  simp only [frameDecode] at h
  repeat' split at h
  all_goals first
    | cases h; done
    | (simp only [Except.error.injEq] at h; subst h; simp)

/-- A decoded frame encoded again and decoded gives its code and payload (R158). -/
theorem frameDecode_frameBytes (p : Params) {c16 : Word} {code : Code} {payload : List Byte}
    (hc : codeLookup p c16 = some code) (hl : payload.length ≤ p.payloadCap) :
    frameDecode p (frameBytes c16 payload) = .ok (code, payload) := by
  have e : frameBytes c16 payload = hiByte c16 :: loByte c16 ::
      (payload ++ [hiByte (crc16 (bytesOf c16 ++ payload)), loByte (crc16 (bytesOf c16 ++ payload))]) := by
    simp [frameBytes, bytesOf]
  rw [e, frameDecode_parts]
  simp [bytesOf, hc, Nat.not_lt.2 hl]

end Sys2Proof
end

