-- ==== Sys2Proof/Laws/Memory.lean ====
section
/-! SUPPORT. The laws of the byte buffers: reading back what was written, and the canonical form every operation
keeps. -/

namespace Sys2Proof.Machine

@[simp] theorem Memory.read_nil (a : Nat) : Memory.read [] a = none := rfl

theorem Memory.read_cons (k : Nat) (w : Byte) (m : Memory) (a : Nat) :
    Memory.read ((k, w) :: m) a = if k = a then some w else Memory.read m a := rfl

/-- A write is read back at its index and leaves every other index alone. -/
theorem Memory.read_write (m : Memory) (a b : Nat) (v : Byte) :
    (Memory.write m a v).read b = if b = a then some v else m.read b := by
  induction m with
  | nil => simp [Memory.write, Memory.read_cons, eq_comm]
  | cons c m ih =>
    obtain ⟨k, w⟩ := c
    simp only [Memory.write]
    by_cases hb : b = a
    · subst hb
      split
      · simp [Memory.read_cons]
      · split
        · simp [Memory.read_cons]
        · have : k ≠ b := by omega
          simp [Memory.read_cons, ih, this]
    · split
      · simp [Memory.read_cons, Ne.symm hb]
      · split
        · subst k; simp [Memory.read_cons, Ne.symm hb]
        · simp [Memory.read_cons, ih, hb]

@[simp] theorem Memory.read_write_same (m : Memory) (a : Nat) (v : Byte) :
    (Memory.write m a v).read a = some v := by simp [Memory.read_write]

theorem Memory.read_write_of_ne {m : Memory} {a b : Nat} (v : Byte) (h : b ≠ a) :
    (Memory.write m a v).read b = m.read b := by simp [Memory.read_write, h]

/-- The indices listed after a write. -/
theorem Memory.mem_write_keys {m : Memory} {a : Nat} {v : Byte} {k : Nat}
    (h : k ∈ (Memory.write m a v).map Prod.fst) : k = a ∨ k ∈ m.map Prod.fst := by
  induction m with
  | nil => simpa [Memory.write] using h
  | cons c m ih =>
    obtain ⟨j, w⟩ := c
    simp only [Memory.write] at h
    split at h
    · simpa using h
    · split at h
      · simp at h ⊢; tauto
      · simp only [List.map_cons, List.mem_cons] at h ⊢
        rcases h with h | h
        · exact .inr (.inl h)
        · exact (ih h).imp id .inr

/-- A write keeps the canonical form. -/
theorem Memory.write_wf {m : Memory} (a : Nat) (v : Byte) (h : m.wf) : (Memory.write m a v).wf := by
  induction m with
  | nil => simp [Memory.write, Memory.wf]
  | cons c m ih =>
    obtain ⟨k, w⟩ := c
    have hk : ∀ j ∈ m.map Prod.fst, k < j := (List.pairwise_cons.1 h).1
    have hm : Memory.wf m := (List.pairwise_cons.1 h).2
    simp only [Memory.write]
    split
    · refine List.pairwise_cons.2 ⟨fun j hj => ?_, h⟩
      rcases List.mem_cons.1 hj with rfl | hj
      · assumption
      · have := hk j hj; omega
    · split
      · subst k; exact List.pairwise_cons.2 ⟨hk, hm⟩
      · refine List.pairwise_cons.2 ⟨fun j hj => ?_, ih hm⟩
        rcases Memory.mem_write_keys hj with rfl | hj
        · omega
        · exact hk j hj

theorem Memory.writeN_wf {m : Memory} (i : Nat) (bs : List Byte) (h : m.wf) : (Memory.writeN m i bs).wf := by
  induction bs generalizing m i with
  | nil => exact h
  | cons b bs ih => exact ih _ (Memory.write_wf i b h)

/-- What is read after `MemWrite`. -/
theorem Memory.read_writeN (m : Memory) (i b : Nat) (bs : List Byte) :
    (Memory.writeN m i bs).read b = if i ≤ b ∧ b < i + bs.length then bs[b - i]? else m.read b := by
  induction bs generalizing m i with
  | nil => simp only [Memory.writeN, List.length_nil]; split <;> first | rfl | omega
  | cons c bs ih =>
    simp only [Memory.writeN, ih, Memory.read_write, List.length_cons]
    by_cases hb : b = i
    · subst hb; simp
    · by_cases h : i ≤ b ∧ b < i + (bs.length + 1)
      · obtain ⟨d, rfl⟩ : ∃ d, b = i + 1 + d := ⟨b - (i + 1), by omega⟩
        have e1 : i + 1 + d - (i + 1) = d := by omega
        have e2 : i + 1 + d - i = d + 1 := by omega
        rw [if_pos (by omega), if_pos h, e1, e2, List.getElem?_cons_succ]
      · rw [if_neg (by omega), if_neg h, if_neg hb]

theorem Memory.writeN_append (m : Memory) (i : Nat) (as bs : List Byte) :
    Memory.writeN m i (as ++ bs) = Memory.writeN (Memory.writeN m i as) (i + as.length) bs := by
  induction as generalizing m i with
  | nil => simp [Memory.writeN]
  | cons a as ih => simp only [List.cons_append, Memory.writeN, ih, List.length_cons]; congr 1; omega

/-- A byte that was written is what its index holds. -/
theorem Memory.byteAt_of_read {m : Memory} {i : Nat} {b : Byte} (space : Space) (h : m.read i = some b) :
    m.byteAt space i = b := by simp [Memory.byteAt, h]

/-- What an index holds after a write. -/
theorem Memory.byteAt_write (m : Memory) (space : Space) (a b : Nat) (v : Byte) :
    (Memory.write m a v).byteAt space b = if b = a then v else m.byteAt space b := by
  simp only [Memory.byteAt, Memory.read_write]; split <;> rfl

/-- What an index holds after `MemWrite`. -/
theorem Memory.byteAt_writeN (m : Memory) (space : Space) (i b : Nat) (bs : List Byte) :
    (Memory.writeN m i bs).byteAt space b =
      if i ≤ b ∧ b < i + bs.length then bs.getD (b - i) 0 else m.byteAt space b := by
  simp only [Memory.byteAt, Memory.read_writeN]
  split
  · have : b - i < bs.length := by omega
    simp [List.getD, List.getElem?_eq_getElem this]
  · rfl

@[simp] theorem Memory.readN_length (m : Memory) (space : Space) (i n : Nat) :
    (m.readN space i n).length = n := by
  induction n generalizing i with
  | zero => rfl
  | succ n ih => simp [Memory.readN, ih]

/-- `MemRead` gives the bytes its indices hold. -/
theorem Memory.readN_getElem? (m : Memory) (space : Space) {i n k : Nat} (h : k < n) :
    (m.readN space i n)[k]? = some (m.byteAt space (i + k)) := by
  induction n generalizing i k with
  | zero => omega
  | succ n ih =>
    cases k with
    | zero => rfl
    | succ k =>
      simp only [Memory.readN, List.getElem?_cons_succ]
      rw [ih (by omega), show i + 1 + k = i + (k + 1) by omega]

/-- What `MemRead` gives: exactly the bytes at the `n` indices from `i`. -/
theorem Memory.readN_eq {m : Memory} {space : Space} {i n : Nat} {bs : List Byte} :
    m.readN space i n = bs ↔ bs.length = n ∧ ∀ k, k < n → bs[k]? = some (m.byteAt space (i + k)) := by
  constructor
  · rintro rfl
    exact ⟨Memory.readN_length m space i n, fun k hk => Memory.readN_getElem? m space hk⟩
  · rintro ⟨hl, hk⟩
    refine List.ext_getElem? fun k => ?_
    by_cases h : k < n
    · rw [hk k h, Memory.readN_getElem? m space h]
    · rw [List.getElem?_eq_none (by simpa using h), List.getElem?_eq_none (by omega)]

/-- `MemRead` depends only on the bytes it reads. -/
theorem Memory.readN_congr {m m' : Memory} {space : Space} {i n : Nat}
    (h : ∀ k, k < n → m.read (i + k) = m'.read (i + k)) : m.readN space i n = m'.readN space i n :=
  Memory.readN_eq.2 ⟨Memory.readN_length .., fun k hk => by
    rw [Memory.readN_getElem? m' space hk]; simp only [Memory.byteAt, h k hk]⟩

/-- Bytes written from index `i` are read back from there. -/
theorem Memory.readN_writeN (m : Memory) (space : Space) (i : Nat) (bs : List Byte) :
    (Memory.writeN m i bs).readN space i bs.length = bs :=
  Memory.readN_eq.2 ⟨rfl, fun k hk => by
    rw [Memory.byteAt_writeN, if_pos (by omega), show i + k - i = k by omega]
    simp [List.getElem?_eq_getElem hk]⟩

/-- Appending one byte at the end of what is read. -/
theorem Memory.readN_write_end (m : Memory) (space : Space) (n : Nat) (v : Byte) :
    (Memory.write m n v).readN space 0 (n + 1) = m.readN space 0 n ++ [v] := by
  refine Memory.readN_eq.2 ⟨by simp, fun k hk => ?_⟩
  rw [Memory.byteAt_write, Nat.zero_add]
  by_cases hc : k = n
  · subst hc; simp
  · rw [if_neg hc, List.getElem?_append_left (by simp; omega), Memory.readN_getElem? m space (by omega),
      Nat.zero_add]

/-- The reset machine's buffers are in canonical form. -/
theorem State.reset_buffers_wf : State.reset.decBuf.wf ∧ State.reset.encBuf.wf :=
  ⟨List.Pairwise.nil, List.Pairwise.nil⟩

end Sys2Proof.Machine
end

