-- ==== Sys2Proof/Laws/State.lean ====
section
/-! SUPPORT. Each field after each named update of the state. -/

namespace Sys2Proof.Machine

/-! ### event -/

@[simp] theorem State.event_cfg (s : State) (e : Event) : (s.event e).cfg = s.cfg := rfl
@[simp] theorem State.event_decBuf (s : State) (e : Event) : (s.event e).decBuf = s.decBuf := rfl
@[simp] theorem State.event_decLen (s : State) (e : Event) : (s.event e).decLen = s.decLen := rfl
@[simp] theorem State.event_decEsc (s : State) (e : Event) : (s.event e).decEsc = s.decEsc := rfl
@[simp] theorem State.event_encBuf (s : State) (e : Event) : (s.event e).encBuf = s.encBuf := rfl
@[simp] theorem State.event_encLen (s : State) (e : Event) : (s.event e).encLen = s.encLen := rfl
@[simp] theorem State.event_phase (s : State) (e : Event) : (s.event e).phase = s.phase := rfl
@[simp] theorem State.event_frm (s : State) (e : Event) : (s.event e).frm = s.frm := rfl
@[simp] theorem State.event_arg (s : State) (e : Event) : (s.event e).arg = s.arg := rfl
@[simp] theorem State.event_req (s : State) (e : Event) : (s.event e).req = s.req := rfl
@[simp] theorem State.event_rsp (s : State) (e : Event) : (s.event e).rsp = s.rsp := rfl
@[simp] theorem State.event_err (s : State) (e : Event) : (s.event e).err = s.err := rfl
@[simp] theorem State.event_rxCnt (s : State) (e : Event) : (s.event e).rxCnt = s.rxCnt := rfl
@[simp] theorem State.event_input (s : State) (e : Event) : (s.event e).input = s.input := rfl
@[simp] theorem State.event_events (s : State) (e : Event) : (s.event e).events = s.events ++ [e] := rfl
@[simp] theorem State.event_draws (s : State) (e : Event) : (s.event e).draws = s.draws := rfl
@[simp] theorem State.event_ret (s : State) (e : Event) : (s.event e).ret = s.ret := rfl
@[simp] theorem State.event_calls (s : State) (e : Event) : (s.event e).calls = s.calls := rfl

/-! ### recordErr -/

@[simp] theorem State.recordErr_cfg (s : State) (e : Err) : (s.recordErr e).cfg = s.cfg := rfl
@[simp] theorem State.recordErr_decBuf (s : State) (e : Err) : (s.recordErr e).decBuf = s.decBuf := rfl
@[simp] theorem State.recordErr_decLen (s : State) (e : Err) : (s.recordErr e).decLen = s.decLen := rfl
@[simp] theorem State.recordErr_decEsc (s : State) (e : Err) : (s.recordErr e).decEsc = s.decEsc := rfl
@[simp] theorem State.recordErr_encBuf (s : State) (e : Err) : (s.recordErr e).encBuf = s.encBuf := rfl
@[simp] theorem State.recordErr_encLen (s : State) (e : Err) : (s.recordErr e).encLen = s.encLen := rfl
@[simp] theorem State.recordErr_phase (s : State) (e : Err) : (s.recordErr e).phase = s.phase := rfl
@[simp] theorem State.recordErr_frm (s : State) (e : Err) : (s.recordErr e).frm = s.frm := rfl
@[simp] theorem State.recordErr_arg (s : State) (e : Err) : (s.recordErr e).arg = s.arg := rfl
@[simp] theorem State.recordErr_req (s : State) (e : Err) : (s.recordErr e).req = s.req := rfl
@[simp] theorem State.recordErr_rsp (s : State) (e : Err) : (s.recordErr e).rsp = s.rsp := rfl
@[simp] theorem State.recordErr_err (s : State) (e : Err) : (s.recordErr e).err = some e := rfl
@[simp] theorem State.recordErr_rxCnt (s : State) (e : Err) : (s.recordErr e).rxCnt = s.rxCnt := rfl
@[simp] theorem State.recordErr_input (s : State) (e : Err) : (s.recordErr e).input = s.input := rfl
@[simp] theorem State.recordErr_events (s : State) (e : Err) : (s.recordErr e).events = s.events ++ [.err e] := rfl
@[simp] theorem State.recordErr_draws (s : State) (e : Err) : (s.recordErr e).draws = s.draws := rfl
@[simp] theorem State.recordErr_ret (s : State) (e : Err) : (s.recordErr e).ret = s.ret := rfl
@[simp] theorem State.recordErr_calls (s : State) (e : Err) : (s.recordErr e).calls = s.calls := rfl

/-! ### returns -/

@[simp] theorem State.returns_cfg (s : State) (r : Result) : (s.returns r).cfg = s.cfg := rfl
@[simp] theorem State.returns_decBuf (s : State) (r : Result) : (s.returns r).decBuf = s.decBuf := rfl
@[simp] theorem State.returns_decLen (s : State) (r : Result) : (s.returns r).decLen = s.decLen := rfl
@[simp] theorem State.returns_decEsc (s : State) (r : Result) : (s.returns r).decEsc = s.decEsc := rfl
@[simp] theorem State.returns_encBuf (s : State) (r : Result) : (s.returns r).encBuf = s.encBuf := rfl
@[simp] theorem State.returns_encLen (s : State) (r : Result) : (s.returns r).encLen = s.encLen := rfl
@[simp] theorem State.returns_phase (s : State) (r : Result) : (s.returns r).phase = s.phase := rfl
@[simp] theorem State.returns_frm (s : State) (r : Result) : (s.returns r).frm = s.frm := rfl
@[simp] theorem State.returns_arg (s : State) (r : Result) : (s.returns r).arg = s.arg := rfl
@[simp] theorem State.returns_req (s : State) (r : Result) : (s.returns r).req = s.req := rfl
@[simp] theorem State.returns_rsp (s : State) (r : Result) : (s.returns r).rsp = s.rsp := rfl
@[simp] theorem State.returns_err (s : State) (r : Result) : (s.returns r).err = s.err := rfl
@[simp] theorem State.returns_rxCnt (s : State) (r : Result) : (s.returns r).rxCnt = s.rxCnt := rfl
@[simp] theorem State.returns_input (s : State) (r : Result) : (s.returns r).input = s.input := rfl
@[simp] theorem State.returns_events (s : State) (r : Result) : (s.returns r).events = s.events := rfl
@[simp] theorem State.returns_draws (s : State) (r : Result) : (s.returns r).draws = s.draws := rfl
@[simp] theorem State.returns_ret (s : State) (r : Result) : (s.returns r).ret = r := rfl
@[simp] theorem State.returns_calls (s : State) (r : Result) : (s.returns r).calls = s.calls := rfl

/-! ### raises -/

@[simp] theorem State.raises_cfg (s : State) (e : Err) : (s.raises e).cfg = s.cfg := rfl
@[simp] theorem State.raises_decBuf (s : State) (e : Err) : (s.raises e).decBuf = s.decBuf := rfl
@[simp] theorem State.raises_decLen (s : State) (e : Err) : (s.raises e).decLen = s.decLen := rfl
@[simp] theorem State.raises_decEsc (s : State) (e : Err) : (s.raises e).decEsc = s.decEsc := rfl
@[simp] theorem State.raises_encBuf (s : State) (e : Err) : (s.raises e).encBuf = s.encBuf := rfl
@[simp] theorem State.raises_encLen (s : State) (e : Err) : (s.raises e).encLen = s.encLen := rfl
@[simp] theorem State.raises_phase (s : State) (e : Err) : (s.raises e).phase = s.phase := rfl
@[simp] theorem State.raises_frm (s : State) (e : Err) : (s.raises e).frm = s.frm := rfl
@[simp] theorem State.raises_arg (s : State) (e : Err) : (s.raises e).arg = s.arg := rfl
@[simp] theorem State.raises_req (s : State) (e : Err) : (s.raises e).req = s.req := rfl
@[simp] theorem State.raises_rsp (s : State) (e : Err) : (s.raises e).rsp = s.rsp := rfl
@[simp] theorem State.raises_err (s : State) (e : Err) : (s.raises e).err = some e := rfl
@[simp] theorem State.raises_rxCnt (s : State) (e : Err) : (s.raises e).rxCnt = s.rxCnt := rfl
@[simp] theorem State.raises_input (s : State) (e : Err) : (s.raises e).input = s.input := rfl
@[simp] theorem State.raises_events (s : State) (e : Err) : (s.raises e).events = s.events ++ [.err e] := rfl
@[simp] theorem State.raises_draws (s : State) (e : Err) : (s.raises e).draws = s.draws := rfl
@[simp] theorem State.raises_ret (s : State) (e : Err) : (s.raises e).ret = .raised e := rfl
@[simp] theorem State.raises_calls (s : State) (e : Err) : (s.raises e).calls = s.calls := rfl

/-! ### decReset -/

@[simp] theorem State.decReset_cfg (s : State) : (s.decReset).cfg = s.cfg := rfl
@[simp] theorem State.decReset_decBuf (s : State) : (s.decReset).decBuf = s.decBuf := rfl
@[simp] theorem State.decReset_decLen (s : State) : (s.decReset).decLen = 0 := rfl
@[simp] theorem State.decReset_decEsc (s : State) : (s.decReset).decEsc = false := rfl
@[simp] theorem State.decReset_encBuf (s : State) : (s.decReset).encBuf = s.encBuf := rfl
@[simp] theorem State.decReset_encLen (s : State) : (s.decReset).encLen = s.encLen := rfl
@[simp] theorem State.decReset_phase (s : State) : (s.decReset).phase = s.phase := rfl
@[simp] theorem State.decReset_frm (s : State) : (s.decReset).frm = none := rfl
@[simp] theorem State.decReset_arg (s : State) : (s.decReset).arg = none := rfl
@[simp] theorem State.decReset_req (s : State) : (s.decReset).req = s.req := rfl
@[simp] theorem State.decReset_rsp (s : State) : (s.decReset).rsp = s.rsp := rfl
@[simp] theorem State.decReset_err (s : State) : (s.decReset).err = s.err := rfl
@[simp] theorem State.decReset_rxCnt (s : State) : (s.decReset).rxCnt = s.rxCnt := rfl
@[simp] theorem State.decReset_input (s : State) : (s.decReset).input = s.input := rfl
@[simp] theorem State.decReset_events (s : State) : (s.decReset).events = s.events := rfl
@[simp] theorem State.decReset_draws (s : State) : (s.decReset).draws = s.draws := rfl
@[simp] theorem State.decReset_ret (s : State) : (s.decReset).ret = s.ret := rfl
@[simp] theorem State.decReset_calls (s : State) : (s.decReset).calls = s.calls := rfl

/-! ### encReset -/

@[simp] theorem State.encReset_cfg (s : State) : (s.encReset).cfg = s.cfg := rfl
@[simp] theorem State.encReset_decBuf (s : State) : (s.encReset).decBuf = s.decBuf := rfl
@[simp] theorem State.encReset_decLen (s : State) : (s.encReset).decLen = s.decLen := rfl
@[simp] theorem State.encReset_decEsc (s : State) : (s.encReset).decEsc = s.decEsc := rfl
@[simp] theorem State.encReset_encBuf (s : State) : (s.encReset).encBuf = s.encBuf := rfl
@[simp] theorem State.encReset_encLen (s : State) : (s.encReset).encLen = 0 := rfl
@[simp] theorem State.encReset_phase (s : State) : (s.encReset).phase = s.phase := rfl
@[simp] theorem State.encReset_frm (s : State) : (s.encReset).frm = s.frm := rfl
@[simp] theorem State.encReset_arg (s : State) : (s.encReset).arg = s.arg := rfl
@[simp] theorem State.encReset_req (s : State) : (s.encReset).req = s.req := rfl
@[simp] theorem State.encReset_rsp (s : State) : (s.encReset).rsp = s.rsp := rfl
@[simp] theorem State.encReset_err (s : State) : (s.encReset).err = s.err := rfl
@[simp] theorem State.encReset_rxCnt (s : State) : (s.encReset).rxCnt = s.rxCnt := rfl
@[simp] theorem State.encReset_input (s : State) : (s.encReset).input = s.input := rfl
@[simp] theorem State.encReset_events (s : State) : (s.encReset).events = s.events := rfl
@[simp] theorem State.encReset_draws (s : State) : (s.encReset).draws = s.draws := rfl
@[simp] theorem State.encReset_ret (s : State) : (s.encReset).ret = s.ret := rfl
@[simp] theorem State.encReset_calls (s : State) : (s.encReset).calls = s.calls := rfl

/-! ### returnToIdle -/

@[simp] theorem State.returnToIdle_cfg (s : State) : (s.returnToIdle).cfg = s.cfg := rfl
@[simp] theorem State.returnToIdle_decBuf (s : State) : (s.returnToIdle).decBuf = s.decBuf := rfl
@[simp] theorem State.returnToIdle_decLen (s : State) : (s.returnToIdle).decLen = 0 := rfl
@[simp] theorem State.returnToIdle_decEsc (s : State) : (s.returnToIdle).decEsc = false := rfl
@[simp] theorem State.returnToIdle_encBuf (s : State) : (s.returnToIdle).encBuf = s.encBuf := rfl
@[simp] theorem State.returnToIdle_encLen (s : State) : (s.returnToIdle).encLen = 0 := rfl
@[simp] theorem State.returnToIdle_phase (s : State) : (s.returnToIdle).phase = .idle := rfl
@[simp] theorem State.returnToIdle_frm (s : State) : (s.returnToIdle).frm = none := rfl
@[simp] theorem State.returnToIdle_arg (s : State) : (s.returnToIdle).arg = none := rfl
@[simp] theorem State.returnToIdle_req (s : State) : (s.returnToIdle).req = s.req := rfl
@[simp] theorem State.returnToIdle_rsp (s : State) : (s.returnToIdle).rsp = none := rfl
@[simp] theorem State.returnToIdle_err (s : State) : (s.returnToIdle).err = s.err := rfl
@[simp] theorem State.returnToIdle_rxCnt (s : State) : (s.returnToIdle).rxCnt = 0 := rfl
@[simp] theorem State.returnToIdle_input (s : State) : (s.returnToIdle).input = s.input := rfl
@[simp] theorem State.returnToIdle_events (s : State) : (s.returnToIdle).events = s.events := rfl
@[simp] theorem State.returnToIdle_draws (s : State) : (s.returnToIdle).draws = s.draws := rfl
@[simp] theorem State.returnToIdle_ret (s : State) : (s.returnToIdle).ret = s.ret := rfl
@[simp] theorem State.returnToIdle_calls (s : State) : (s.returnToIdle).calls = s.calls := rfl

/-! ### setEsc -/

@[simp] theorem State.setEsc_cfg (s : State) : (s.setEsc).cfg = s.cfg := rfl
@[simp] theorem State.setEsc_decBuf (s : State) : (s.setEsc).decBuf = s.decBuf := rfl
@[simp] theorem State.setEsc_decLen (s : State) : (s.setEsc).decLen = s.decLen := rfl
@[simp] theorem State.setEsc_decEsc (s : State) : (s.setEsc).decEsc = true := rfl
@[simp] theorem State.setEsc_encBuf (s : State) : (s.setEsc).encBuf = s.encBuf := rfl
@[simp] theorem State.setEsc_encLen (s : State) : (s.setEsc).encLen = s.encLen := rfl
@[simp] theorem State.setEsc_phase (s : State) : (s.setEsc).phase = s.phase := rfl
@[simp] theorem State.setEsc_frm (s : State) : (s.setEsc).frm = s.frm := rfl
@[simp] theorem State.setEsc_arg (s : State) : (s.setEsc).arg = s.arg := rfl
@[simp] theorem State.setEsc_req (s : State) : (s.setEsc).req = s.req := rfl
@[simp] theorem State.setEsc_rsp (s : State) : (s.setEsc).rsp = s.rsp := rfl
@[simp] theorem State.setEsc_err (s : State) : (s.setEsc).err = s.err := rfl
@[simp] theorem State.setEsc_rxCnt (s : State) : (s.setEsc).rxCnt = s.rxCnt := rfl
@[simp] theorem State.setEsc_input (s : State) : (s.setEsc).input = s.input := rfl
@[simp] theorem State.setEsc_events (s : State) : (s.setEsc).events = s.events := rfl
@[simp] theorem State.setEsc_draws (s : State) : (s.setEsc).draws = s.draws := rfl
@[simp] theorem State.setEsc_ret (s : State) : (s.setEsc).ret = s.ret := rfl
@[simp] theorem State.setEsc_calls (s : State) : (s.setEsc).calls = s.calls := rfl

/-! ### clearEsc -/

@[simp] theorem State.clearEsc_cfg (s : State) : (s.clearEsc).cfg = s.cfg := rfl
@[simp] theorem State.clearEsc_decBuf (s : State) : (s.clearEsc).decBuf = s.decBuf := rfl
@[simp] theorem State.clearEsc_decLen (s : State) : (s.clearEsc).decLen = s.decLen := rfl
@[simp] theorem State.clearEsc_decEsc (s : State) : (s.clearEsc).decEsc = false := rfl
@[simp] theorem State.clearEsc_encBuf (s : State) : (s.clearEsc).encBuf = s.encBuf := rfl
@[simp] theorem State.clearEsc_encLen (s : State) : (s.clearEsc).encLen = s.encLen := rfl
@[simp] theorem State.clearEsc_phase (s : State) : (s.clearEsc).phase = s.phase := rfl
@[simp] theorem State.clearEsc_frm (s : State) : (s.clearEsc).frm = s.frm := rfl
@[simp] theorem State.clearEsc_arg (s : State) : (s.clearEsc).arg = s.arg := rfl
@[simp] theorem State.clearEsc_req (s : State) : (s.clearEsc).req = s.req := rfl
@[simp] theorem State.clearEsc_rsp (s : State) : (s.clearEsc).rsp = s.rsp := rfl
@[simp] theorem State.clearEsc_err (s : State) : (s.clearEsc).err = s.err := rfl
@[simp] theorem State.clearEsc_rxCnt (s : State) : (s.clearEsc).rxCnt = s.rxCnt := rfl
@[simp] theorem State.clearEsc_input (s : State) : (s.clearEsc).input = s.input := rfl
@[simp] theorem State.clearEsc_events (s : State) : (s.clearEsc).events = s.events := rfl
@[simp] theorem State.clearEsc_draws (s : State) : (s.clearEsc).draws = s.draws := rfl
@[simp] theorem State.clearEsc_ret (s : State) : (s.clearEsc).ret = s.ret := rfl
@[simp] theorem State.clearEsc_calls (s : State) : (s.clearEsc).calls = s.calls := rfl

/-! ### calling -/

@[simp] theorem State.calling_cfg (s : State) (c : GpioCall) (a : GpioAnswer) : (s.calling c a).cfg = s.cfg := rfl
@[simp] theorem State.calling_decBuf (s : State) (c : GpioCall) (a : GpioAnswer) : (s.calling c a).decBuf = s.decBuf := rfl
@[simp] theorem State.calling_decLen (s : State) (c : GpioCall) (a : GpioAnswer) : (s.calling c a).decLen = s.decLen := rfl
@[simp] theorem State.calling_decEsc (s : State) (c : GpioCall) (a : GpioAnswer) : (s.calling c a).decEsc = s.decEsc := rfl
@[simp] theorem State.calling_encBuf (s : State) (c : GpioCall) (a : GpioAnswer) : (s.calling c a).encBuf = s.encBuf := rfl
@[simp] theorem State.calling_encLen (s : State) (c : GpioCall) (a : GpioAnswer) : (s.calling c a).encLen = s.encLen := rfl
@[simp] theorem State.calling_phase (s : State) (c : GpioCall) (a : GpioAnswer) : (s.calling c a).phase = s.phase := rfl
@[simp] theorem State.calling_frm (s : State) (c : GpioCall) (a : GpioAnswer) : (s.calling c a).frm = s.frm := rfl
@[simp] theorem State.calling_arg (s : State) (c : GpioCall) (a : GpioAnswer) : (s.calling c a).arg = s.arg := rfl
@[simp] theorem State.calling_req (s : State) (c : GpioCall) (a : GpioAnswer) : (s.calling c a).req = s.req := rfl
@[simp] theorem State.calling_rsp (s : State) (c : GpioCall) (a : GpioAnswer) : (s.calling c a).rsp = s.rsp := rfl
@[simp] theorem State.calling_err (s : State) (c : GpioCall) (a : GpioAnswer) : (s.calling c a).err = s.err := rfl
@[simp] theorem State.calling_rxCnt (s : State) (c : GpioCall) (a : GpioAnswer) : (s.calling c a).rxCnt = s.rxCnt := rfl
@[simp] theorem State.calling_input (s : State) (c : GpioCall) (a : GpioAnswer) : (s.calling c a).input = s.input := rfl
@[simp] theorem State.calling_events (s : State) (c : GpioCall) (a : GpioAnswer) : (s.calling c a).events = s.events ++ [.gpio c a] := rfl
@[simp] theorem State.calling_draws (s : State) (c : GpioCall) (a : GpioAnswer) : (s.calling c a).draws = s.draws + 1 := rfl
@[simp] theorem State.calling_ret (s : State) (c : GpioCall) (a : GpioAnswer) : (s.calling c a).ret = s.ret := rfl
@[simp] theorem State.calling_calls (s : State) (c : GpioCall) (a : GpioAnswer) : (s.calling c a).calls = s.calls := rfl

/-! ### accept -/

@[simp] theorem State.accept_cfg (s : State) (b : Byte) (rest : List Byte) : (s.accept b rest).cfg = s.cfg := rfl
@[simp] theorem State.accept_decBuf (s : State) (b : Byte) (rest : List Byte) : (s.accept b rest).decBuf = s.decBuf := rfl
@[simp] theorem State.accept_decLen (s : State) (b : Byte) (rest : List Byte) : (s.accept b rest).decLen = s.decLen := rfl
@[simp] theorem State.accept_decEsc (s : State) (b : Byte) (rest : List Byte) : (s.accept b rest).decEsc = s.decEsc := rfl
@[simp] theorem State.accept_encBuf (s : State) (b : Byte) (rest : List Byte) : (s.accept b rest).encBuf = s.encBuf := rfl
@[simp] theorem State.accept_encLen (s : State) (b : Byte) (rest : List Byte) : (s.accept b rest).encLen = s.encLen := rfl
@[simp] theorem State.accept_phase (s : State) (b : Byte) (rest : List Byte) : (s.accept b rest).phase = s.phase := rfl
@[simp] theorem State.accept_frm (s : State) (b : Byte) (rest : List Byte) : (s.accept b rest).frm = s.frm := rfl
@[simp] theorem State.accept_arg (s : State) (b : Byte) (rest : List Byte) : (s.accept b rest).arg = none := rfl
@[simp] theorem State.accept_req (s : State) (b : Byte) (rest : List Byte) : (s.accept b rest).req = s.req := rfl
@[simp] theorem State.accept_rsp (s : State) (b : Byte) (rest : List Byte) : (s.accept b rest).rsp = s.rsp := rfl
@[simp] theorem State.accept_err (s : State) (b : Byte) (rest : List Byte) : (s.accept b rest).err = s.err := rfl
@[simp] theorem State.accept_rxCnt (s : State) (b : Byte) (rest : List Byte) : (s.accept b rest).rxCnt = s.rxCnt := rfl
@[simp] theorem State.accept_input (s : State) (b : Byte) (rest : List Byte) : (s.accept b rest).input = rest := rfl
@[simp] theorem State.accept_events (s : State) (b : Byte) (rest : List Byte) : (s.accept b rest).events = s.events ++ [.inByte b] := rfl
@[simp] theorem State.accept_draws (s : State) (b : Byte) (rest : List Byte) : (s.accept b rest).draws = s.draws := rfl
@[simp] theorem State.accept_ret (s : State) (b : Byte) (rest : List Byte) : (s.accept b rest).ret = s.ret := rfl
@[simp] theorem State.accept_calls (s : State) (b : Byte) (rest : List Byte) : (s.accept b rest).calls = s.calls := rfl

/-! ### resetBlock -/

@[simp] theorem State.resetBlock_cfg (s : State) : (s.resetBlock).cfg = s.cfg := rfl
@[simp] theorem State.resetBlock_decBuf (s : State) : (s.resetBlock).decBuf = s.decBuf := rfl
@[simp] theorem State.resetBlock_decLen (s : State) : (s.resetBlock).decLen = 0 := rfl
@[simp] theorem State.resetBlock_decEsc (s : State) : (s.resetBlock).decEsc = false := rfl
@[simp] theorem State.resetBlock_encBuf (s : State) : (s.resetBlock).encBuf = s.encBuf := rfl
@[simp] theorem State.resetBlock_encLen (s : State) : (s.resetBlock).encLen = 0 := rfl
@[simp] theorem State.resetBlock_phase (s : State) : (s.resetBlock).phase = .idle := rfl
@[simp] theorem State.resetBlock_frm (s : State) : (s.resetBlock).frm = none := rfl
@[simp] theorem State.resetBlock_arg (s : State) : (s.resetBlock).arg = none := rfl
@[simp] theorem State.resetBlock_req (s : State) : (s.resetBlock).req = none := rfl
@[simp] theorem State.resetBlock_rsp (s : State) : (s.resetBlock).rsp = none := rfl
@[simp] theorem State.resetBlock_err (s : State) : (s.resetBlock).err = none := rfl
@[simp] theorem State.resetBlock_rxCnt (s : State) : (s.resetBlock).rxCnt = 0 := rfl
@[simp] theorem State.resetBlock_input (s : State) : (s.resetBlock).input = Config.inputAfterReset s.draws s.input := rfl
@[simp] theorem State.resetBlock_events (s : State) : (s.resetBlock).events = s.events := rfl
@[simp] theorem State.resetBlock_draws (s : State) : (s.resetBlock).draws = s.draws + 1 := rfl
@[simp] theorem State.resetBlock_ret (s : State) : (s.resetBlock).ret = .unit := rfl
@[simp] theorem State.resetBlock_calls (s : State) : (s.resetBlock).calls = s.calls := rfl

/-! ### placeFrame -/

@[simp] theorem State.placeFrame_cfg (s : State) (bytes : List Byte) : (s.placeFrame bytes).cfg =
    { s.cfg with
      decCap := s.cfg.decCap + (bytes.length + 1), payloadCap := s.cfg.payloadCap + (bytes.length + 1) } := rfl
@[simp] theorem State.placeFrame_decBuf (s : State) (bytes : List Byte) : (s.placeFrame bytes).decBuf = s.decBuf.writeN 0 bytes := rfl
@[simp] theorem State.placeFrame_decLen (s : State) (bytes : List Byte) : (s.placeFrame bytes).decLen = bytes.length := rfl
@[simp] theorem State.placeFrame_decEsc (s : State) (bytes : List Byte) : (s.placeFrame bytes).decEsc = s.decEsc := rfl
@[simp] theorem State.placeFrame_encBuf (s : State) (bytes : List Byte) : (s.placeFrame bytes).encBuf = s.encBuf := rfl
@[simp] theorem State.placeFrame_encLen (s : State) (bytes : List Byte) : (s.placeFrame bytes).encLen = s.encLen := rfl
@[simp] theorem State.placeFrame_phase (s : State) (bytes : List Byte) : (s.placeFrame bytes).phase = .frameReady := rfl
@[simp] theorem State.placeFrame_frm (s : State) (bytes : List Byte) : (s.placeFrame bytes).frm = s.frm := rfl
@[simp] theorem State.placeFrame_arg (s : State) (bytes : List Byte) : (s.placeFrame bytes).arg = s.arg := rfl
@[simp] theorem State.placeFrame_req (s : State) (bytes : List Byte) : (s.placeFrame bytes).req = s.req := rfl
@[simp] theorem State.placeFrame_rsp (s : State) (bytes : List Byte) : (s.placeFrame bytes).rsp = s.rsp := rfl
@[simp] theorem State.placeFrame_err (s : State) (bytes : List Byte) : (s.placeFrame bytes).err = s.err := rfl
@[simp] theorem State.placeFrame_rxCnt (s : State) (bytes : List Byte) : (s.placeFrame bytes).rxCnt = s.rxCnt := rfl
@[simp] theorem State.placeFrame_input (s : State) (bytes : List Byte) : (s.placeFrame bytes).input = s.input := rfl
@[simp] theorem State.placeFrame_events (s : State) (bytes : List Byte) : (s.placeFrame bytes).events = s.events := rfl
@[simp] theorem State.placeFrame_draws (s : State) (bytes : List Byte) : (s.placeFrame bytes).draws = s.draws := rfl
@[simp] theorem State.placeFrame_ret (s : State) (bytes : List Byte) : (s.placeFrame bytes).ret = s.ret := rfl
@[simp] theorem State.placeFrame_calls (s : State) (bytes : List Byte) : (s.placeFrame bytes).calls = [] := rfl

/-! ### placeCall -/

@[simp] theorem State.placeCall_cfg (s : State) (i : Instr) : (s.placeCall i).cfg = s.cfg := rfl
@[simp] theorem State.placeCall_decBuf (s : State) (i : Instr) : (s.placeCall i).decBuf = s.decBuf := rfl
@[simp] theorem State.placeCall_decLen (s : State) (i : Instr) : (s.placeCall i).decLen = s.decLen := rfl
@[simp] theorem State.placeCall_decEsc (s : State) (i : Instr) : (s.placeCall i).decEsc = s.decEsc := rfl
@[simp] theorem State.placeCall_encBuf (s : State) (i : Instr) : (s.placeCall i).encBuf = s.encBuf := rfl
@[simp] theorem State.placeCall_encLen (s : State) (i : Instr) : (s.placeCall i).encLen = s.encLen := rfl
@[simp] theorem State.placeCall_phase (s : State) (i : Instr) : (s.placeCall i).phase = s.phase := rfl
@[simp] theorem State.placeCall_frm (s : State) (i : Instr) : (s.placeCall i).frm = s.frm := rfl
@[simp] theorem State.placeCall_arg (s : State) (i : Instr) : (s.placeCall i).arg = s.arg := rfl
@[simp] theorem State.placeCall_req (s : State) (i : Instr) : (s.placeCall i).req = s.req := rfl
@[simp] theorem State.placeCall_rsp (s : State) (i : Instr) : (s.placeCall i).rsp = s.rsp := rfl
@[simp] theorem State.placeCall_err (s : State) (i : Instr) : (s.placeCall i).err = s.err := rfl
@[simp] theorem State.placeCall_rxCnt (s : State) (i : Instr) : (s.placeCall i).rxCnt = s.rxCnt := rfl
@[simp] theorem State.placeCall_input (s : State) (i : Instr) : (s.placeCall i).input = s.input := rfl
@[simp] theorem State.placeCall_events (s : State) (i : Instr) : (s.placeCall i).events = s.events := rfl
@[simp] theorem State.placeCall_draws (s : State) (i : Instr) : (s.placeCall i).draws = s.draws := rfl
@[simp] theorem State.placeCall_ret (s : State) (i : Instr) : (s.placeCall i).ret = s.ret := rfl
@[simp] theorem State.placeCall_calls (s : State) (i : Instr) : (s.placeCall i).calls = i :: s.calls := rfl

/-! ### takeError -/

@[simp] theorem State.takeError_cfg (s : State) (e : Err) (h : Phase) : (s.takeError e h).cfg = s.cfg := by
  unfold State.takeError; split <;> rfl
@[simp] theorem State.takeError_decBuf (s : State) (e : Err) (h : Phase) : (s.takeError e h).decBuf = s.decBuf := by
  unfold State.takeError; split <;> rfl
@[simp] theorem State.takeError_decLen (s : State) (e : Err) (h : Phase) : (s.takeError e h).decLen = s.decLen := by
  unfold State.takeError; split <;> rfl
@[simp] theorem State.takeError_decEsc (s : State) (e : Err) (h : Phase) : (s.takeError e h).decEsc = s.decEsc := by
  unfold State.takeError; split <;> rfl
@[simp] theorem State.takeError_encBuf (s : State) (e : Err) (h : Phase) : (s.takeError e h).encBuf = s.encBuf := by
  unfold State.takeError; split <;> rfl
@[simp] theorem State.takeError_encLen (s : State) (e : Err) (h : Phase) : (s.takeError e h).encLen = s.encLen := by
  unfold State.takeError; split <;> rfl
@[simp] theorem State.takeError_phase (s : State) (e : Err) (h : Phase) : (s.takeError e h).phase = h := by
  unfold State.takeError; split <;> rfl
@[simp] theorem State.takeError_frm (s : State) (e : Err) (h : Phase) : (s.takeError e h).frm = s.frm := by
  unfold State.takeError; split <;> rfl
@[simp] theorem State.takeError_arg (s : State) (e : Err) (h : Phase) : (s.takeError e h).arg = s.arg := by
  unfold State.takeError; split <;> rfl
@[simp] theorem State.takeError_req (s : State) (e : Err) (h : Phase) : (s.takeError e h).req = s.req := by
  unfold State.takeError; split <;> rfl
theorem State.takeError_rsp (s : State) (e : Err) (h : Phase) :
    (s.takeError e h).rsp = match errorResponse s.cfg e with
      | some r => some r
      | none => s.rsp := by
  unfold State.takeError; split <;> simp_all
@[simp] theorem State.takeError_err (s : State) (e : Err) (h : Phase) : (s.takeError e h).err = some e := by
  unfold State.takeError; split <;> rfl
@[simp] theorem State.takeError_rxCnt (s : State) (e : Err) (h : Phase) : (s.takeError e h).rxCnt = s.rxCnt := by
  unfold State.takeError; split <;> rfl
@[simp] theorem State.takeError_input (s : State) (e : Err) (h : Phase) : (s.takeError e h).input = s.input := by
  unfold State.takeError; split <;> rfl
@[simp] theorem State.takeError_events (s : State) (e : Err) (h : Phase) : (s.takeError e h).events = s.events ++ [.err e] := by
  unfold State.takeError; split <;> rfl
@[simp] theorem State.takeError_draws (s : State) (e : Err) (h : Phase) : (s.takeError e h).draws = s.draws := by
  unfold State.takeError; split <;> rfl
@[simp] theorem State.takeError_ret (s : State) (e : Err) (h : Phase) : (s.takeError e h).ret = s.ret := by
  unfold State.takeError; split <;> rfl
@[simp] theorem State.takeError_calls (s : State) (e : Err) (h : Phase) : (s.takeError e h).calls = s.calls := by
  unfold State.takeError; split <;> rfl

/-- An error with a response, entered (R313). -/
theorem State.takeError_of_response {s : State} {e : Err} {r : Response} (h : Phase)
    (he : errorResponse s.cfg e = some r) :
    s.takeError e h = { s with err := some e, events := s.events ++ [.err e], rsp := some r, phase := h } := by
  simp [State.takeError, he, State.recordErr]

/-- An error without a response, entered (R313). -/
theorem State.takeError_of_silent {s : State} {e : Err} (h : Phase) (he : errorResponse s.cfg e = none) :
    s.takeError e h = { s with err := some e, events := s.events ++ [.err e], phase := h } := by
  simp [State.takeError, he, State.recordErr]

end Sys2Proof.Machine
end

