-- ==== Sys2Proof/Laws/Decoder.lean ====
section
/-! SUPPORT. The laws of the SLIP decoder's operations: what each can do, and how a feed runs. -/

namespace Sys2Proof.Machine

/-- The decoder's part of a state: what its byte operations may write. -/
def State.withDecoder (s t : State) : State :=
  { s with decBuf := t.decBuf, decLen := t.decLen, decEsc := t.decEsc }

/-- `APPEND` with room (R100). -/
theorem decAppend_room {s : State} (v : Byte) (pos : Nat) (h : s.decLen < s.cfg.decCap) :
    decAppend v pos s =
      ({ s with decBuf := s.decBuf.write s.decLen v, decLen := s.decLen + 1 }, .ok .continues) := by
  simp [decAppend, h]

/-- `APPEND` at a full buffer (R100). -/
theorem decAppend_full {s : State} (v : Byte) (pos : Nat) (h : s.cfg.decCap ≤ s.decLen) :
    decAppend v pos s = (s, .error (.bufferFullDec pos)) := by
  simp [decAppend, Nat.not_lt.2 h]

/-- Everything `APPEND` can do. -/
theorem decAppend_cases (v : Byte) (pos : Nat) (s : State) :
    (s.decLen < s.cfg.decCap ∧ decAppend v pos s =
      ({ s with decBuf := s.decBuf.write s.decLen v, decLen := s.decLen + 1 }, .ok .continues))
    ∨ (s.cfg.decCap ≤ s.decLen ∧ decAppend v pos s = (s, .error (.bufferFullDec pos))) := by
  by_cases h : s.decLen < s.cfg.decCap
  · exact .inl ⟨h, decAppend_room v pos h⟩
  · exact .inr ⟨Nat.not_lt.1 h, decAppend_full v pos (Nat.not_lt.1 h)⟩

/-- Everything `DEC_STEP` can do: append one byte (with the flag clear after it), set the flag, complete, or raise
BadEsc or BufferFull with the buffer and its cursor as they were. -/
theorem decStep_cases (b : Byte) (pos : Nat) (s : State) :
    (∃ v, s.decLen < s.cfg.decCap ∧ decStep b pos s =
      ({ s with decEsc := false, decBuf := s.decBuf.write s.decLen v, decLen := s.decLen + 1 },
        .ok .continues))
    ∨ (s.decEsc = false ∧ b = slipEsc ∧ decStep b pos s = ({ s with decEsc := true }, .ok .continues))
    ∨ (s.decEsc = false ∧ b = slipEnd ∧ decStep b pos s = (s, .ok .completes))
    ∨ (s.decEsc = true ∧ decStep b pos s = ({ s with decEsc := false }, .error (.badEsc pos)))
    ∨ (b ≠ slipEnd ∧ s.cfg.decCap ≤ s.decLen
        ∧ decStep b pos s = ({ s with decEsc := false }, .error (.bufferFullDec pos))) := by
  cases hs : s.decEsc with
  | true =>
    by_cases h1 : b = slipEscEnd
    · subst h1
      rcases decAppend_cases slipEnd pos s.clearEsc with ⟨h, e⟩ | ⟨h, e⟩
      · exact .inl ⟨slipEnd, h, by simpa [decStep, decClass, hs, State.clearEsc] using e⟩
      · exact .inr (.inr (.inr (.inr ⟨by decide, h, by simpa [decStep, decClass, hs, State.clearEsc] using e⟩)))
    · by_cases h2 : b = slipEscEsc
      · subst h2
        rcases decAppend_cases slipEsc pos s.clearEsc with ⟨h, e⟩ | ⟨h, e⟩
        · exact .inl ⟨slipEsc, h, by
            simpa [decStep, decClass, hs, h1, State.clearEsc] using e⟩
        · exact .inr (.inr (.inr (.inr ⟨by decide, h, by
            simpa [decStep, decClass, hs, h1, State.clearEsc] using e⟩)))
      · exact .inr (.inr (.inr (.inl ⟨rfl, by simp [decStep, decClass, hs, h1, h2, State.clearEsc]⟩)))
  | false =>
    by_cases h1 : b = slipEnd
    · exact .inr (.inr (.inl ⟨rfl, h1, by simp [decStep, decClass, hs, h1]⟩))
    · by_cases h2 : b = slipEsc
      · exact .inr (.inl ⟨rfl, h2, by
          subst h2; simp [decStep, decClass, hs, h1, State.setEsc]⟩)
      · have hc : ({ s with decEsc := false } : State) = s := by cases s; simp_all
        rcases decAppend_cases b pos s with ⟨h, e⟩ | ⟨h, e⟩
        · exact .inl ⟨b, h, by simp [decStep, decClass, hs, h1, h2, e]⟩
        · refine .inr (.inr (.inr (.inr ⟨h1, h, ?_⟩)))
          rw [hc]; simp [decStep, decClass, hs, h1, h2, e]

/-- `DEC_STEP` writes the decoder only. -/
theorem decStep_frame (b : Byte) (pos : Nat) (s : State) :
    (decStep b pos s).1 = s.withDecoder (decStep b pos s).1 := by
  rcases decStep_cases b pos s with ⟨v, _, e⟩ | ⟨_, _, e⟩ | ⟨_, _, e⟩ | ⟨_, e⟩ | ⟨_, _, e⟩ <;>
    rw [e] <;> rfl

/-- `DEC_STEP` depends on the decoder and the capacity only. -/
theorem decStep_congr {s s' : State} (b : Byte) (pos : Nat) (hc : s'.cfg = s.cfg)
    (hd : s'.withDecoder s = s') :
    decStep b pos s' = (s'.withDecoder (decStep b pos s).1, (decStep b pos s).2) := by
  have h1 : s'.decBuf = s.decBuf := by rw [← hd]; rfl
  have h2 : s'.decLen = s.decLen := by rw [← hd]; rfl
  have h3 : s'.decEsc = s.decEsc := by rw [← hd]; rfl
  by_cases hl : s.decLen < s.cfg.decCap <;>
    (cases s; cases s'
     simp only at h1 h2 h3 hc hl
     subst h1 h2 h3 hc
     simp only [decStep, decAppend, State.clearEsc, State.setEsc, hl, if_true, if_false]
     split <;> rfl)

/-- A feed of nothing. -/
@[simp] theorem decFeedFrom_nil (i : Nat) (s : State) : decFeedFrom i [] s = (s, .ok (i, false)) := rfl

/-- A feed that runs to its chunk's end goes on with the next chunk from there (R112). -/
theorem decFeedFrom_append_of_more {c1 : List Byte} {i : Nat} {s t : State} {n : Nat} (c2 : List Byte)
    (h : decFeedFrom i c1 s = (t, .ok (n, false))) :
    n = i + c1.length ∧ decFeedFrom i (c1 ++ c2) s = decFeedFrom (i + c1.length) c2 t := by
  induction c1 generalizing i s with
  | nil =>
    simp only [decFeedFrom_nil, Prod.mk.injEq, Except.ok.injEq] at h
    obtain ⟨rfl, rfl, _⟩ := h; simp
  | cons b c1 ih =>
    simp only [decFeedFrom, List.cons_append] at h ⊢
    rcases hd : decStep b i s with ⟨u, e | r⟩
    · simp [hd] at h
    · cases r with
      | completes => simp [hd, frameComplete] at h
      | continues =>
        simp only [hd, frameComplete, Bool.false_eq_true, if_false] at h ⊢
        obtain ⟨hn, ha⟩ := ih h
        exact ⟨by simp only [List.length_cons]; omega, by
          rw [ha]; congr 1; simp only [List.length_cons]; omega⟩

/-- A feed that ended at an END or an error does not look at what follows (R108). -/
theorem decFeedFrom_append_of_ended {c1 : List Byte} {i : Nat} {s t : State}
    {r : Except Err (Nat × Bool)} (c2 : List Byte) (h : decFeedFrom i c1 s = (t, r))
    (hr : ∀ n, r ≠ .ok (n, false)) : decFeedFrom i (c1 ++ c2) s = (t, r) := by
  induction c1 generalizing i s with
  | nil =>
    simp only [decFeedFrom_nil, Prod.mk.injEq] at h
    exact absurd h.2.symm (hr i)
  | cons b c1 ih =>
    simp only [decFeedFrom, List.cons_append] at h ⊢
    rcases hd : decStep b i s with ⟨u, e | r'⟩
    · simpa [hd] using h
    · cases r' with
      | completes => simpa [hd, frameComplete] using h
      | continues =>
        simp only [hd, frameComplete, Bool.false_eq_true, if_false] at h ⊢
        exact ih h

/-- A feed writes the decoder only; its cursor does not move back, and of the buffer it writes the indices the cursor
passes. -/
theorem decFeedFrom_frame (i : Nat) (chunk : List Byte) (s : State) :
    (decFeedFrom i chunk s).1 = s.withDecoder (decFeedFrom i chunk s).1
    ∧ s.decLen ≤ (decFeedFrom i chunk s).1.decLen
    ∧ ∀ a, a < s.decLen ∨ (decFeedFrom i chunk s).1.decLen ≤ a →
        (decFeedFrom i chunk s).1.decBuf.read a = s.decBuf.read a := by
  induction chunk generalizing i s with
  | nil => exact ⟨rfl, Nat.le_refl _, fun _ _ => rfl⟩
  | cons b chunk ih =>
    simp only [decFeedFrom]
    rcases decStep_cases b i s with ⟨v, _, e⟩ | ⟨_, _, e⟩ | ⟨_, _, e⟩ | ⟨_, e⟩ | ⟨_, _, e⟩ <;>
      simp only [e, frameComplete, Bool.false_eq_true, if_false, if_true]
    · obtain ⟨h1, h2, h3⟩ := ih (i + 1) { s with
        decEsc := false, decBuf := s.decBuf.write s.decLen v, decLen := s.decLen + 1 }
      simp only at h2 h3
      refine ⟨by rw [h1]; rfl, by omega, fun a ha => ?_⟩
      rw [h3 a (by omega), Memory.read_write_of_ne]; omega
    · obtain ⟨h1, h2, h3⟩ := ih (i + 1) { s with decEsc := true }
      exact ⟨by rw [h1]; rfl, h2, h3⟩
    · exact ⟨rfl, Nat.le_refl _, fun _ _ => trivial⟩
    · exact ⟨rfl, Nat.le_refl _, fun _ _ => trivial⟩
    · exact ⟨rfl, Nat.le_refl _, fun _ _ => trivial⟩

/-- The bytes held after one more append. -/
theorem State.decBytes_append (s : State) (v : Byte) :
    State.decBytes { s with decBuf := s.decBuf.write s.decLen v, decLen := s.decLen + 1 }
      = s.decBytes ++ [v] :=
  Memory.readN_write_end s.decBuf .dec s.decLen v

/-- The slice holds as many bytes as the cursor says. -/
@[simp] theorem State.decBytes_length (s : State) : s.decBytes.length = s.decLen :=
  Memory.readN_length s.decBuf .dec 0 s.decLen

/-- Decoding the encoded unit of a byte, with room, appends that byte (R113). -/
theorem decFeedFrom_encUnit {s : State} (b : Byte) (i : Nat) (rest : List Byte) (hesc : s.decEsc = false)
    (hroom : s.decLen < s.cfg.decCap) :
    decFeedFrom i (encUnit b ++ rest) s =
      decFeedFrom (i + (encUnit b).length) rest
        { s with decBuf := s.decBuf.write s.decLen b, decLen := s.decLen + 1 } := by
  have e0 : ({ s with decEsc := false } : State) = s := by cases s; simp_all
  by_cases h1 : b = slipEnd
  · subst h1
    have hu : encUnit slipEnd = [slipEsc, slipEscEnd] := by decide
    have s1 : decStep slipEsc i s = (s.setEsc, .ok .continues) := by
      have : slipEsc ≠ slipEnd := by decide
      simp [decStep, decClass, hesc, this]
    have s2 : decStep slipEscEnd (i + 1) s.setEsc =
        ({ s with decBuf := s.decBuf.write s.decLen slipEnd, decLen := s.decLen + 1 }, .ok .continues) := by
      have hr : (s.setEsc.clearEsc).decLen < (s.setEsc.clearEsc).cfg.decCap := hroom
      have hc : s.setEsc.clearEsc = s := by simpa [State.setEsc, State.clearEsc] using e0
      simp only [decStep, decClass, State.setEsc, if_true]
      have := decAppend_room slipEnd (i + 1) hr
      rw [hc] at this
      simpa [State.setEsc, State.clearEsc, e0] using this
    simp [hu, decFeedFrom, s1, s2, frameComplete]
  · by_cases h2 : b = slipEsc
    · subst h2
      have hu : encUnit slipEsc = [slipEsc, slipEscEsc] := by decide
      have s1 : decStep slipEsc i s = (s.setEsc, .ok .continues) := by
        simp [decStep, decClass, hesc, h1]
      have s2 : decStep slipEscEsc (i + 1) s.setEsc =
          ({ s with decBuf := s.decBuf.write s.decLen slipEsc, decLen := s.decLen + 1 },
            .ok .continues) := by
        have hne : slipEscEsc ≠ slipEscEnd := by decide
        have hr : (s.setEsc.clearEsc).decLen < (s.setEsc.clearEsc).cfg.decCap := hroom
        have hc : s.setEsc.clearEsc = s := by simpa [State.setEsc, State.clearEsc] using e0
        simp only [decStep, decClass, State.setEsc, if_true]
        have := decAppend_room slipEsc (i + 1) hr
        rw [hc] at this
        simpa [State.setEsc, State.clearEsc, e0, hne] using this
      simp [hu, decFeedFrom, s1, s2, frameComplete]
    · have hu : encUnit b = [b] := by simp [encUnit, encClass, h1, h2]
      have s1 : decStep b i s =
          ({ s with decBuf := s.decBuf.write s.decLen b, decLen := s.decLen + 1 }, .ok .continues) := by
        simp [decStep, decClass, hesc, h1, h2, decAppend_room b i hroom]
      simp [hu, decFeedFrom, s1, frameComplete]

end Sys2Proof.Machine
end

