-- ==== Sys2Proof/Laws/Dispatcher.lean ====
section
/-! SUPPORT. The laws of the argument parser, of building a request and of executing one. -/

namespace Sys2Proof.Machine

/-! ## Argument parser -/

/-- `ARG_U8` keeps the view and the cursor's bound (R28, R201). -/
theorem parserU8_view (a : ArgParser) : (parserU8 a).2.view = a.view := by
  simp only [parserU8]; split <;> rfl

theorem parserU8_bound {a : ArgParser} (h : a.cur ≤ a.view.length) :
    (parserU8 a).2.cur ≤ (parserU8 a).2.view.length := by
  simp only [parserU8]; split
  · exact h
  · simp only; omega

/-- `ARG_U16` keeps the cursor's bound (R28, R202). -/
theorem parserU16_bound {a : ArgParser} (h : a.cur ≤ a.view.length) :
    (parserU16 a).2.cur ≤ (parserU16 a).2.view.length := by
  simp only [parserU16]; split
  · exact h
  · simp only; omega

/-! ## Building -/

/-- A request code has an arm of `REQ_BUILD` (R220). -/
theorem buildRequest_isSome {code : Code} (payload : List Byte) (h : categorize code ≠ .response) :
    ∃ a r, buildRequest code payload = some (a, r) := by
  cases code <;> simp only [categorize, ne_eq, not_true_eq_false, reduceCtorEq, not_false_eq_true] at h <;>
    simp only [buildRequest] <;> repeat' split
  all_goals exact ⟨_, _, rfl⟩

/-- No other code has one. -/
theorem buildRequest_eq_none {code : Code} (payload : List Byte) (h : categorize code = .response) :
    buildRequest code payload = none := by
  cases code <;> first | rfl | (simp only [categorize] at h; cases h)

/-- What REQ_BUILD can do for a code that is no request: give a request or raise InvalidArg, with the parser discarded
(log entry 19). -/
theorem unstatedBuild_cases (code : Code) (payload : List Byte) (s : State) :
    (∃ r, unstatedBuild code payload s = { s with
        arg := none, draws := s.draws + 1, ret := .request r })
    ∨ ∃ cause, unstatedBuild code payload s = { s with
        arg := none, draws := s.draws + 1, err := some (.invalidArg code cause),
        events := s.events ++ [.err (.invalidArg code cause)], ret := .raised (.invalidArg code cause) } := by
  cases h : Config.unstatedBuild s.draws code payload with
  | ok r => exact .inl ⟨r, by simp only [unstatedBuild, h]; rfl⟩
  | error cause => exact .inr ⟨cause, by simp only [unstatedBuild, h]; rfl⟩

/-- The parser after `REQ_BUILD` is within its view (R28). -/
theorem buildRequest_bound {code : Code} {payload : List Byte} {a : ArgParser} {r : Except Err Request}
    (h : buildRequest code payload = some (a, r)) : a.cur ≤ a.view.length := by
  have b0 : (parserInit payload).cur ≤ (parserInit payload).view.length := Nat.zero_le _
  have b1 := parserU8_bound b0
  have b2 := parserU8_bound b1
  cases code <;> simp only [buildRequest] at h <;> repeat' split at h
  all_goals simp_all only [Option.some.injEq, Prod.mk.injEq, reduceCtorEq]

/-- The only error `REQ_BUILD` raises (R307). -/
theorem buildRequest_error {code : Code} {payload : List Byte} {a : ArgParser} {e : Err}
    (h : buildRequest code payload = some (a, .error e)) : ∃ cause, e = .invalidArg code cause := by
  cases code <;> simp only [buildRequest] at h <;> repeat' split at h
  all_goals simp_all only [Option.some.injEq, Prod.mk.injEq, reduceCtorEq, Except.error.injEq, and_false]
  all_goals exact ⟨_, h.2.symm⟩

/-- A built request is one of the code it was built from (R220). -/
theorem buildRequest_code {code : Code} {payload : List Byte} {a : ArgParser} {r : Request}
    (h : buildRequest code payload = some (a, .ok r)) : requestCode r = code := by
  cases code <;> simp only [buildRequest] at h <;> repeat' split at h
  all_goals simp_all only [Option.some.injEq, Prod.mk.injEq, reduceCtorEq, Except.ok.injEq, and_false]
  all_goals (rw [← h.2]; rfl)

/-! ## Executing -/

/-- Everything `FOLD` can give (R223). -/
theorem fold_cases {α : Type} (p : Params) (code : Code) (pin : Byte) (answer : Answer α)
    (onOk : α → Response) :
    (∃ x, answer = .ok x ∧ fold p code pin answer onOk = (onOk x, none))
    ∨ (answer = .invalidPin ∧ fold p code pin answer onOk =
        (.errInvalidArgs (p.diagOf (.invalidPin code pin)), some (.invalidPin code pin)))
    ∨ (answer = .hwError ∧ fold p code pin answer onOk =
        (.errGeneric (p.diagOf (.hwError code pin)), some (.hwError code pin))) := by
  cases answer with
  | ok x => exact .inl ⟨x, rfl, rfl⟩
  | invalidPin => exact .inr (.inl ⟨rfl, rfl⟩)
  | hwError => exact .inr (.inr ⟨rfl, rfl⟩)

/-- A response that carries no diagnostic and is not ErrBusy. -/
def plainResponse : Response → Bool
  | .good | .gpioValue _ _ | .gpioDirResp _ _ | .errCrc | .errUnknownCode | .ident _ => true
  | .errGeneric _ | .errInvalidArgs _ | .errBusy => false

/-- Everything `REQ_EXEC` can do: nothing but an answer; or the one provider call the request stands for, answered Ok,
InvalidPin or HwError (R224 to R231, R240). -/
theorem execRequest_cases (r : Request) (s : State) :
    (∃ rsp, plainResponse rsp = true ∧ execRequest r s = (s, rsp, none))
    ∨ ∃ call answer, requestCall r = some call ∧
        ((∃ rsp, plainResponse rsp = true ∧ execRequest r s = (s.calling call answer, rsp, none))
        ∨ (∃ code pin, execRequest r s = (s.calling call answer,
            .errInvalidArgs (s.cfg.diagOf (.invalidPin code pin)), some (.invalidPin code pin)))
        ∨ (∃ code pin, execRequest r s = (s.calling call answer,
            .errGeneric (s.cfg.diagOf (.hwError code pin)), some (.hwError code pin)))) := by
  cases r with
  | ping => exact .inl ⟨_, rfl, rfl⟩
  | itfType => exact .inl ⟨_, rfl, rfl⟩
  | version => exact .inl ⟨_, rfl, rfl⟩
  | idGet => exact .inl ⟨_, rfl, rfl⟩
  | gpioDirSet pin dir =>
    simp only [execRequest]
    rcases fold_cases s.cfg .gpioDirSet pin (answerOf s.cfg pin (Config.drawUnit s.draws
      (.setDirection pin dir))) (fun _ => .good) with ⟨x, _, e⟩ | ⟨_, e⟩ | ⟨_, e⟩ <;> rw [e]
    · exact .inr ⟨_, _, rfl, .inl ⟨_, rfl, rfl⟩⟩
    · exact .inr ⟨_, _, rfl, .inr (.inl ⟨_, _, rfl⟩)⟩
    · exact .inr ⟨_, _, rfl, .inr (.inr ⟨_, _, rfl⟩)⟩
  | gpioDirGet pin =>
    simp only [execRequest]
    rcases fold_cases s.cfg .gpioDirGet pin (answerOf s.cfg pin (Config.drawDir s.draws
      (.getDirection pin))) (fun d => .gpioDirResp pin d) with ⟨x, _, e⟩ | ⟨_, e⟩ | ⟨_, e⟩ <;> rw [e]
    · exact .inr ⟨_, _, rfl, .inl ⟨_, rfl, rfl⟩⟩
    · exact .inr ⟨_, _, rfl, .inr (.inl ⟨_, _, rfl⟩)⟩
    · exact .inr ⟨_, _, rfl, .inr (.inr ⟨_, _, rfl⟩)⟩
  | gpioWrite pin value =>
    simp only [execRequest]
    rcases fold_cases s.cfg .gpioWrite pin (answerOf s.cfg pin (Config.drawUnit s.draws
      (.setValue pin value))) (fun _ => .good) with ⟨x, _, e⟩ | ⟨_, e⟩ | ⟨_, e⟩ <;> rw [e]
    · exact .inr ⟨_, _, rfl, .inl ⟨_, rfl, rfl⟩⟩
    · exact .inr ⟨_, _, rfl, .inr (.inl ⟨_, _, rfl⟩)⟩
    · exact .inr ⟨_, _, rfl, .inr (.inr ⟨_, _, rfl⟩)⟩
  | gpioRead pin =>
    simp only [execRequest]
    rcases fold_cases s.cfg .gpioRead pin (answerOf s.cfg pin (Config.drawValue s.draws
      (.getValue pin))) (fun v => .gpioValue pin v) with ⟨x, _, e⟩ | ⟨_, e⟩ | ⟨_, e⟩ <;> rw [e]
    · exact .inr ⟨_, _, rfl, .inl ⟨_, rfl, rfl⟩⟩
    · exact .inr ⟨_, _, rfl, .inr (.inl ⟨_, _, rfl⟩)⟩
    · exact .inr ⟨_, _, rfl, .inr (.inr ⟨_, _, rfl⟩)⟩

end Sys2Proof.Machine
end

