-- ==== Sys2Proof/Laws/Encoder.lean ====
section
/-! SUPPORT. The laws of the SLIP encoder's operations: the byte mapping, what an append can do, and how a feed runs. -/

namespace Sys2Proof.Machine

/-! ## The byte mapping -/

@[simp] theorem slipEnc_nil : slipEnc [] = [] := rfl

@[simp] theorem slipEnc_cons (b : Byte) (bs : List Byte) : slipEnc (b :: bs) = encUnit b ++ slipEnc bs := rfl

@[simp] theorem slipEnc_append (as bs : List Byte) : slipEnc (as ++ bs) = slipEnc as ++ slipEnc bs := by
  simp [slipEnc]

/-- An encoded unit has one byte for a literal and two otherwise (R131 to R133). -/
theorem encUnit_length (b : Byte) :
    (encUnit b).length = 1 + (if b = slipEnd then 1 else 0) + (if b = slipEsc then 1 else 0) := by
  by_cases h1 : b = slipEnd
  · subst h1; decide
  · by_cases h2 : b = slipEsc
    · subst h2; decide
    · simp [encUnit, encClass, h1, h2]

theorem encUnit_length_pos (b : Byte) : 0 < (encUnit b).length := by
  rw [encUnit_length]; omega

theorem encUnit_length_le (b : Byte) : (encUnit b).length ≤ 2 := by
  rw [encUnit_length]
  have : slipEnd ≠ slipEsc := by decide
  split <;> split <;> simp_all

/-- No unit holds an END (R113). -/
theorem slipEnd_not_mem_encUnit (b : Byte) : slipEnd ∉ encUnit b := by
  by_cases h1 : b = slipEnd
  · subst h1; decide
  · by_cases h2 : b = slipEsc
    · subst h2; decide
    · simp [encUnit, encClass, h1, h2, Ne.symm h1]

/-- The length of the mapping (R140). -/
theorem slipEnc_length (bs : List Byte) :
    (slipEnc bs).length = bs.length + bs.count slipEnd + bs.count slipEsc := by
  induction bs with
  | nil => rfl
  | cons b bs ih =>
    simp only [slipEnc_cons, List.length_append, encUnit_length, ih, List.count_cons, List.length_cons,
      beq_iff_eq]
    omega

theorem slipEnc_length_le (bs : List Byte) : (slipEnc bs).length ≤ 2 * bs.length := by
  induction bs with
  | nil => simp
  | cons b bs ih =>
    have := encUnit_length_le b
    simp only [slipEnc_cons, List.length_append, List.length_cons]
    omega

/-! ## Appending -/

/-- `ENC_APPEND` with room (R130). -/
theorem encAppend_room {s : State} {bytes : List Byte} (pos : Option Nat)
    (h : s.encLen + bytes.length ≤ s.cfg.encCap) :
    encAppend bytes pos s =
      ({ s with encBuf := s.encBuf.writeN s.encLen bytes, encLen := s.encLen + bytes.length }, .ok ()) := by
  simp [encAppend, Nat.not_lt.2 h]

/-- `ENC_APPEND` without room writes nothing (R130). -/
theorem encAppend_full {s : State} {bytes : List Byte} (pos : Option Nat)
    (h : s.cfg.encCap < s.encLen + bytes.length) :
    encAppend bytes pos s = (s, .error (.bufferFullEnc pos)) := by
  simp [encAppend, h]

/-- Everything `ENC_APPEND` can do. -/
theorem encAppend_cases (bytes : List Byte) (pos : Option Nat) (s : State) :
    (s.encLen + bytes.length ≤ s.cfg.encCap ∧ encAppend bytes pos s =
      ({ s with encBuf := s.encBuf.writeN s.encLen bytes, encLen := s.encLen + bytes.length }, .ok ()))
    ∨ (s.cfg.encCap < s.encLen + bytes.length
        ∧ encAppend bytes pos s = (s, .error (.bufferFullEnc pos))) := by
  by_cases h : s.encLen + bytes.length ≤ s.cfg.encCap
  · exact .inl ⟨h, encAppend_room pos h⟩
  · exact .inr ⟨by omega, encAppend_full pos (by omega)⟩

/-! ## Feeding -/

/-- A feed whose units all fit appends them all (R134). -/
theorem encFeedFrom_room {s : State} {bytes : List Byte} (i : Nat)
    (h : s.encLen + (slipEnc bytes).length ≤ s.cfg.encCap) :
    encFeedFrom i bytes s =
      ({ s with encBuf := s.encBuf.writeN s.encLen (slipEnc bytes),
                encLen := s.encLen + (slipEnc bytes).length }, .ok ()) := by
  induction bytes generalizing i s with
  | nil => rfl
  | cons b bs ih =>
    simp only [slipEnc_cons, List.length_append] at h
    have h1 := encAppend_room (s := s) (bytes := encUnit b) (some i) (by omega)
    simp only [encFeedFrom, h1]
    rw [ih (i + 1) (by simpa [Nat.add_assoc] using h)]
    simp [Memory.writeN_append, Nat.add_assoc]

/-- A feed stops at its first unit that does not fit; the units before it stay (R134). -/
theorem encFeedFrom_full {s : State} {pre : List Byte} {b : Byte} (post : List Byte) (i : Nat)
    (h : s.encLen + (slipEnc pre).length ≤ s.cfg.encCap)
    (hb : s.cfg.encCap < s.encLen + (slipEnc pre).length + (encUnit b).length) :
    encFeedFrom i (pre ++ b :: post) s =
      ({ s with encBuf := s.encBuf.writeN s.encLen (slipEnc pre),
                encLen := s.encLen + (slipEnc pre).length }, .error (.bufferFullEnc (some (i + pre.length)))) := by
  induction pre generalizing i s with
  | nil =>
    have h1 := encAppend_full (s := s) (bytes := encUnit b) (some i) (by simpa using hb)
    simp [encFeedFrom, h1, Memory.writeN]
  | cons a pre ih =>
    simp only [slipEnc_cons, List.length_append] at h hb
    have h1 := encAppend_room (s := s) (bytes := encUnit a) (some i) (by omega)
    simp only [List.cons_append, encFeedFrom, h1]
    rw [ih (i + 1) (by simpa [Nat.add_assoc] using h) (by simpa [Nat.add_assoc] using hb)]
    simp [Memory.writeN_append, Nat.add_assoc, Nat.add_comm 1]

/-- Units that do not all fit have a first one that does not. -/
theorem exists_first_overflow {cap n : Nat} {bytes : List Byte} (h0 : n ≤ cap)
    (h : cap < n + (slipEnc bytes).length) :
    ∃ pre b post, bytes = pre ++ b :: post ∧ n + (slipEnc pre).length ≤ cap
      ∧ cap < n + (slipEnc pre).length + (encUnit b).length := by
  induction bytes generalizing n with
  | nil => simp at h; omega
  | cons a bs ih =>
    by_cases ha : n + (encUnit a).length ≤ cap
    · obtain ⟨pre, b, post, rfl, h1, h2⟩ := ih ha (by simpa [Nat.add_assoc] using h)
      exact ⟨a :: pre, b, post, rfl, by simpa [Nat.add_assoc] using h1, by simpa [Nat.add_assoc] using h2⟩
    · exact ⟨[], a, bs, rfl, by simpa using h0, by simp; omega⟩

/-- Everything a feed from a bounded cursor can do. -/
theorem encFeedFrom_cases (i : Nat) (bytes : List Byte) (s : State) (h0 : s.encLen ≤ s.cfg.encCap) :
    (s.encLen + (slipEnc bytes).length ≤ s.cfg.encCap ∧ encFeedFrom i bytes s =
      ({ s with encBuf := s.encBuf.writeN s.encLen (slipEnc bytes),
                encLen := s.encLen + (slipEnc bytes).length }, .ok ()))
    ∨ ∃ pre b post, bytes = pre ++ b :: post ∧ s.encLen + (slipEnc pre).length ≤ s.cfg.encCap
        ∧ s.cfg.encCap < s.encLen + (slipEnc bytes).length
        ∧ encFeedFrom i bytes s =
          ({ s with encBuf := s.encBuf.writeN s.encLen (slipEnc pre),
                    encLen := s.encLen + (slipEnc pre).length },
            .error (.bufferFullEnc (some (i + pre.length)))) := by
  by_cases h : s.encLen + (slipEnc bytes).length ≤ s.cfg.encCap
  · exact .inl ⟨h, encFeedFrom_room i h⟩
  · obtain ⟨pre, b, post, rfl, h1, h2⟩ := exists_first_overflow h0 (Nat.not_le.1 h)
    exact .inr ⟨pre, b, post, rfl, h1, Nat.not_le.1 h, encFeedFrom_full post i h1 h2⟩

/-- From any cursor, a feed writes the encoder only, and raises nothing but BufferFull. -/
theorem encFeedFrom_effect (i : Nat) (bytes : List Byte) (s : State) :
    ∃ m n r, encFeedFrom i bytes s = ({ s with encBuf := m, encLen := n }, r)
      ∧ (r = .ok () ∨ ∃ pos, r = .error (.bufferFullEnc pos)) := by
  induction bytes generalizing i s with
  | nil => exact ⟨_, _, _, rfl, .inl rfl⟩
  | cons b bs ih =>
    rcases encAppend_cases (encUnit b) (some i) s with ⟨_, e⟩ | ⟨_, e⟩
    · obtain ⟨m, n, r, e', hr⟩ := ih (i + 1)
        { s with encBuf := s.encBuf.writeN s.encLen (encUnit b), encLen := s.encLen + (encUnit b).length }
      exact ⟨m, n, r, by simp only [encFeedFrom, e, e'], hr⟩
    · exact ⟨s.encBuf, s.encLen, .error (.bufferFullEnc (some i)), by simp only [encFeedFrom, e],
        .inr ⟨_, rfl⟩⟩

end Sys2Proof.Machine
end

