-- ==== Sys2Proof/Laws/PerInstr.lean ====
section
/-! SUPPORT. Per instruction: which instructions have the form of a frame, which code and payload it is, and that
exactly those are encoded as one (R74, R80, R157). -/

namespace Sys2Proof.Laws.FrameForm

/-- A frame-code instruction is the one of its code and payload, and its bits are the frame of both; no other
instruction has a frame for its bits. -/
def Statement (i : Instr) : Prop :=
  ∀ p : Params, match frameParts i with
    | some (code, payload) =>
      frameInstr code payload = i ∧ encode p i = some (.frame (frameEncode p code payload))
    | none => ∀ bytes, encode p i ≠ some (.frame bytes)

theorem ping (payload : List Byte) : Statement (.ping payload) := fun _ => ⟨rfl, rfl⟩
theorem itfType (payload : List Byte) : Statement (.itfType payload) := fun _ => ⟨rfl, rfl⟩
theorem version (payload : List Byte) : Statement (.version payload) := fun _ => ⟨rfl, rfl⟩
theorem idGet (payload : List Byte) : Statement (.idGet payload) := fun _ => ⟨rfl, rfl⟩
theorem gpioDirSet (payload : List Byte) : Statement (.gpioDirSet payload) := fun _ => ⟨rfl, rfl⟩
theorem gpioDirGet (payload : List Byte) : Statement (.gpioDirGet payload) := fun _ => ⟨rfl, rfl⟩
theorem gpioRead (payload : List Byte) : Statement (.gpioRead payload) := fun _ => ⟨rfl, rfl⟩
theorem gpioWrite (payload : List Byte) : Statement (.gpioWrite payload) := fun _ => ⟨rfl, rfl⟩
theorem good (payload : List Byte) : Statement (.good payload) := fun _ => ⟨rfl, rfl⟩
theorem gpioValue (payload : List Byte) : Statement (.gpioValue payload) := fun _ => ⟨rfl, rfl⟩
theorem errGeneric (payload : List Byte) : Statement (.errGeneric payload) := fun _ => ⟨rfl, rfl⟩
theorem errCrc (payload : List Byte) : Statement (.errCrc payload) := fun _ => ⟨rfl, rfl⟩
theorem errUnknownCode (payload : List Byte) : Statement (.errUnknownCode payload) := fun _ => ⟨rfl, rfl⟩
theorem errInvalidArgs (payload : List Byte) : Statement (.errInvalidArgs payload) := fun _ => ⟨rfl, rfl⟩
theorem errBusy (payload : List Byte) : Statement (.errBusy payload) := fun _ => ⟨rfl, rfl⟩
theorem gpioDirResp (payload : List Byte) : Statement (.gpioDirResp payload) := fun _ => ⟨rfl, rfl⟩
theorem decEnd (pos : Nat) : Statement (.decEnd pos) := fun _ _ h => by cases h
theorem decEsc (pos : Nat) : Statement (.decEsc pos) := fun _ _ h => by cases h
theorem decLit (b : Byte) (pos : Nat) : Statement (.decLit b pos) := fun _ _ h => by cases h
theorem decEscEnd (pos : Nat) : Statement (.decEscEnd pos) := fun _ _ h => by cases h
theorem decEscEsc (pos : Nat) : Statement (.decEscEsc pos) := fun _ _ h => by cases h
theorem decBadEsc (b : Byte) (pos : Nat) : Statement (.decBadEsc b pos) := fun _ _ h => by cases h
theorem encByteEnd (pos : Nat) : Statement (.encByteEnd pos) := fun _ _ h => by cases h
theorem encByteEsc (pos : Nat) : Statement (.encByteEsc pos) := fun _ _ h => by cases h
theorem encByteLit (b : Byte) (pos : Nat) : Statement (.encByteLit b pos) := fun _ _ h => by cases h
theorem decFeed (chunk : List Byte) : Statement (.decFeed chunk) := fun _ _ h => by cases h
theorem decSlice : Statement .decSlice := fun _ _ h => by cases h
theorem decReset : Statement .decReset := fun _ _ h => by cases h
theorem encFeed (bytes : List Byte) : Statement (.encFeed bytes) := fun _ _ h => by cases h
theorem encFinish : Statement .encFinish := fun _ _ h => by cases h
theorem encSlice : Statement .encSlice := fun _ _ h => by cases h
theorem encReset : Statement .encReset := fun _ _ h => by cases h
theorem crc16 (m : List Byte) : Statement (.crc16 m) := fun _ _ h => by cases h
theorem frameDecode (bytes : List Byte) : Statement (.frameDecode bytes) := fun _ _ h => by cases h
theorem frameEncode (code : Code) (payload : List Byte) : Statement (.frameEncode code payload) := fun _ _ h => by cases h
theorem codeLookup (c16 : Word) : Statement (.codeLookup c16) := fun _ _ h => by cases h
theorem codeEncode (code : Code) : Statement (.codeEncode code) := fun _ _ h => by cases h
theorem categorize (code : Code) : Statement (.categorize code) := fun _ _ h => by cases h
theorem argInit (payload : List Byte) : Statement (.argInit payload) := fun _ _ h => by cases h
theorem argU8 : Statement .argU8 := fun _ _ h => by cases h
theorem argU16 : Statement .argU16 := fun _ _ h => by cases h
theorem reqBuild (code : Code) (payload : List Byte) : Statement (.reqBuild code payload) := fun _ _ h => by cases h
theorem reqExec (req : Request) : Statement (.reqExec req) := fun _ _ h => by cases h
theorem toFrame (rsp : Response) : Statement (.toFrame rsp) := fun _ _ h => by cases h
theorem reset : Statement .reset := fun _ _ h => by cases h
theorem sRx : Statement .sRx := fun _ _ h => by cases h
theorem sHunt : Statement .sHunt := fun _ _ h => by cases h
theorem sDecode : Statement .sDecode := fun _ _ h => by cases h
theorem sDispatch : Statement .sDispatch := fun _ _ h => by cases h
theorem sRespond : Statement .sRespond := fun _ _ h => by cases h

end Sys2Proof.Laws.FrameForm
end

