-- ==== Sys2Proof/Laws/Pipeline.lean ====
section
/-! SUPPORT. The laws of the pipeline's operations: everything each of them can do, said once. -/

namespace Sys2Proof.Machine

/-! ## Frame codes -/

/-- Every frame code runs the shared operation of its code. -/
theorem exec_frameInstr (code : Code) (payload : List Byte) (s : State) :
    exec (frameInstr code payload) s = frameCode code payload s := by
  cases code <;> rfl

/-- A frame-code instruction is the one of its parts. -/
theorem frameInstr_of_frameParts {i : Instr} {code : Code} {payload : List Byte}
    (h : frameParts i = some (code, payload)) : frameInstr code payload = i := by
  cases i <;> simp only [frameParts, Option.some.injEq, Prod.mk.injEq, reduceCtorEq] at h <;>
    obtain ⟨rfl, rfl⟩ := h <;> rfl

@[simp] theorem frameParts_frameInstr (code : Code) (payload : List Byte) :
    frameParts (frameInstr code payload) = some (code, payload) := by
  cases code <;> rfl

/-! ## Errors -/

/-- An error with a response chooses it (R311, R313). -/
theorem takeError_some {s : State} {e : Err} {r : Response} (ph : Phase) (h : errorResponse s.cfg e = some r) :
    s.takeError e ph =
      { s with err := some e, events := s.events ++ [.err e], rsp := some r, phase := ph } := by
  simp [State.takeError, h, State.recordErr]

/-- An error with none only leaves its record (R311, R313). -/
theorem takeError_none {s : State} {e : Err} (ph : Phase) (h : errorResponse s.cfg e = none) :
    s.takeError e ph = { s with err := some e, events := s.events ++ [.err e], phase := ph } := by
  simp [State.takeError, h, State.recordErr]

/-- Diagnostics are within `ERR_MSG_MAX` on an instance that keeps the constraints (R325). -/
theorem diagOf_length_le {p : Params} (h : p.ok = true) (e : Err) : (p.diagOf e).length ≤ p.errMsgMax := by
  have hd : ∀ entry ∈ p.diag, entry.2.length ≤ p.errMsgMax := by
    simp only [Params.ok, Bool.and_eq_true, List.all_eq_true, decide_eq_true_eq] at h
    exact h.1.2
  simp only [Params.diagOf]
  cases hl : p.diag.lookup e with
  | none => simp
  | some m =>
    have : ∀ (l : List (Err × List Byte)), l.lookup e = some m → (e, m) ∈ l := by
      intro l
      induction l with
      | nil => simp
      | cons c l ih =>
        intro hc
        simp only [List.lookup] at hc
        split at hc
        · next hk =>
          have : e = c.1 := by simpa using hk
          cases c; simp_all
        · exact List.mem_cons_of_mem _ (ih hc)
    exact hd _ (this _ hl)

/-! ## Receiving -/

/-- Everything S_RX can do with a byte: append, set the flag, drop an empty frame, complete a frame, or resync after
a framing error (R273 to R275). -/
theorem rxByte_cases (b : Byte) (rest : List Byte) (s : State) :
    (∃ v, s.decLen < s.cfg.decCap ∧ rxByte b rest s = { s with
        input := rest, events := s.events ++ [.inByte b], arg := none, rxCnt := s.rxCnt + 1, decEsc := false,
        decBuf := s.decBuf.write s.decLen v, decLen := s.decLen + 1, phase := .accum })
    ∨ (s.decEsc = false ∧ rxByte b rest s = { s with
        input := rest, events := s.events ++ [.inByte b], arg := none, rxCnt := s.rxCnt + 1, decEsc := true,
        phase := .accum })
    ∨ (s.decEsc = false ∧ s.decLen = 0 ∧ s.cfg.emptyFrameMode = .drop ∧ rxByte b rest s = { s with
        input := rest, events := s.events ++ [.inByte b], arg := none, rxCnt := 0, decLen := 0, decEsc := false,
        frm := none, phase := .idle })
    ∨ (s.decEsc = false ∧ rxByte b rest s = { s with
        input := rest, events := s.events ++ [.inByte b], arg := none, rxCnt := s.rxCnt + 1, phase := .frameReady })
    ∨ ∃ e ph, (ph = .hunt ∨ ph = .idle) ∧ rxByte b rest s = { s with
        input := rest, events := s.events ++ [.inByte b, .err e], arg := none, err := some e,
        rxCnt := 0, decLen := 0, decEsc := false, frm := none, phase := ph } := by
  have hph : (if s.cfg.resyncMode = .hunt ∧ b ≠ slipEnd then Phase.hunt else .idle) = .hunt
      ∨ (if s.cfg.resyncMode = .hunt ∧ b ≠ slipEnd then Phase.hunt else .idle) = .idle := by
    split <;> simp
  rcases decStep_cases b s.rxCnt { s.accept b rest with rxCnt := s.rxCnt + 1 } with
    ⟨v, h, e⟩ | ⟨h, _, e⟩ | ⟨h, _, e⟩ | ⟨_, e⟩ | ⟨_, _, e⟩
  · exact .inl ⟨v, h, by simp only [rxByte, e]; rfl⟩
  · exact .inr (.inl ⟨h, by simp only [rxByte, e]; rfl⟩)
  · by_cases hd : s.decLen = 0 ∧ s.cfg.emptyFrameMode = .drop
    · refine .inr (.inr (.inl ⟨h, hd.1, hd.2, ?_⟩))
      simp only [rxByte, e, completeFrame]
      rw [if_pos (by simpa [State.accept] using hd)]; rfl
    · refine .inr (.inr (.inr (.inl ⟨h, ?_⟩)))
      simp only [rxByte, e, completeFrame]
      rw [if_neg (by simpa [State.accept] using hd)]; rfl
  · refine .inr (.inr (.inr (.inr ⟨.badEsc s.rxCnt, _, hph, ?_⟩)))
    simp only [rxByte, e, framingError]
    rw [takeError_none _ rfl]
    simp only [State.decReset, State.accept, List.append_assoc]; rfl
  · refine .inr (.inr (.inr (.inr ⟨.bufferFullDec s.rxCnt, _, hph, ?_⟩)))
    simp only [rxByte, e, framingError]
    rw [takeError_none _ rfl]
    simp only [State.decReset, State.accept, List.append_assoc]; rfl

/-! ## Decoding -/

/-- Everything a decoded frame can do in S_DECODE: build its request, or be answered with an error that carries a
diagnostic (R277, R184). -/
theorem acceptFrame_cases (code : Code) (payload : List Byte) (s : State) :
    (∃ a r, buildRequest code payload = some (a, .ok r) ∧ acceptFrame code payload s = { s with
        frm := some { code := code, payload := payload }, arg := none, req := some r, phase := .dispatching })
    ∨ ∃ e r, (r = .errGeneric (s.cfg.diagOf e) ∨ r = .errInvalidArgs (s.cfg.diagOf e))
        ∧ acceptFrame code payload s = { s with
          frm := some { code := code, payload := payload }, arg := none, err := some e,
          events := s.events ++ [.err e], rsp := some r, phase := .responding } := by
  by_cases hc : categorize code = .response
  · refine .inr ⟨.notARequest (codeEncode s.cfg code), _, .inl rfl, ?_⟩
    simp only [acceptFrame, hc, if_true]
    rw [takeError_some _ rfl]
  · obtain ⟨a, e | r, hb⟩ := buildRequest_isSome payload hc
    · obtain ⟨cause, rfl⟩ := buildRequest_error hb
      refine .inr ⟨.invalidArg code cause, _, .inr rfl, ?_⟩
      simp only [acceptFrame, hc, if_false, hb]
      rw [takeError_some _ rfl]
    · exact .inl ⟨a, r, hb, by simp only [acceptFrame, hc, if_false, hb]⟩

/-- S_DECODE on a frame that `FRAME_DECODE` rejects (R277, R311). -/
theorem decodeBytes_error {bytes : List Byte} {s : State} {e : Err} (h : frameDecode s.cfg bytes = .error e) :
    ∃ r, errorResponse s.cfg e = some r ∧ r ≠ .errBusy
      ∧ msgWithin s.cfg r ∧ decodeBytes bytes s = { s with
        arg := none, err := some e, events := s.events ++ [.err e], rsp := some r, phase := .responding } := by
  simp only [decodeBytes, h]
  rcases frameDecode_error h with ⟨n, rfl⟩ | ⟨c, r, rfl⟩ | ⟨c, rfl⟩
  · exact ⟨_, rfl, by simp, diagOf_length_le s.cfgOk _, takeError_some _ rfl⟩
  · exact ⟨_, rfl, by simp, trivial, takeError_some _ rfl⟩
  · exact ⟨_, rfl, by simp, trivial, takeError_some _ rfl⟩

/-- S_DECODE on any other frame runs the frame's code. -/
theorem decodeBytes_ok {bytes : List Byte} {s : State} {code : Code} {payload : List Byte}
    (h : frameDecode s.cfg bytes = .ok (code, payload)) :
    decodeBytes bytes s = acceptFrame code payload s := by
  simp only [decodeBytes, h]

/-! ## Dispatching -/

/-- Everything S_DISPATCH can do: answer without a call, answer the provider's Ok, or record the provider's error and
answer it (R278). -/
theorem dispatchRequest_cases (r : Request) (s : State) :
    (∃ rsp, plainResponse rsp = true ∧ dispatchRequest r s =
        { s with arg := none, req := none, rsp := some rsp, phase := .responding })
    ∨ ∃ call answer, requestCall r = some call ∧
        ((∃ rsp, plainResponse rsp = true ∧ dispatchRequest r s = { s with
          draws := s.draws + 1, events := s.events ++ [.gpio call answer], arg := none, req := none, rsp := some rsp,
          phase := .responding })
        ∨ ∃ e rsp, (rsp = .errGeneric (s.cfg.diagOf e) ∨ rsp = .errInvalidArgs (s.cfg.diagOf e))
          ∧ dispatchRequest r s = { s with
            draws := s.draws + 1, events := s.events ++ [.gpio call answer, .err e], err := some e,
            arg := none, req := none, rsp := some rsp, phase := .responding }) := by
  rcases execRequest_cases r s with ⟨rsp, h, e⟩ | ⟨call, answer, hc, ⟨rsp, h, e⟩ | ⟨code, pin, e⟩ | ⟨code, pin, e⟩⟩
  · exact .inl ⟨rsp, h, by simp only [dispatchRequest, e]⟩
  · exact .inr ⟨call, answer, hc, .inl ⟨rsp, h, by simp only [dispatchRequest, e, State.calling]⟩⟩
  · exact .inr ⟨call, answer, hc, .inr ⟨_, _, .inr rfl, by
      simp only [dispatchRequest, e, State.calling, State.recordErr, List.append_assoc]; rfl⟩⟩
  · exact .inr ⟨call, answer, hc, .inr ⟨_, _, .inl rfl, by
      simp only [dispatchRequest, e, State.calling, State.recordErr, List.append_assoc]; rfl⟩⟩

/-! ## Responding -/

theorem wireBytes_length (p : Params) (code : Code) (payload : List Byte) :
    (wireBytes p code payload).length = (slipEnc (frameEncode p code payload)).length + 1 := by
  simp [wireBytes]

/-- A frame of a bounded payload is within the recommended size (R138). -/
theorem wireBytes_length_le (p : Params) (code : Code) (payload : List Byte) :
    (wireBytes p code payload).length ≤ 2 * (4 + payload.length) + 1 := by
  have := slipEnc_length_le (frameEncode p code payload)
  rw [frameEncode, frameBytes_length] at this
  rw [wireBytes_length, frameEncode]; omega

/-- The state S_RESPOND leaves, whatever it wrote (R279, R280). -/
def State.responded (s : State) (m : Memory) (e : Option Err) (ev : Event) : State :=
  { s with encBuf := m, encLen := 0, err := e, events := s.events ++ [ev],
           decLen := 0, decEsc := false, rxCnt := 0, frm := none, arg := none, rsp := none, phase := .idle }

/-- S_RESPOND with room writes the whole frame in one write (R279). -/
theorem sendFrame_fits {s : State} {code : Code} {payload : List Byte} (h0 : s.encLen = 0)
    (h : (wireBytes s.cfg code payload).length ≤ s.cfg.encCap) :
    sendFrame code payload s = .next (s.responded (s.encBuf.writeN 0 (wireBytes s.cfg code payload)) s.err
      (.out (wireBytes s.cfg code payload))) := by
  rw [wireBytes_length] at h
  have h1 := encFeedFrom_room (s := s) (bytes := frameEncode s.cfg code payload) 0 (by omega)
  have hm : (s.encBuf.writeN s.encLen (slipEnc (frameEncode s.cfg code payload))).writeN
      (s.encLen + (slipEnc (frameEncode s.cfg code payload)).length) [slipEnd]
      = s.encBuf.writeN 0 (wireBytes s.cfg code payload) := by
    rw [wireBytes, Memory.writeN_append, h0]
  have h2 := encAppend_room (s := { s with
      encBuf := s.encBuf.writeN s.encLen (slipEnc (frameEncode s.cfg code payload)),
      encLen := s.encLen + (slipEnc (frameEncode s.cfg code payload)).length })
    (bytes := [slipEnd]) none (by simp only [List.length_cons, List.length_nil]; omega)
  simp only [hm] at h2
  have h3 : State.encBytes { s with
      encBuf := s.encBuf.writeN 0 (wireBytes s.cfg code payload),
      encLen := s.encLen + (slipEnc (frameEncode s.cfg code payload)).length + [slipEnd].length }
      = wireBytes s.cfg code payload := by
    have := Memory.readN_writeN s.encBuf .enc 0 (wireBytes s.cfg code payload)
    rw [wireBytes_length] at this
    simpa [State.encBytes, h0] using this
  simp only [sendFrame, h1, encFinishOp, h2, h3]
  rfl

/-- S_RESPOND where a unit of the frame does not fit writes nothing to `OUT`; the units before it are in the buffer
(R134, R280). -/
theorem sendFrame_unit_overflow {s : State} {code : Code} {payload pre post : List Byte} {b : Byte}
    (h0 : s.encLen = 0) (hb : frameEncode s.cfg code payload = pre ++ b :: post)
    (hp : (slipEnc pre).length ≤ s.cfg.encCap)
    (hf : s.cfg.encCap < (slipEnc pre).length + (encUnit b).length) :
    sendFrame code payload s = .next (s.responded (s.encBuf.writeN 0 (slipEnc pre))
      (some (.bufferFullEnc (some pre.length))) (.err (.bufferFullEnc (some pre.length)))) := by
  have e := encFeedFrom_full (s := s) (pre := pre) (b := b) post 0 (by omega) (by omega)
  simp only [sendFrame, hb, e]
  rw [takeError_none _ rfl]
  simp only [h0, Nat.zero_add]; rfl

/-- S_RESPOND where only the END does not fit (R135, R280). -/
theorem sendFrame_end_overflow {s : State} {code : Code} {payload : List Byte} (h0 : s.encLen = 0)
    (h : (slipEnc (frameEncode s.cfg code payload)).length = s.cfg.encCap) :
    sendFrame code payload s = .next (s.responded (s.encBuf.writeN 0 (slipEnc (frameEncode s.cfg code payload)))
      (some (.bufferFullEnc none)) (.err (.bufferFullEnc none))) := by
  have h1 := encFeedFrom_room (s := s) (bytes := frameEncode s.cfg code payload) 0 (by omega)
  have h2 := encAppend_full (s := { s with
      encBuf := s.encBuf.writeN s.encLen (slipEnc (frameEncode s.cfg code payload)),
      encLen := s.encLen + (slipEnc (frameEncode s.cfg code payload)).length })
    (bytes := [slipEnd]) none (by simp only [List.length_cons, List.length_nil]; omega)
  simp only [sendFrame, h1, encFinishOp, h2]
  rw [takeError_none _ rfl]
  simp only [h0]; rfl

/-- Where a frame does not fit, either a unit of it does not or only the END does not. -/
theorem wireBytes_overflow {p : Params} {code : Code} {payload : List Byte} {cap : Nat}
    (h : cap < (wireBytes p code payload).length) :
    (∃ pre b post, frameEncode p code payload = pre ++ b :: post ∧ (slipEnc pre).length ≤ cap
      ∧ cap < (slipEnc pre).length + (encUnit b).length)
    ∨ (slipEnc (frameEncode p code payload)).length = cap := by
  rw [wireBytes_length] at h
  by_cases he : (slipEnc (frameEncode p code payload)).length = cap
  · exact .inr he
  · obtain ⟨pre, b, post, hb, h1, h2⟩ := exists_first_overflow (n := 0) (cap := cap)
      (bytes := frameEncode p code payload) (by omega) (by omega)
    exact .inl ⟨pre, b, post, hb, by simpa using h1, by simpa using h2⟩

/-- From any state, S_RESPOND writes one `out` event or records BufferFull. -/
theorem sendFrame_effect (code : Code) (payload : List Byte) (s : State) :
    (∃ m bs, sendFrame code payload s = .next (s.responded m s.err (.out bs)))
    ∨ ∃ m pos, sendFrame code payload s =
        .next (s.responded m (some (.bufferFullEnc pos)) (.err (.bufferFullEnc pos))) := by
  obtain ⟨m, n, r, e, rfl | ⟨pos, rfl⟩⟩ := encFeedFrom_effect 0 (frameEncode s.cfg code payload) s
  · rcases encAppend_cases [slipEnd] none { s with encBuf := m, encLen := n } with ⟨_, e'⟩ | ⟨_, e'⟩
    · exact .inl ⟨m.writeN n [slipEnd], _, by simp only [sendFrame, e, encFinishOp, e']; rfl⟩
    · refine .inr ⟨m, none, ?_⟩
      simp only [sendFrame, e, encFinishOp, e']
      rw [takeError_none _ rfl]; rfl
  · refine .inr ⟨m, pos, ?_⟩
    simp only [sendFrame, e]
    rw [takeError_none _ rfl]; rfl

end Sys2Proof.Machine
end

