-- ==== Sys2Proof/Laws/Run.lean ====
section
/-! SUPPORT. Runs of several steps, one step at a time. -/

namespace Sys2Proof.Machine

/-- A run begins with its first step. -/
theorem run_succ_of_next {s t : State} (k : Nat) (h : step s = .next t) :
    Sys2Proof.core.run (k + 1) s = Sys2Proof.core.run k t := by
  have h' : Sys2Proof.core.step s = .next t := h
  simp only [Host.Core.run, h']

/-- A run of one step. -/
theorem run_one_of_next {s t : State} (h : step s = .next t) : Sys2Proof.core.run 1 s = .next t :=
  run_succ_of_next 0 h

/-- A run goes on from where its first part ended. -/
theorem run_add_of_next {s t : State} {k : Nat} (l : Nat) (h : Sys2Proof.core.run k s = .next t) :
    Sys2Proof.core.run (k + l) s = Sys2Proof.core.run l t := by
  induction k generalizing s with
  | zero => cases h; rw [Nat.zero_add]
  | succ k ih =>
    have hs : ∃ u, Sys2Proof.core.step s = .next u := by
      simp only [Host.Core.run] at h
      split at h
      · exact ⟨_, by assumption⟩
      · cases h
      · cases h
    obtain ⟨u, hu⟩ := hs
    rw [Nat.add_right_comm, run_succ_of_next _ hu]
    rw [run_succ_of_next _ hu] at h
    exact ih h

end Sys2Proof.Machine
end

