-- ==== Sys2Proof/Tests/Slice0.lean ====
section
/-! SUPPORT. Tests against the spec's own vectors (95_test_vectors.md), a smoke test of well-formedness, and a witness
for the hypotheses of every obligation. -/

namespace Sys2Proof.Tests

open Sys2Proof.Machine

/-! ## The parameters and states of the tests -/

/-- The test parameters of 95_test_vectors.md. -/
def tp : Params where
  decCap := 64
  payloadCap := 60
  encCap := 64
  errMsgMax := 0
  validPins := List.range 30
  resyncMode := .hunt
  emptyFrameMode := .drop
  gpioDirRespCode := 0xFEFE#16
  identItfType := (.good, [])
  identVersion := (.good, [0x31#8, 0x2E#8, 0x30#8])
  identIdGet := (.good, [0x12#8, 0x34#8])
  diag := []

/-- The test parameters are within the constraints (R325). Capacities are not among them. -/
theorem tp_ok : tp.ok = true := by decide

/-- The reset state with the test parameters. -/
def ts : State := { State.reset with cfg := tp, cfgOk := tp_ok }

/-- A state in a phase. -/
def inPhase (ph : Phase) : State := { ts with phase := ph }

/-- A state receiving bytes, with `b` offered next. -/
def offering (ph : Phase) (len : Nat) (esc : Bool) (b : Byte) : State :=
  { inPhase ph with decLen := len, decEsc := esc, input := [b] }

/-- A state with a completed frame. -/
def ready (bytes : List Byte) : State :=
  { inPhase .frameReady with decBuf := Memory.writeN [] 0 bytes, decLen := bytes.length }

/-- A state executing a request. -/
def executing (r : Request) : State := { inPhase .dispatching with req := some r }

/-- A state sending a response. -/
def sending (r : Response) (cap : Nat) : State :=
  { inPhase .responding with rsp := some r, cfg := { tp with encCap := cap }, cfgOk := tp_ok }

/-- A state with the cursors of the codecs set. -/
def cursors (dec enc : Nat) : State := { ts with decLen := dec, encLen := enc }

/-- The state an outcome goes on with. -/
def nextOf : Host.Outcome State Fault Refusal → Option State
  | .next s => some s
  | .fault _ | .refused _ => none

/-- An outcome that goes on. -/
theorem exists_next {o : Host.Outcome State Fault Refusal} (h : (nextOf o).isSome = true) : ∃ t, o = .next t := by
  cases o <;> first | exact ⟨_, rfl⟩ | cases h

/-- A frame of Ping (L1.6). -/
def pingFrame : List Byte := [0x00#8, 0x00#8, 0x1D#8, 0x0F#8]

/-! ## Well-formedness: each check refuses a term -/

theorem test_wf_payload_over_capacity :
    (Instr.ping (List.replicate 61 0)).wf tp = false ∧ (Instr.ping (List.replicate 60 0)).wf tp = true := by
  decide

theorem test_wf_frame_over_dec_cap :
    (Instr.good (List.replicate 5 0)).wf { tp with decCap := 8 } = false
      ∧ (Instr.good (List.replicate 4 0)).wf { tp with decCap := 8 } = true := by decide

theorem test_wf_dir_resp_code_taken :
    (Instr.gpioDirResp []).wf { tp with gpioDirRespCode := 0xFFFF#16 } = false
      ∧ (Instr.gpioDirResp []).wf tp = true := by decide

theorem test_wf_byte_classes :
    (Instr.decLit 0xC0#8 0).wf tp = false ∧ (Instr.decLit 0xDB#8 0).wf tp = false
      ∧ (Instr.decBadEsc 0xDC#8 0).wf tp = false ∧ (Instr.decBadEsc 0xDD#8 0).wf tp = false
      ∧ (Instr.encByteLit 0xC0#8 0).wf tp = false ∧ (Instr.encByteLit 0xDB#8 0).wf tp = false := by decide

theorem test_wf_req_build_response_code :
    (Instr.reqBuild .good []).wf tp = false ∧ (Instr.reqBuild .ping []).wf tp = true := by decide

/-! ## Decoding words written out from the encodings (R72, R73, R80; frames of L2) -/

theorem test_decode_ping : decodeFrame tp [0x00#8, 0x00#8, 0x1D#8, 0x0F#8] = .ok (.ping []) := by
  decide +kernel
theorem test_decode_itf_type : decodeFrame tp [0x00#8, 0x01#8, 0x0D#8, 0x2E#8] = .ok (.itfType []) := by
  decide +kernel
theorem test_decode_version : decodeFrame tp [0x00#8, 0x02#8, 0x3D#8, 0x4D#8] = .ok (.version []) := by
  decide +kernel
theorem test_decode_id_get : decodeFrame tp [0x00#8, 0x03#8, 0x2D#8, 0x6C#8] = .ok (.idGet []) := by
  decide +kernel
theorem test_decode_gpio_dir_set :
    decodeFrame tp [0x01#8, 0x00#8, 0x05#8, 0x02#8, 0x2D#8, 0xC3#8] = .ok (.gpioDirSet [0x05#8, 0x02#8]) := by
  decide +kernel
theorem test_decode_gpio_dir_get :
    decodeFrame tp [0x01#8, 0x01#8, 0x05#8, 0x98#8, 0x38#8] = .ok (.gpioDirGet [0x05#8]) := by
  decide +kernel
theorem test_decode_gpio_read :
    decodeFrame tp [0x01#8, 0x02#8, 0x05#8, 0xCD#8, 0x6B#8] = .ok (.gpioRead [0x05#8]) := by
  decide +kernel
theorem test_decode_gpio_write :
    decodeFrame tp [0x01#8, 0x03#8, 0x05#8, 0x01#8, 0x44#8, 0xF0#8] = .ok (.gpioWrite [0x05#8, 0x01#8]) := by
  decide +kernel
theorem test_decode_gpio_value :
    decodeFrame tp [0xFE#8, 0xFF#8, 0x05#8, 0x01#8, 0x99#8, 0x60#8] = .ok (.gpioValue [0x05#8, 0x01#8]) := by
  decide +kernel
theorem test_decode_good : decodeFrame tp [0xFF#8, 0xFF#8, 0x00#8, 0x00#8] = .ok (.good []) := by
  decide +kernel
theorem test_decode_err_generic :
    decodeFrame tp [0xFF#8, 0xFE#8, 0x10#8, 0x21#8] = .ok (.errGeneric []) := by decide +kernel
theorem test_decode_err_crc : decodeFrame tp [0xFF#8, 0xFD#8, 0x20#8, 0x42#8] = .ok (.errCrc []) := by
  decide +kernel
theorem test_decode_err_unknown_code :
    decodeFrame tp [0xFF#8, 0xFC#8, 0x30#8, 0x63#8] = .ok (.errUnknownCode []) := by decide +kernel
theorem test_decode_err_invalid_args :
    decodeFrame tp [0xFF#8, 0xFB#8, 0x40#8, 0x84#8] = .ok (.errInvalidArgs []) := by decide +kernel
theorem test_decode_err_busy : decodeFrame tp [0xFF#8, 0xFA#8, 0x50#8, 0xA5#8] = .ok (.errBusy []) := by
  decide +kernel
theorem test_decode_gpio_dir_resp :
    decodeFrame tp [0xFE#8, 0xFE#8, 0x05#8, 0x02#8, 0x9E#8, 0x33#8] = .ok (.gpioDirResp [0x05#8, 0x02#8]) := by
  decide +kernel

/-- R72: a word of each class, `(DEC.esc << 8) | b`; END and ESC after an ESC are BadEsc (R87). -/
theorem test_decode_decoder_bytes :
    decode tp 3 (.decByte 0b011000000#9) = .ok (.decEnd 3)
      ∧ decode tp 3 (.decByte 0b011011011#9) = .ok (.decEsc 3)
      ∧ decode tp 3 (.decByte 0b011011100#9) = .ok (.decLit 0xDC#8 3)
      ∧ decode tp 3 (.decByte 0b111011100#9) = .ok (.decEscEnd 3)
      ∧ decode tp 3 (.decByte 0b111011101#9) = .ok (.decEscEsc 3)
      ∧ decode tp 3 (.decByte 0b111000000#9) = .ok (.decBadEsc 0xC0#8 3)
      ∧ decode tp 3 (.decByte 0b111011011#9) = .ok (.decBadEsc 0xDB#8 3) := by decide

/-- R73: a byte of each class; 0xDC and 0xDD are literals. -/
theorem test_decode_encoder_bytes :
    decode tp 3 (.encByte 0b11000000#8) = .ok (.encByteEnd 3)
      ∧ decode tp 3 (.encByte 0b11011011#8) = .ok (.encByteEsc 3)
      ∧ decode tp 3 (.encByte 0b11011101#8) = .ok (.encByteLit 0xDD#8 3) := by decide

/-- L2.4: unregistered codes, one of them GpioWrite byte-swapped. -/
theorem test_lookup_unregistered :
    codeLookup tp 0x0004#16 = none ∧ codeLookup tp 0x0301#16 = none ∧ codeLookup tp 0xFFF9#16 = none
      ∧ codeLookup tp 0xFEFE#16 = some .gpioDirResp := by decide

/-- A word placed at reset, with parameters of which nothing is known, is what the next step runs: GPIO_WRITE of zeros
(R231) and an ESC_END. -/
theorem test_table_word_runs_at_reset :
    (nextOf (step (State.reset.withFetchWord 16 0x0103))).map (fun t => (t.phase, t.req)) =
        some (.dispatching, some (.gpioWrite 0x00#8 .low))
      ∧ step (State.reset.withFetchWord 8 0xC0) = exec (.encByteEnd 0) State.reset := ⟨by decide +kernel, rfl⟩

/-- The table's words: a wire code, a decoder byte, a source byte. -/
theorem test_table_words :
    decodeTableWord 16 0x0103 = some (.gpioWrite [0x00#8, 0x00#8])
      ∧ decodeTableWord 9 0x1DC = some (.decEscEnd 0) ∧ decodeTableWord 8 0xDB = some (.encByteEsc 0) := by
  decide

/-! ## The codecs (L2.1, L2.2) -/

/-- D4: `DB DC DB DD C0` completes a frame of `C0 DB`. -/
theorem test_dec_feed_escapes :
    (nextOf (exec (.decFeed [0xDB#8, 0xDC#8, 0xDB#8, 0xDD#8, 0xC0#8]) ts)).map
      (fun t => (t.ret, t.decBytes, t.decEsc)) =
      some (.feed 5 true, [0xC0#8, 0xDB#8], false) := by decide

/-- D9: an END after an ESC is BadEsc at its index. -/
theorem test_dec_feed_esc_end :
    (nextOf (exec (.decFeed [0xDB#8, 0xC0#8]) ts)).map (fun t => (t.ret, t.decLen, t.decEsc)) =
      some (.raised (.badEsc 1), 0, false) := by decide

/-- D13: ESC at a full buffer sets the flag. -/
theorem test_dec_esc_when_full :
    (nextOf (exec (.decEsc 0) (cursors 64 0))).map (fun t => (t.ret, t.decLen, t.decEsc)) =
      some (.step .continues, 64, true) := by decide

/-- D14: the flag is cleared before the append fails. -/
theorem test_dec_esc_end_when_full :
    (nextOf (exec (.decEscEnd 0) { cursors 64 0 with decEsc := true })).map
      (fun t => (t.ret, t.decLen, t.decEsc)) = some (.raised (.bufferFullDec 0), 64, false) := by decide

/-- R105: the byte appended is ESC. -/
theorem test_dec_esc_esc :
    (nextOf (exec (.decEscEsc 1) { ts with decEsc := true })).map (fun t => (t.decBytes, t.decEsc)) =
      some ([0xDB#8], false) := by decide

/-- D12: the byte past the capacity. -/
theorem test_dec_lit_when_full :
    (nextOf (exec (.decLit 0xAA#8 8) { cursors 8 0 with cfg := { tp with decCap := 8 }, cfgOk := tp_ok })).map
      (fun t => (t.ret, t.decLen)) = some (.raised (.bufferFullDec 8), 8) := by decide

/-- D8: BadEsc clears the flag and keeps the buffer. -/
theorem test_dec_bad_esc :
    (nextOf (exec (.decBadEsc 0x41#8 2) { cursors 1 0 with decEsc := true })).map
      (fun t => (t.ret, t.decLen, t.decEsc)) = some (.raised (.badEsc 2), 1, false) := by decide

/-- D3: an END alone completes an empty frame. -/
theorem test_dec_end :
    (nextOf (exec (.decEnd 0) ts)).map (fun t => (t.ret, t.decLen)) = some (.step .completes, 0) := by decide

/-- D18: the slice is the bytes below the cursor. -/
theorem test_dec_slice :
    (nextOf (exec .decSlice (ready pingFrame))).map (·.ret) = some (.bytes pingFrame) := by decide

/-- D17. -/
theorem test_dec_reset :
    (nextOf (exec .decReset { cursors 7 0 with decEsc := true })).map (fun t => (t.decLen, t.decEsc)) =
      some (0, false) := by decide

/-- E2. -/
theorem test_enc_feed :
    (nextOf (exec (.encFeed [0x01#8, 0xC0#8, 0xDB#8]) ts)).map (·.encBytes) =
      some [0x01#8, 0xDB#8, 0xDC#8, 0xDB#8, 0xDD#8] := by decide

/-- E7: the bytes before the one that does not fit stay. -/
theorem test_enc_feed_overflow :
    (nextOf (exec (.encFeed [1#8, 2#8, 3#8, 4#8, 5#8])
      { ts with cfg := { tp with encCap := 4 }, cfgOk := tp_ok })).map (fun t => (t.ret, t.encBytes)) =
      some (.raised (.bufferFullEnc (some 4)), [1#8, 2#8, 3#8, 4#8]) := by decide

/-- E6: an escape pair is not split. -/
theorem test_enc_byte_end_whole :
    (nextOf (exec (.encByteEnd 0) { cursors 0 2 with cfg := { tp with encCap := 3 }, cfgOk := tp_ok })).map
      (fun t => (t.ret, t.encLen, t.encBuf)) = some (.raised (.bufferFullEnc (some 0)), 2, []) := by decide

/-- R132. -/
theorem test_enc_byte_esc :
    (nextOf (exec (.encByteEsc 0) ts)).map (·.encBytes) = some [0xDB#8, 0xDD#8] := by decide

/-- E3: 0xDC is not escaped. -/
theorem test_enc_byte_lit :
    (nextOf (exec (.encByteLit 0xDC#8 0) ts)).map (·.encBytes) = some [0xDC#8] := by decide

/-- E4. -/
theorem test_enc_finish :
    (nextOf (exec .encFinish ts)).map (·.encBytes) = some [0xC0#8] := by decide

/-- E8: a full encoder, and an error without a position. -/
theorem test_enc_finish_full :
    (nextOf (exec .encFinish { cursors 0 4 with cfg := { tp with encCap := 4 }, cfgOk := tp_ok })).map
      (fun t => (t.ret, t.encLen)) = some (.raised (.bufferFullEnc none), 4) := by decide

/-- R136: the slice of an empty encoder. -/
theorem test_enc_slice : (nextOf (exec .encSlice ts)).map (·.ret) = some (.bytes []) := by decide

/-- E10. -/
theorem test_enc_reset : (nextOf (exec .encReset (cursors 0 9))).map (·.encLen) = some 0 := by decide

/-! ## CRC, frames, registry, parser (L2.3 to L2.5) -/

/-- The check value of "123456789". -/
theorem test_crc_check_value :
    crc16 [0x31#8, 0x32#8, 0x33#8, 0x34#8, 0x35#8, 0x36#8, 0x37#8, 0x38#8, 0x39#8] = 0x29B1#16 := by
  decide +kernel

/-- R151: the residue of a whole frame. -/
theorem test_crc_residue :
    (nextOf (exec (.crc16 [0x01#8, 0x03#8, 0x05#8, 0x01#8, 0x44#8, 0xF0#8]) ts)).map (·.ret) =
      some (.word 0x0000#16) := by decide +kernel

/-- F5: the CRC is checked before the code. -/
theorem test_frame_decode_crc_first :
    (nextOf (exec (.frameDecode [0x12#8, 0x34#8, 0x00#8, 0x00#8]) ts)).map (·.ret) =
      some (.raised (.invalidCrc 0x0EC9#16 0x0000#16)) := by decide +kernel

/-- F11: a payload past the capacity. -/
theorem test_frame_decode_payload_cap :
    (nextOf (exec (.frameDecode [0x00#8, 0x00#8, 0x01#8, 0x02#8, 0x03#8, 0x04#8, 0x05#8, 0x73#8, 0xC6#8])
      { ts with cfg := { tp with payloadCap := 4 }, cfgOk := tp_ok })).map (·.ret) =
      some (.raised (.invalidLength 9)) := by decide +kernel

/-- L2.3: GpioRead `[BE]`. -/
theorem test_frame_encode :
    (nextOf (exec (.frameEncode .gpioRead [0xBE#8]) ts)).map (·.ret) =
      some (.bytes [0x01#8, 0x02#8, 0xBE#8, 0xDB#8, 0xDB#8]) := by decide +kernel

/-- L2.4. -/
theorem test_code_lookup :
    (nextOf (exec (.codeLookup 0xFFFA#16) ts)).map (·.ret) = some (.code (some .errBusy)) := by decide

/-- L2.4. -/
theorem test_code_encode :
    (nextOf (exec (.codeEncode .errCrc) ts)).map (·.ret) = some (.word 0xFFFD#16) := by decide

/-- L2.4. -/
theorem test_categorize :
    (nextOf (exec (.categorize .gpioDirSet) ts)).map (·.ret) = some (.category .gpioRequest) := by decide

/-- R200. -/
theorem test_arg_init :
    (nextOf (exec (.argInit [0x05#8]) ts)).map (·.arg) = some (some { view := [0x05#8], cur := 0 }) := by decide

/-- A1: the third read gives None and does not move. -/
theorem test_arg_u8_exhausted :
    (nextOf (exec .argU8 { ts with arg := some { view := [0x05#8, 0x01#8], cur := 2 } })).map
      (fun t => (t.ret, t.arg)) = some (.u8 none, some { view := [0x05#8, 0x01#8], cur := 2 }) := by decide

/-- A2. -/
theorem test_arg_u16 :
    (nextOf (exec .argU16 { ts with arg := some { view := [0x12#8, 0x34#8], cur := 0 } })).map
      (fun t => (t.ret, t.arg)) =
      some (.u16 (some 0x1234#16), some { view := [0x12#8, 0x34#8], cur := 2 }) := by decide

/-- A3: the failed read does not advance. -/
theorem test_arg_u16_short :
    (nextOf (exec .argU16 { ts with arg := some { view := [0x12#8], cur := 0 } })).map
      (fun t => (t.ret, t.arg)) = some (.u16 none, some { view := [0x12#8], cur := 0 }) := by decide

/-! ## Dispatcher and pipeline (L2.6 to L2.9) -/

/-- A5: bytes after the last field are ignored. -/
theorem test_req_build_surplus :
    (nextOf (exec (.reqBuild .gpioDirSet [0x05#8, 0x02#8, 0xAA#8]) ts)).map (·.ret) =
      some (.request (.gpioDirSet 0x05#8 .output)) := by decide

/-- R220 has no arm for a response code: the call ends with a request or an error, and the parser is discarded (R28). -/
theorem test_req_build_response_code :
    (nextOf (exec (.reqBuild .good [0x05#8]) ts)).map (·.arg) = some none := by
  rcases unstatedBuild_cases .good [0x05#8] ts with ⟨r, e⟩ | ⟨c, e⟩ <;>
    simp [exec, execReqBuild, buildRequest, nextOf, e]

/-- R28, R37: the parser is discarded after the construction, so a parse begun before it is not read on. -/
theorem test_req_build_discards_parser :
    (nextOf (exec (.reqBuild .gpioRead [0x05#8, 0xAA#8]) { ts with arg := some { view := [0x01#8], cur := 0 } })).map
      (fun t => (t.arg, t.ret)) = some (none, .request (.gpioRead 0x05#8)) := by decide

/-- R64, R347, I2: no payload byte is read after DEC_RESET. -/
theorem test_dec_reset_ends_parse :
    exec .decReset { ts with arg := some { view := [0x05#8, 0x01#8], cur := 0 } } = .next { ts with ret := .unit }
      ∧ exec .argU8 { ts with ret := .unit } = .fault (.noValue .arg) := ⟨rfl, rfl⟩

/-- X3: the bad value is found before the pin is looked at. -/
theorem test_req_build_bad_value :
    (nextOf (exec (.reqBuild .gpioWrite [0xC8#8, 0x02#8]) ts)).map (fun t => (t.ret, t.events)) =
      some (.raised (.invalidArg .gpioWrite (.badValue 0x02#8)),
        [.err (.invalidArg .gpioWrite (.badValue 0x02#8))]) := by decide

/-- Q14: an invalid pin is answered by the provider, and ErrInvalidArgs. -/
theorem test_req_exec_invalid_pin :
    (nextOf (exec (.reqExec (.gpioDirSet 200#8 .output)) ts)).map (fun t => (t.ret, t.events)) =
      some (.response (.errInvalidArgs []), [.gpio (.setDirection 200#8 .output) .invalidPin]) := by decide

/-- R260: GpioDirResp(5, Output). -/
theorem test_to_frame :
    (nextOf (exec (.toFrame (.gpioDirResp 0x05#8 .output)) ts)).map (·.ret) =
      some (.frame .gpioDirResp [0x05#8, 0x02#8]) := by decide

/-- Z1. -/
theorem test_reset :
    (nextOf (exec .reset { cursors 3 0 with
        phase := .accum, decEsc := true, rxCnt := 4, err := some (.badEsc 3) })).map
      (fun t => (t.phase, t.decLen, t.decEsc, t.rxCnt, t.err)) = some (.idle, 0, false, 0, none) := by decide

/-- P-1: an empty frame is dropped. -/
theorem test_s_rx_empty_dropped :
    (nextOf (exec .sRx (offering .idle 0 false 0xC0#8))).map (fun t => (t.phase, t.rxCnt, t.input)) =
      some (.idle, 0, []) := by decide

/-- L1.10: BadEsc at position 3 and the hunt. -/
theorem test_s_rx_bad_esc :
    (nextOf (exec .sRx { offering .accum 2 true 0x41#8 with rxCnt := 3 })).map
      (fun t => (t.phase, t.decLen, t.err)) = some (.hunt, 0, some (.badEsc 3)) := by decide

/-- P-7: an escape means nothing in a hunt, and END ends it. -/
theorem test_s_hunt :
    (nextOf (exec .sHunt (offering .hunt 0 false 0xDB#8))).map (·.phase) = some .hunt
      ∧ (nextOf (exec .sHunt (offering .hunt 0 false 0xC0#8))).map (·.phase) = some .idle := by decide

/-- L1.8: a 3-byte frame. -/
theorem test_s_decode_short :
    (nextOf (exec .sDecode (ready [0x00#8, 0x00#8, 0x1D#8]))).map (fun t => (t.phase, t.err, t.rsp)) =
      some (.responding, some (.invalidLength 3), some (.errGeneric [])) := by decide

/-- X2: a GPIO_DIR_SET with one field. -/
theorem test_s_decode_missing :
    (nextOf (exec .sDecode (ready [0x01#8, 0x00#8, 0x05#8, 0xAB#8, 0x09#8]))).map
      (fun t => (t.phase, t.err, t.rsp, t.req)) =
      some (.responding, some (.invalidArg .gpioDirSet .missing), some (.errInvalidArgs []), none) := by
  decide +kernel

/-- X4: an invalid pin is recorded after the call. -/
theorem test_s_dispatch_invalid_pin :
    (nextOf (exec .sDispatch (executing (.gpioDirSet 200#8 .output)))).map (fun t => (t.phase, t.err, t.rsp)) =
      some (.responding, some (.invalidPin .gpioDirSet 200#8), some (.errInvalidArgs [])) := by decide

/-- L1.6: the Good frame. -/
theorem test_s_respond :
    (nextOf (exec .sRespond (sending .good 64))).map (fun t => (t.phase, t.events)) =
      some (.idle, [.out [0xFF#8, 0xFF#8, 0x00#8, 0x00#8, 0xC0#8]]) := by decide +kernel

/-- P-10: the response is dropped. -/
theorem test_s_respond_overflow :
    (nextOf (exec .sRespond (sending .good 4))).map (fun t => (t.phase, t.encLen, t.err, outWrites t.events)) =
      some (.idle, 0, some (.bufferFullEnc none), []) := by decide +kernel

/-- Q1, Q3, Q4, Q5: what the generic requests are answered with. -/
theorem test_generic_requests :
    (nextOf (exec (.ping []) (executing .ping))).map (·.rsp) = some (some .good)
      ∧ (nextOf (exec (.itfType []) (executing .itfType))).map (·.rsp) = some (some (.ident .itfType))
      ∧ (nextOf (exec (.version []) (executing .version))).map (·.rsp) = some (some (.ident .version))
      ∧ (nextOf (exec (.idGet []) (executing .idGet))).map (·.rsp) = some (some (.ident .idGet)) := by decide

/-- Q14, Q17, Q24, Q30: an invalid pin, request by request. -/
theorem test_gpio_requests_invalid_pin :
    (nextOf (exec (.gpioDirSet []) (executing (.gpioDirSet 200#8 .output)))).map (·.rsp) =
        some (some (.errInvalidArgs []))
      ∧ (nextOf (exec (.gpioDirGet []) (executing (.gpioDirGet 200#8)))).map (·.rsp) =
        some (some (.errInvalidArgs []))
      ∧ (nextOf (exec (.gpioRead []) (executing (.gpioRead 200#8)))).map (·.rsp) =
        some (some (.errInvalidArgs []))
      ∧ (nextOf (exec (.gpioWrite []) (executing (.gpioWrite 200#8 .high)))).map (·.rsp) =
        some (some (.errInvalidArgs [])) := by decide

/-- L1.5: every response code is NotARequest when received. -/
theorem test_responses_inbound :
    (nextOf (exec (.good []) (inPhase .frameReady))).map (·.err) = some (some (.notARequest 0xFFFF#16))
      ∧ (nextOf (exec (.gpioValue []) (inPhase .frameReady))).map (·.err) = some (some (.notARequest 0xFEFF#16))
      ∧ (nextOf (exec (.errGeneric []) (inPhase .frameReady))).map (·.err) = some (some (.notARequest 0xFFFE#16))
      ∧ (nextOf (exec (.errCrc []) (inPhase .frameReady))).map (·.err) = some (some (.notARequest 0xFFFD#16))
      ∧ (nextOf (exec (.errUnknownCode []) (inPhase .frameReady))).map (·.err) =
        some (some (.notARequest 0xFFFC#16))
      ∧ (nextOf (exec (.errInvalidArgs []) (inPhase .frameReady))).map (·.err) =
        some (some (.notARequest 0xFFFB#16))
      ∧ (nextOf (exec (.errBusy []) (inPhase .frameReady))).map (·.err) = some (some (.notARequest 0xFFFA#16))
      ∧ (nextOf (exec (.gpioDirResp []) (inPhase .frameReady))).map (·.err) =
        some (some (.notARequest 0xFEFE#16)) := by decide

/-! ## Witnesses: concrete states and operands that meet the hypotheses of each obligation, clause by clause -/

/-- Parameters with one diagnostic string as long as `ERR_MSG_MAX`, and pin 255. -/
def tpDiag : Params := { tp with errMsgMax := 2, diag := [(.invalidLength 3, [1#8, 2#8])], validPins := [0, 255] }

/-- R325: an instance with pin 256 is refused, and one with pin 255 is made. -/
theorem test_power_on :
    powerOn { tp with validPins := [256] } = .refused .badInstance
      ∧ (nextOf (powerOn tpDiag)).map (·.cfg) = some tpDiag := ⟨rfl, rfl⟩

/-- BadInstanceRefusedAtReset, both ways at each bound. -/
theorem test_witness_instances :
    tpDiag.ok = true
      ∧ { tpDiag with errMsgMax := 1 }.ok = false ∧ { tp with validPins := [256] }.ok = false
      ∧ { tp with gpioDirRespCode := 0x0103#16 }.ok = false
      ∧ { tp with gpioDirRespCode := 0x0104#16 }.ok = true := by decide

/-- BufferReadsBackWhatWasWritten, with an index that was never written. -/
theorem test_witness_memory_wf : Memory.wf [(0, 1#8), (3, 2#8)] := by decide

theorem pingFrame_read (a : Nat) (h : ((ready pingFrame).decBuf.read a).isSome = true) : a < 4 := by
  rw [show (ready pingFrame).decBuf = [(0, 0x00#8), (1, 0x00#8), (2, 0x1D#8), (3, 0x0F#8)] from rfl] at h
  simp only [Memory.read] at h
  repeat' split at h
  all_goals first | omega | cases h

/-- EveryInstructionKeepsBufferInv, and the statements about every instruction's next state. -/
theorem test_witness_buffer_inv : BufferInv (ready pingFrame) ∧ ∃ t, exec .decReset (ready pingFrame) = .next t where
  left :=
    { decWf := by decide
      encWf := by decide
      decBound := by decide
      encBound := by decide
      decWritten := by decide
      encWritten := by decide
      decInside := fun a h => Nat.lt_of_lt_of_le (pingFrame_read a h) (by decide)
      encInside := fun _ h => by cases h
      argBound := fun _ h => by cases h }
  right := ⟨_, rfl⟩

/-- StepKeepsPipelineInv, BlockNeverHalts, CompletedFrameGetsOneResponse: a completed frame of Ping. -/
theorem test_witness_pipeline_ready :
    PipelineInv (ready pingFrame) ∧ (∃ t, step (ready pingFrame) = .next t)
      ∧ (ready pingFrame).calls = [] ∧ (ready pingFrame).phase = .frameReady
      ∧ 2 * (4 + (ready pingFrame).cfg.respPayloadMax) + 1 ≤ (ready pingFrame).cfg.encCap where
  left :=
    { onlyResets := fun _ h => by cases h
      buffers := test_witness_buffer_inv.1
      encEmpty := rfl
      freshDecoder := by decide
      accumStarted := by decide
      completeClean := fun _ => rfl
      reqLive := by decide
      rspLive := by decide
      frmLive := by decide
      frmCurrent := fun _ h => by cases h
      reqBuilt := fun _ h => by cases h
      argIdle := rfl
      rxAccum := by decide
      rxComplete := by decide
      rxBound := by decide
      neverBusy := by decide
      msgBounded := fun _ h => by cases h }
  right := ⟨⟨_, rfl⟩, rfl, rfl, by decide⟩

/-- RecommendedEncoderNeverOverflows, at an `ENC_CAP` of exactly the recommended size. -/
theorem test_witness_pipeline_sending :
    PipelineInv (sending .good 15)
      ∧ 2 * (4 + (sending .good 15).cfg.respPayloadMax) + 1 ≤ (sending .good 15).cfg.encCap
      ∧ (sending .good 15).phase = .responding where
  left :=
    { onlyResets := fun _ h => by cases h
      buffers :=
        { decWf := by decide
          encWf := by decide
          decBound := by decide
          encBound := by decide
          decWritten := by decide
          encWritten := by decide
          decInside := fun _ h => by cases h
          encInside := fun _ h => by cases h
          argBound := fun _ h => by cases h }
      encEmpty := rfl
      freshDecoder := by decide
      accumStarted := by decide
      completeClean := fun _ => rfl
      reqLive := by decide
      rspLive := by decide
      frmLive := by decide
      frmCurrent := fun _ h => by cases h
      reqBuilt := fun _ h => by cases h
      argIdle := rfl
      rxAccum := by decide
      rxComplete := by decide
      rxBound := by decide
      neverBusy := by decide
      msgBounded := fun r h => by cases h; trivial }
  right := ⟨by decide, rfl⟩

/-- StepRunsNextInstruction, StopsWhereNoRuleApplies, HuntDiscardsToEndAndPollsAreEmpty: each phase, with nothing
called and nothing offered, and a state with a call. -/
theorem test_witness_phases :
    ({ ts with calls := [.reset] } : State).calls = .reset :: [] ∧ ts.calls = [] ∧ ts.input = []
      ∧ (inPhase .idle).phase = .idle ∧ (inPhase .accum).phase = .accum ∧ (inPhase .hunt).phase = .hunt
      ∧ (inPhase .frameReady).phase = .frameReady
      ∧ (inPhase .dispatching).phase = .dispatching ∧ (inPhase .dispatching).req = none
      ∧ (inPhase .responding).phase = .responding ∧ (inPhase .responding).rsp = none
      ∧ (offering .hunt 0 false 0xC0#8).input = 0xC0#8 :: [] := by decide

/-- StopsWhereNoRuleApplies: another frame than the one in flight, no parse begun, a cursor just past its capacity;
ReqBuildTakesFields: a code that is no request. -/
theorem test_witness_stops :
    (executing .ping).phase = .dispatching ∧ (executing .ping).req = some .ping ∧ requestCode .ping ≠ .itfType
      ∧ (sending .good 64).phase = .responding ∧ (sending .good 64).rsp = some .good
      ∧ responseFrame (sending .good 64).cfg .good ≠ (.good, [0x00#8])
      ∧ (cursors 65 65).cfg.decCap < (cursors 65 65).decLen ∧ (cursors 65 65).cfg.encCap < (cursors 65 65).encLen
      ∧ ts.arg = none ∧ categorize .gpioDirResp = .response := by decide

/-- StepRunsDecodedFrame, clause by clause. -/
theorem test_witness_decoded_frame :
    (ready pingFrame).calls = [] ∧ (ready pingFrame).phase = .frameReady
      ∧ (ready pingFrame).decLen ≤ (ready pingFrame).cfg.decCap
      ∧ decodeFrame (ready pingFrame).cfg (ready pingFrame).decBytes = .ok (.ping [])
      ∧ (executing .ping).calls = [] ∧ (executing .ping).phase = .dispatching ∧ (executing .ping).req = some .ping
      ∧ (sending .good 64).calls = [] ∧ (sending .good 64).phase = .responding
      ∧ (sending .good 64).rsp = some .good := by decide +kernel

/-- DecodeOfEncodeIsInstruction, in each format, with a payload as long as the capacity. -/
theorem test_witness_encodable :
    (Instr.gpioWrite (List.replicate 60 0)).wf tp = true
      ∧ encode tp (.gpioWrite (List.replicate 60 0)) = some (.frame (frameEncode tp .gpioWrite (List.replicate 60 0)))
      ∧ (Instr.gpioDirResp [5#8, 2#8]).wf tp = true
      ∧ (Instr.decBadEsc 0xC0#8 9).wf tp = true ∧ encode tp (.decBadEsc 0xC0#8 9) = some (.decByte 0x1C0#9)
      ∧ (Instr.encByteLit 0xDD#8 9).wf tp = true ∧ encode tp (.encByteLit 0xDD#8 9) = some (.encByte 0xDD#8) :=
  ⟨by decide, rfl, by decide, by decide, rfl, by decide, rfl⟩

/-- SpecWordsDecode, at its bound. -/
theorem test_witness_spec_words : 2 ≤ { tp with payloadCap := 2 }.payloadCap := by decide

/-- DecLitAppends, DecEscapedBytesAppend: the last free index, and a full buffer; DecFlagBytesWriteNoBuffer: END
after an ESC. -/
theorem test_witness_decoder_bounds :
    (cursors 63 0).decLen < (cursors 63 0).cfg.decCap ∧ (cursors 64 0).cfg.decCap ≤ (cursors 64 0).decLen
      ∧ 0xDC#8 ≠ 0xC0#8 ∧ 0xDC#8 ≠ 0xDB#8 ∧ 0xC0#8 ≠ 0xDC#8 ∧ 0xC0#8 ≠ 0xDD#8 := by decide

/-- FeedRunsByteByByte, both ways; FeedChunkingIsIrrelevant, with an escape pending between the chunks (D6). -/
theorem test_witness_feeds :
    (∃ t, exec (.decFeed [0x01#8, 0xDB#8]) ts = .next t ∧ t.ret = .feed 2 false)
      ∧ ∃ t, exec (.decFeed [0x01#8, 0xC0#8]) ts = .next t ∧ t.ret ≠ .feed 2 false :=
  ⟨⟨_, rfl, rfl⟩, _, rfl, by decide⟩

/-- SlipDecodesWhatItEncodes, with as many bytes as fit. -/
theorem test_witness_slip :
    (List.replicate 64 0xC0#8).length ≤ ts.cfg.decCap ∧ ts.decLen = 0 ∧ ts.decEsc = false := by decide

/-- SlicesReadBelowCursor, each clause, with a written byte, and with every index of the space below the cursor. -/
theorem test_witness_slices :
    (ready pingFrame).decLen ≤ (ready pingFrame).cfg.decCap
      ∧ 3 < (ready pingFrame).decLen ∧ (ready pingFrame).decBuf.read 3 = some 0x0F#8
      ∧ (cursors 64 64).decLen ≤ (cursors 64 64).cfg.decCap ∧ (cursors 64 64).encLen ≤ (cursors 64 64).cfg.encCap
      ∧ ({ ts with encBuf := [(0, 7#8)], encLen := 1 } : State).encBuf.read 0 = some 7#8 := by decide

/-- EncByteUnitsAppendWhole, EncFeedAndFinishAppend: where a unit still fits and where it does not. -/
theorem test_witness_encoder_bounds :
    (cursors 0 62).encLen + 2 ≤ (cursors 0 62).cfg.encCap ∧ (cursors 0 63).cfg.encCap < (cursors 0 63).encLen + 2
      ∧ (cursors 0 63).encLen + 1 ≤ (cursors 0 63).cfg.encCap ∧ (cursors 0 64).cfg.encCap < (cursors 0 64).encLen + 1
      ∧ (cursors 0 63).encLen < (cursors 0 63).cfg.encCap ∧ (cursors 0 64).cfg.encCap ≤ (cursors 0 64).encLen
      ∧ (cursors 0 61).encLen + (slipEnc [0x01#8, 0xC0#8]).length ≤ (cursors 0 61).cfg.encCap
      ∧ ([0x01#8, 0xC0#8] = [0x01#8] ++ 0xC0#8 :: []
        ∧ (cursors 0 62).encLen + (slipEnc [0x01#8]).length ≤ (cursors 0 62).cfg.encCap
        ∧ (cursors 0 62).cfg.encCap < (cursors 0 62).encLen + (slipEnc [0x01#8]).length + (encUnit 0xC0#8).length) := by
  decide

/-- FrameDecodeChecksInOrder: a short frame, a wrong CRC (F5), an unregistered code (F6), and payloads at and past the
capacity (F10, F11); FrameRoundTrip. -/
theorem test_witness_frames :
    [0x00#8, 0x00#8, 0x1D#8].length < 4
      ∧ crc16 (0x12#8 :: 0x34#8 :: []) ≠ be16 0x00#8 0x00#8
      ∧ crc16 (0x12#8 :: 0x34#8 :: []) = be16 0x0E#8 0xC9#8 ∧ codeLookup tp (be16 0x12#8 0x34#8) = none
      ∧ crc16 (0x00#8 :: 0x00#8 :: [1#8, 2#8, 3#8, 4#8]) = be16 0x03#8 0x13#8
      ∧ crc16 (0x00#8 :: 0x00#8 :: [1#8, 2#8, 3#8, 4#8, 5#8]) = be16 0x73#8 0xC6#8
      ∧ codeLookup tp (be16 0x00#8 0x00#8) = some .ping
      ∧ [1#8, 2#8, 3#8, 4#8].length ≤ { tp with payloadCap := 4 }.payloadCap
      ∧ { tp with payloadCap := 4 }.payloadCap < [1#8, 2#8, 3#8, 4#8, 5#8].length
      ∧ tableCode tp.gpioDirRespCode = none ∧ (List.replicate 60 0xC0#8).length ≤ tp.payloadCap := by
  decide +kernel

/-- SingleBitFlipIsInvalidCrc: the top bit of the last byte. -/
theorem test_witness_bit_flip :
    frameDecode tp pingFrame = .ok (.ping, []) ∧ pingFrame[3]? = some 0x0F#8 ∧ 7 < 8 := by decide +kernel

/-- RegistryFollowsTable, CategoriesAreTheRanges, RegistryIsBijective, each clause. -/
theorem test_witness_registry :
    (0xFFFA#16, Code.errBusy) ∈ codeTable ∧ (∀ code, (0x0004#16, code) ∉ codeTable)
      ∧ Code.gpioDirResp = .gpioDirResp ∧ Code.good ≠ .gpioDirResp
      ∧ tableCode tp.gpioDirRespCode = none ∧ codeLookup tp 0xFEFE#16 = some .gpioDirResp
      ∧ tableCode { tp with gpioDirRespCode := 0xFFFF#16 }.gpioDirRespCode = some .good :=
  ⟨by decide, fun code h => by cases code <;> exact absurd h (by decide), rfl, by decide, by decide, by decide,
    by decide⟩

/-- A parse begun over a payload. -/
def parsing (view : List Byte) (cur : Nat) : State := { ts with arg := some { view := view, cur := cur } }

/-- ArgReadsAdvanceOrStay, each clause. -/
theorem test_witness_parser :
    (parsing [0x05#8, 0x01#8] 1).arg = some { view := [0x05#8] ++ 0x01#8 :: [], cur := [0x05#8].length }
      ∧ (parsing [0x05#8] 1).arg = some { view := [0x05#8], cur := [0x05#8].length }
      ∧ (parsing [0x05#8, 0x12#8, 0x34#8] 1).arg =
        some { view := [0x05#8] ++ 0x12#8 :: 0x34#8 :: [], cur := [0x05#8].length }
      ∧ (parsing [0x05#8, 0x12#8] 1).arg = some { view := [0x05#8] ++ [0x12#8], cur := [0x05#8].length }
      ∧ ts.arg = none := by decide

/-- ReqBuildTakesFields; ReqExecFoldsAnswer and GpioRequestsExecute: the last valid pin and the first invalid one. -/
theorem test_witness_requests :
    categorize .errBusy = .response ∧ categorize .gpioWrite = .gpioRequest
      ∧ (29#8).toNat ∈ ts.cfg.validPins ∧ (30#8).toNat ∉ ts.cfg.validPins
      ∧ (executing (.gpioDirSet 29#8 .output)).phase = .dispatching
      ∧ (executing (.gpioDirSet 29#8 .output)).req = some (.gpioDirSet 29#8 .output)
      ∧ (executing (.gpioDirGet 29#8)).req = some (.gpioDirGet 29#8)
      ∧ (executing (.gpioRead 29#8)).req = some (.gpioRead 29#8)
      ∧ (executing (.gpioWrite 30#8 .low)).req = some (.gpioWrite 30#8 .low) := by decide

/-- GenericRequestsBuildAndExecute, GpioRequestsBuild, InboundResponseCodesRejected, DispatchStepExecutesRequest. -/
theorem test_witness_generic_requests :
    (inPhase .frameReady).phase = .frameReady
      ∧ (executing .ping).phase = .dispatching ∧ (executing .ping).req = some .ping
      ∧ (executing .itfType).req = some .itfType ∧ (executing .version).req = some .version
      ∧ (executing .idGet).req = some .idGet := by decide

/-- RespondStepWritesFrame at an `ENC_CAP` the frame just fits; RespondStepDropsOnOverflow where only the END does not
fit, and where the last byte does not. -/
theorem test_witness_responding :
    (sending .good 5).phase = .responding ∧ (sending .good 5).rsp = some .good ∧ (sending .good 5).encLen = 0
      ∧ responseFrame (sending .good 5).cfg .good = (.good, [])
      ∧ (wireBytes (sending .good 5).cfg .good []).length ≤ (sending .good 5).cfg.encCap
      ∧ (slipEnc (frameEncode (sending .good 4).cfg .good [])).length = (sending .good 4).cfg.encCap
      ∧ frameEncode (sending .good 3).cfg .good [] = [0xFF#8, 0xFF#8, 0x00#8] ++ 0x00#8 :: []
      ∧ (slipEnc [0xFF#8, 0xFF#8, 0x00#8]).length ≤ (sending .good 3).cfg.encCap
      ∧ (sending .good 3).cfg.encCap < (slipEnc [0xFF#8, 0xFF#8, 0x00#8]).length + (encUnit 0x00#8).length := by
  decide +kernel

/-- RxContinues: a byte at the last free index; RxFramingErrorResyncs: after an ESC, an escape and a byte that is none at
a full buffer, and a literal at a full buffer; BytesOfferedLaterWait. -/
theorem test_witness_receiving :
    (offering .idle 63 false 0xDC#8).input = 0xDC#8 :: [] ∧ (offering .idle 63 false 0xDC#8).calls = []
      ∧ (offering .idle 63 false 0xDC#8).phase = .idle ∧ (offering .idle 63 false 0xDC#8).decEsc = false
      ∧ (offering .idle 63 false 0xDC#8).decLen < (offering .idle 63 false 0xDC#8).cfg.decCap
      ∧ (offering .accum 64 true 0xDD#8).phase = .accum ∧ (offering .accum 64 true 0xDD#8).decEsc = true
      ∧ (offering .accum 64 true 0xDD#8).cfg.decCap ≤ (offering .accum 64 true 0xDD#8).decLen
      ∧ 0xDD#8 ≠ 0xC0#8 ∧ 0xDD#8 ≠ 0xDB#8 ∧ 0xC0#8 ≠ 0xDD#8
      ∧ (offering .accum 64 true 0xC0#8).input = 0xC0#8 :: [] ∧ (offering .accum 64 true 0xC0#8).phase = .accum
      ∧ (offering .accum 64 true 0xC0#8).decEsc = true ∧ 0xC0#8 ≠ 0xDC#8 ∧ 0xC0#8 ≠ 0xDD#8
      ∧ (offering .accum 64 false 0x05#8).input = 0x05#8 :: [] ∧ (offering .accum 64 false 0x05#8).phase = .accum
      ∧ (offering .accum 64 false 0x05#8).decEsc = false ∧ 0x05#8 ≠ 0xC0#8 ∧ 0x05#8 ≠ 0xDB#8
      ∧ (offering .accum 64 false 0x05#8).cfg.decCap ≤ (offering .accum 64 false 0x05#8).decLen := by decide

/-- RxCompletesOrDrops: an empty frame under DROP and under PROCESS, and a frame of one byte. -/
theorem test_witness_completing :
    (offering .idle 0 false 0xC0#8).input = 0xC0#8 :: [] ∧ (offering .idle 0 false 0xC0#8).decLen = 0
      ∧ (offering .idle 0 false 0xC0#8).cfg.emptyFrameMode = .drop
      ∧ { tp with emptyFrameMode := .process }.emptyFrameMode = .process
      ∧ (offering .accum 1 false 0xC0#8).decLen ≠ 0 := by decide

/-- DecodeStepAnswersOrRuns: each error, and a frame that decodes. -/
theorem test_witness_decoding :
    (ready pingFrame).decBytes = pingFrame ∧ frameDecode tp pingFrame = .ok (.ping, [])
      ∧ (ready pingFrame).phase = .frameReady ∧ (ready pingFrame).decLen ≤ (ready pingFrame).cfg.decCap
      ∧ (ready []).decBytes = [] ∧ frameDecode tp [] = .error (.invalidLength 0)
      ∧ frameDecode tp [0x00#8, 0x00#8, 0xE2#8, 0x0F#8] = .error (.invalidCrc 0x1D0F#16 0xE20F#16)
      ∧ frameDecode tp [0x12#8, 0x34#8, 0x0E#8, 0xC9#8] = .error (.unknownCode 0x1234#16) := by decide +kernel

/-- OfferedFrameIsReceived, with as many bytes as fit. -/
theorem test_witness_offered :
    let s : State := { ts with input := slipEnc (List.replicate 64 0xDB#8) ++ 0xC0#8 :: [0x01#8] }
    List.replicate 64 0xDB#8 ≠ [] ∧ (List.replicate 64 0xDB#8).length ≤ s.cfg.decCap ∧ s.calls = []
      ∧ s.phase = .idle ∧ s.decLen = 0 ∧ s.decEsc = false
      ∧ s.input = slipEnc (List.replicate 64 0xDB#8) ++ 0xC0#8 :: [0x01#8] :=
  ⟨by decide, by decide, rfl, rfl, rfl, rfl, rfl⟩

/-- NoInstructionWritesParameters, InputAcceptedInOrder, OnlyRespondingWritesOut, AtMostOneProviderCall,
ErrWritesAreRecorded, NeverChoosesErrBusy, BytesOfferedLaterWait: an instruction that goes on, accepting a byte,
writing OUT, calling the provider, recording an error, or keeping a response. -/
theorem test_witness_next_states :
    (∃ t, exec .sRx (offering .idle 0 false 0x05#8) = .next t)
      ∧ (∃ t, step (offering .idle 0 false 0x05#8) = .next t) ∧ (offering .idle 0 false 0x05#8).input ≠ []
      ∧ (∃ t, exec .sRespond (sending .good 64) = .next t)
      ∧ (∃ t, exec (.reqExec (.gpioRead 30#8)) ts = .next t)
      ∧ (∃ t, exec (.decBadEsc 0xC0#8 0) ts = .next t)
      ∧ Instr.sRx ≠ .reset
      ∧ ∃ t, exec .decReset (sending .errBusy 64) = .next t ∧ t.rsp = some .errBusy :=
  ⟨⟨_, rfl⟩, ⟨_, rfl⟩, by decide, exists_next (by decide +kernel), ⟨_, rfl⟩, ⟨_, rfl⟩, by decide, _, rfl, rfl⟩

end Sys2Proof.Tests
end

namespace Sys2Proof.Proofs

open Sys2Proof.Machine

/-- Settles O6, from the laws of the byte buffers: each clause is one law of reading after a write (R12, R50). -/
theorem bufferReadsBackWhatWasWritten : Obligations.BufferReadsBackWhatWasWritten := by
  intro m space a b v bytes
  exact ⟨m.read_write a b v, m.read_writeN a b bytes, m.byteAt_write space a b v, m.readN_writeN space a bytes,
    fun hwf => ⟨Memory.write_wf a v hwf, Memory.writeN_wf a bytes hwf⟩⟩

end Sys2Proof.Proofs

namespace Sys2Proof.Proofs

open Sys2Proof.Machine

/-! ## What an operation can do to a byte buffer (R21, R22, R24, R25) -/

/-- From the contents `m` and the cursor `n`, a buffer of capacity `cap` can come to the listed contents and cursor: by
appending bytes at a cursor below the capacity, and by moving the cursor back to 0. -/
inductive BufferRun (cap : Nat) (m : Memory) (n : Nat) : Memory → Nat → Prop
  | refl : BufferRun cap m n m n
  | append {m' : Memory} {n' : Nat} (v : Byte) (run : BufferRun cap m n m' n') (room : n' < cap) :
      BufferRun cap m n (m'.write n' v) (n' + 1)
  | clear {m' : Memory} {n' : Nat} (run : BufferRun cap m n m' n') : BufferRun cap m n m' 0

theorem BufferRun.trans {cap : Nat} {m₁ m₂ m₃ : Memory} {n₁ n₂ n₃ : Nat} (first : BufferRun cap m₁ n₁ m₂ n₂)
    (second : BufferRun cap m₂ n₂ m₃ n₃) : BufferRun cap m₁ n₁ m₃ n₃ := by
  induction second with
  | refl => exact first
  | append v _ room ih => exact .append v ih room
  | clear _ ih => exact .clear ih

/-- Bytes that fit are appended one after another. -/
theorem BufferRun.writeN {cap : Nat} {m : Memory} {n : Nat} (bytes : List Byte) (room : n + bytes.length ≤ cap) :
    BufferRun cap m n (m.writeN n bytes) (n + bytes.length) := by
  induction bytes generalizing m n with
  | nil => exact .refl
  | cons b bytes ih =>
    rw [List.length_cons] at room ⊢
    have first : BufferRun cap m n (m.write n b) (n + 1) := .append b .refl (by omega)
    rw [show n + (bytes.length + 1) = n + 1 + bytes.length by omega]
    exact first.trans (ih (by omega))

/-- What `BufferInv` says of one buffer, with its capacity, contents and cursor. -/
structure BufferBounds (cap : Nat) (m : Memory) (n : Nat) : Prop where
  wf : m.wf
  bound : n ≤ cap
  written : ∀ a, a < n → (m.read a).isSome = true
  inside : ∀ a, (m.read a).isSome = true → a < cap

theorem BufferBounds.append {cap : Nat} {m : Memory} {n : Nat} (h : BufferBounds cap m n) (v : Byte) (room : n < cap) :
    BufferBounds cap (m.write n v) (n + 1) where
  wf := Memory.write_wf n v h.wf
  bound := room
  written a ha := by
    by_cases hn : a = n
    · simp [hn]
    · rw [Memory.read_write_of_ne v hn]
      exact h.written a (by omega)
  inside a ha := by
    by_cases hn : a = n
    · omega
    · rw [Memory.read_write_of_ne v hn] at ha
      exact h.inside a ha

theorem BufferBounds.clear {cap : Nat} {m : Memory} {n : Nat} (h : BufferBounds cap m n) : BufferBounds cap m 0 :=
  { h with bound := Nat.zero_le cap, written := fun _ ha => absurd ha (Nat.not_lt_zero _) }

theorem BufferRun.keeps_bounds {cap : Nat} {m m' : Memory} {n n' : Nat} (run : BufferRun cap m n m' n')
    (h : BufferBounds cap m n) : BufferBounds cap m' n' := by
  induction run with
  | refl => exact h
  | append v _ room ih => exact ih.append v room
  | clear _ ih => exact ih.clear

/-- `ARG.cur <= len(ARG.view)` where `ARG` holds a value (R28). -/
def ParserWithin (arg : Option ArgParser) : Prop := ∀ a, arg = some a → a.cur ≤ a.view.length

theorem parserWithin_none : ParserWithin none := nofun

theorem parserWithin_some {a : ArgParser} : ParserWithin (some a) ↔ a.cur ≤ a.view.length := by
  simp [ParserWithin]

theorem bufferInv_iff {s : State} :
    BufferInv s ↔ BufferBounds s.cfg.decCap s.decBuf s.decLen ∧ BufferBounds s.cfg.encCap s.encBuf s.encLen
      ∧ ParserWithin s.arg := by
  constructor
  · intro h
    exact ⟨⟨h.decWf, h.decBound, h.decWritten, h.decInside⟩, ⟨h.encWf, h.encBound, h.encWritten, h.encInside⟩,
      h.argBound⟩
  · rintro ⟨dec, enc, arg⟩
    exact ⟨dec.wf, enc.wf, dec.bound, enc.bound, dec.written, enc.written, dec.inside, enc.inside, arg⟩

/-! ## What an instruction can do to a state -/

/-- From any state: the parameters stay (R34), each buffer makes a run of appends and clears, and the parser's bound is
kept. A field left out stands for what the update does not touch. -/
structure BufferEffect (s t : State) : Prop where
  cfg : t.cfg = s.cfg := by rfl
  dec : BufferRun s.cfg.decCap s.decBuf s.decLen t.decBuf t.decLen := by exact .refl
  enc : BufferRun s.cfg.encCap s.encBuf s.encLen t.encBuf t.encLen := by exact .refl
  arg : ParserWithin s.arg → ParserWithin t.arg := by exact id

theorem BufferEffect.keeps_bufferInv {s t : State} (h : BufferEffect s t) (hs : BufferInv s) : BufferInv t := by
  obtain ⟨dec, enc, arg⟩ := bufferInv_iff.1 hs
  refine bufferInv_iff.2 ⟨?_, ?_, h.arg arg⟩
  · exact h.cfg ▸ h.dec.keeps_bounds dec
  · exact h.cfg ▸ h.enc.keeps_bounds enc

/-- An effect on the buffers that also writes `ERR` and its events at most once: `some e` where the error `e` is
recorded, `none` where none is (R31, R287). -/
structure StepEffect (s : State) (e : Option Err) (t : State) : Prop extends BufferEffect s t where
  err : t.err = e.or s.err := by rfl
  events : errWrites t.events = errWrites s.events ++ e.toList := by simp [errWrites]

namespace StepEffect

variable {s t u : State} {e : Option Err}

theorem refl (s : State) : StepEffect s none s := {}

/-- What an operation that records nothing leaves goes on to the next one. -/
theorem trans (first : StepEffect s none t) (second : StepEffect t e u) : StepEffect s e u where
  cfg := second.cfg.trans first.cfg
  dec := first.dec.trans (first.cfg ▸ second.dec)
  enc := first.enc.trans (first.cfg ▸ second.enc)
  arg := second.arg ∘ first.arg
  err := by rw [second.err, first.err, Option.none_or]
  events := by rw [second.events, first.events, Option.toList_none, List.append_nil]

theorem returns (h : StepEffect s none t) (r : Result) : StepEffect s none (t.returns r) := h.trans {}

theorem raises (h : StepEffect s none t) (e : Err) : StepEffect s (some e) (t.raises e) := h.trans {}

theorem takeError (h : StepEffect s none t) (e : Err) (handler : Phase) :
    StepEffect s (some e) (t.takeError e handler) := by
  refine h.trans ?_
  cases hr : errorResponse t.cfg e with
  | some r => rw [takeError_some handler hr]; exact {}
  | none => rw [takeError_none handler hr]; exact {}

/-- The return to `IDLE` clears both cursors and ends the parse, and leaves `ERR` (R315). -/
theorem returnToIdle (h : StepEffect s e t) : StepEffect s e t.returnToIdle where
  cfg := h.cfg
  dec := .clear h.dec
  enc := .clear h.enc
  arg _ := parserWithin_none
  err := h.err
  events := h.events

end StepEffect

/-! ## The decoder's and the encoder's operations -/

theorem stepEffect_decAppend (v : Byte) (pos : Nat) (s : State) : StepEffect s none (decAppend v pos s).1 := by
  rcases decAppend_cases v pos s with ⟨room, eq⟩ | ⟨_, eq⟩ <;> rw [eq]
  · exact { dec := .append v .refl room }
  · exact .refl s

theorem stepEffect_decStep (b : Byte) (pos : Nat) (s : State) : StepEffect s none (decStep b pos s).1 := by
  rcases decStep_cases b pos s with ⟨v, room, eq⟩ | ⟨_, _, eq⟩ | ⟨_, _, eq⟩ | ⟨_, eq⟩ | ⟨_, _, eq⟩ <;> rw [eq]
  · exact { dec := .append v .refl room }
  all_goals exact {}

theorem stepEffect_decFeedFrom (i : Nat) (chunk : List Byte) (s : State) :
    StepEffect s none (decFeedFrom i chunk s).1 := by
  induction chunk generalizing i s with
  | nil => exact .refl s
  | cons b rest ih =>
    have head := stepEffect_decStep b i s
    rw [decFeedFrom]
    generalize decStep b i s = step at head ⊢
    obtain ⟨t, e | r⟩ := step
    · exact head
    · cases r with
      | completes => exact head
      | continues => exact head.trans (ih (i + 1) t)

theorem stepEffect_encAppend (bytes : List Byte) (pos : Option Nat) (s : State) :
    StepEffect s none (encAppend bytes pos s).1 := by
  rcases encAppend_cases bytes pos s with ⟨room, eq⟩ | ⟨_, eq⟩ <;> rw [eq]
  · exact { enc := .writeN bytes room }
  · exact .refl s

theorem stepEffect_encFeedFrom (i : Nat) (bytes : List Byte) (s : State) :
    StepEffect s none (encFeedFrom i bytes s).1 := by
  induction bytes generalizing i s with
  | nil => exact .refl s
  | cons b rest ih =>
    have head := stepEffect_encAppend (encUnit b) (some i) s
    rw [encFeedFrom]
    generalize encAppend (encUnit b) (some i) s = step at head ⊢
    obtain ⟨t, e | _⟩ := step
    · exact head
    · exact head.trans (ih (i + 1) t)

/-- A byte operation's result, given to its caller: its error, if it has one, is the one recorded. -/
theorem stepEffect_replyStep {s t : State} {r : State × Except Err DecResult} (hr : StepEffect s none r.1)
    (h : replyStep r = .next t) : ∃ e, StepEffect s e t := by
  obtain ⟨u, e | d⟩ := r <;> cases h
  · exact ⟨_, hr.raises e⟩
  · exact ⟨_, hr.returns _⟩

theorem stepEffect_replyUnit {s t : State} {r : State × Except Err Unit} (hr : StepEffect s none r.1)
    (h : replyUnit r = .next t) : ∃ e, StepEffect s e t := by
  obtain ⟨u, e | d⟩ := r <;> cases h
  · exact ⟨_, hr.raises e⟩
  · exact ⟨_, hr.returns _⟩

theorem stepEffect_decFeed {chunk : List Byte} {s t : State} (h : execDecFeed chunk s = .next t) :
    ∃ e, StepEffect s e t := by
  have feed := stepEffect_decFeedFrom 0 chunk s
  rw [execDecFeed] at h
  generalize decFeedFrom 0 chunk s = fed at feed h
  obtain ⟨u, e | ⟨consumed, done⟩⟩ := fed <;> cases h
  · exact ⟨_, feed.raises e⟩
  · exact ⟨_, feed.returns _⟩

theorem stepEffect_decSlice {s t : State} (h : execDecSlice s = .next t) : ∃ e, StepEffect s e t := by
  rw [execDecSlice] at h
  split at h <;> cases h
  exact ⟨_, (StepEffect.refl s).returns _⟩

theorem stepEffect_encSlice {s t : State} (h : execEncSlice s = .next t) : ∃ e, StepEffect s e t := by
  rw [execEncSlice] at h
  split at h <;> cases h
  exact ⟨_, (StepEffect.refl s).returns _⟩

/-! ## The other interface operations -/

theorem stepEffect_frameDecode {bytes : List Byte} {s t : State} (h : execFrameDecode bytes s = .next t) :
    ∃ e, StepEffect s e t := by
  rw [execFrameDecode] at h
  generalize frameDecode s.cfg bytes = decoded at h
  obtain e | ⟨code, payload⟩ := decoded <;> cases h
  · exact ⟨_, (StepEffect.refl s).raises e⟩
  · exact ⟨_, (StepEffect.refl s).returns _⟩

theorem stepEffect_argU8 {s t : State} (h : execArgU8 s = .next t) : ∃ e, StepEffect s e t := by
  rw [execArgU8] at h
  cases harg : s.arg with
  | none => rw [harg] at h; cases h
  | some a =>
    rw [harg] at h
    cases h
    exact ⟨none, { arg := fun hs => parserWithin_some.2 (parserU8_bound (hs a harg)) }⟩

theorem stepEffect_argU16 {s t : State} (h : execArgU16 s = .next t) : ∃ e, StepEffect s e t := by
  rw [execArgU16] at h
  cases harg : s.arg with
  | none => rw [harg] at h; cases h
  | some a =>
    rw [harg] at h
    cases h
    exact ⟨none, { arg := fun hs => parserWithin_some.2 (parserU16_bound (hs a harg)) }⟩

theorem stepEffect_reqBuild {code : Code} {payload : List Byte} {s t : State}
    (h : execReqBuild code payload s = .next t) : ∃ e, StepEffect s e t := by
  have discarded : StepEffect s none { s with arg := none } := { arg := fun _ => parserWithin_none }
  rw [execReqBuild] at h
  generalize buildRequest code payload = built at h
  obtain _ | ⟨a, e | r⟩ := built <;> cases h
  · rcases unstatedBuild_cases code payload s with ⟨r, eq⟩ | ⟨cause, eq⟩ <;> rw [eq]
    · exact ⟨none, { arg := fun _ => parserWithin_none }⟩
    · exact ⟨some _, { arg := fun _ => parserWithin_none }⟩
  · exact ⟨_, discarded.raises e⟩
  · exact ⟨_, discarded.returns _⟩

/-- REQ_EXEC records no error: a provider's error is only part of what S_DISPATCH makes of it (R242, R278). -/
theorem stepEffect_reqExec {r : Request} {s t : State} (h : execReqExec r s = .next t) : ∃ e, StepEffect s e t := by
  rw [execReqExec] at h
  rcases execRequest_cases r s with
    ⟨rsp, _, eq⟩ | ⟨call, answer, _, ⟨rsp, _, eq⟩ | ⟨code, pin, eq⟩ | ⟨code, pin, eq⟩⟩ <;>
    rw [eq] at h <;> cases h
  all_goals exact ⟨none, {}⟩

/-! ## The pipeline -/

theorem stepEffect_rxByte (b : Byte) (rest : List Byte) (s : State) : ∃ e, StepEffect s e (rxByte b rest s) := by
  rcases rxByte_cases b rest s with
    ⟨v, room, eq⟩ | ⟨_, eq⟩ | ⟨_, _, _, eq⟩ | ⟨_, eq⟩ | ⟨e, ph, _, eq⟩ <;> rw [eq]
  · exact ⟨none, { dec := .append v .refl room, arg := fun _ => parserWithin_none }⟩
  · exact ⟨none, { arg := fun _ => parserWithin_none }⟩
  · exact ⟨none, { dec := .clear .refl, arg := fun _ => parserWithin_none }⟩
  · exact ⟨none, { arg := fun _ => parserWithin_none }⟩
  · exact ⟨some e, { dec := .clear .refl, arg := fun _ => parserWithin_none }⟩

theorem stepEffect_huntByte (b : Byte) (rest : List Byte) (s : State) : StepEffect s none (huntByte b rest s) := by
  rw [huntByte]
  split <;> exact { arg := fun _ => parserWithin_none }

theorem stepEffect_acceptFrame (code : Code) (payload : List Byte) (s : State) :
    ∃ e, StepEffect s e (acceptFrame code payload s) := by
  rcases acceptFrame_cases code payload s with ⟨_, r, _, eq⟩ | ⟨e, rsp, _, eq⟩ <;> rw [eq]
  · exact ⟨none, { arg := fun _ => parserWithin_none }⟩
  · exact ⟨some e, { arg := fun _ => parserWithin_none }⟩

theorem stepEffect_decodeBytes (bytes : List Byte) (s : State) : ∃ e, StepEffect s e (decodeBytes bytes s) := by
  rcases hd : frameDecode s.cfg bytes with e | ⟨code, payload⟩
  · obtain ⟨rsp, _, _, _, eq⟩ := decodeBytes_error hd
    rw [eq]
    exact ⟨some e, { arg := fun _ => parserWithin_none }⟩
  · rw [decodeBytes_ok hd]
    exact stepEffect_acceptFrame code payload s

theorem stepEffect_dispatchRequest (r : Request) (s : State) : ∃ e, StepEffect s e (dispatchRequest r s) := by
  rcases dispatchRequest_cases r s with
    ⟨rsp, _, eq⟩ | ⟨call, answer, _, ⟨rsp, _, eq⟩ | ⟨e, rsp, _, eq⟩⟩ <;> rw [eq]
  · exact ⟨none, { arg := fun _ => parserWithin_none }⟩
  · exact ⟨none, { arg := fun _ => parserWithin_none }⟩
  · exact ⟨some e, { arg := fun _ => parserWithin_none }⟩

/-- Whether the frame fits or not, what was encoded of it was appended within `ENC_CAP` before the return to `IDLE`
(R279, R280). -/
theorem stepEffect_sendFrame {code : Code} {payload : List Byte} {s t : State}
    (h : sendFrame code payload s = .next t) : ∃ e, StepEffect s e t := by
  have feed := stepEffect_encFeedFrom 0 (frameEncode s.cfg code payload) s
  rw [sendFrame] at h
  generalize encFeedFrom 0 (frameEncode s.cfg code payload) s = fed at feed h
  obtain ⟨u, e | _⟩ := fed
  · cases h
    exact ⟨_, (feed.takeError e .idle).returnToIdle⟩
  · have finish : StepEffect s none (encFinishOp u).1 := feed.trans (stepEffect_encAppend [slipEnd] none u)
    dsimp only at h
    generalize encFinishOp u = finished at finish h
    obtain ⟨v, e | _⟩ := finished <;> cases h
    · exact ⟨_, (finish.takeError e .idle).returnToIdle⟩
    · have sent : StepEffect v none (v.event (.out v.encBytes)) := {}
      exact ⟨_, (finish.trans sent).returnToIdle⟩

/-- A frame code that goes on runs one of the three operations its frame passes through (log entry 17). -/
theorem frameCode_next_cases {code : Code} {payload : List Byte} {s t : State}
    (h : frameCode code payload s = .next t) :
    t = acceptFrame code payload s ∨ (∃ r, t = dispatchRequest r s) ∨ sendFrame code payload s = .next t := by
  rw [frameCode] at h
  split at h
  · cases h
    exact .inl rfl
  · split at h
    · cases h
    · split at h <;> cases h
      exact .inr (.inl ⟨_, rfl⟩)
  · split at h
    · cases h
    · split at h
      · exact .inr (.inr h)
      · cases h
  all_goals cases h

theorem stepEffect_frameCode {code : Code} {payload : List Byte} {s t : State}
    (h : frameCode code payload s = .next t) : ∃ e, StepEffect s e t := by
  rcases frameCode_next_cases h with rfl | ⟨r, rfl⟩ | hsend
  · exact stepEffect_acceptFrame code payload s
  · exact stepEffect_dispatchRequest r s
  · exact stepEffect_sendFrame hsend

theorem stepEffect_sRx {s t : State} (h : execSRx s = .next t) : ∃ e, StepEffect s e t := by
  rw [execSRx] at h
  split at h
  · split at h <;> cases h
    · exact ⟨none, .refl s⟩
    · exact stepEffect_rxByte _ _ s
  · split at h <;> cases h
    · exact ⟨none, .refl s⟩
    · exact stepEffect_rxByte _ _ s
  all_goals cases h

theorem stepEffect_sHunt {s t : State} (h : execSHunt s = .next t) : ∃ e, StepEffect s e t := by
  rw [execSHunt] at h
  split at h
  · split at h <;> cases h
    · exact ⟨none, .refl s⟩
    · exact ⟨none, stepEffect_huntByte _ _ s⟩
  all_goals cases h

theorem stepEffect_sDecode {s t : State} (h : execSDecode s = .next t) : ∃ e, StepEffect s e t := by
  rw [execSDecode] at h
  split at h
  · split at h <;> cases h
    exact stepEffect_decodeBytes s.decBytes s
  all_goals cases h

theorem stepEffect_sDispatch {s t : State} (h : execSDispatch s = .next t) : ∃ e, StepEffect s e t := by
  rw [execSDispatch] at h
  split at h
  · split at h <;> cases h
    exact stepEffect_dispatchRequest _ s
  all_goals cases h

theorem stepEffect_sRespond {s t : State} (h : execSRespond s = .next t) : ∃ e, StepEffect s e t := by
  rw [execSRespond] at h
  split at h
  · split at h
    · cases h
    · exact stepEffect_sendFrame h
  all_goals cases h

/-! ## Every instruction -/

/-- The external reset clears both cursors, ends the parse and takes `ERR`'s value with no event (R340). -/
theorem bufferEffect_resetBlock (s : State) : BufferEffect s s.resetBlock where
  dec := .clear .refl
  enc := .clear .refl
  arg _ := parserWithin_none

/-- Every instruction but the external reset makes one such effect: the frame codes and the pipeline steps by the
pipeline's operations, the interface operations by their own. -/
theorem exec_stepEffect {i : Instr} {s t : State} (hi : i ≠ .reset) (h : exec i s = .next t) :
    ∃ e, StepEffect s e t := by
  cases i with
  | ping | itfType | version | idGet | gpioDirSet | gpioDirGet | gpioRead | gpioWrite | good | gpioValue | errGeneric
  | errCrc | errUnknownCode | errInvalidArgs | errBusy | gpioDirResp => exact stepEffect_frameCode h
  | decEnd => exact stepEffect_replyStep (r := (s, .ok .completes)) {} h
  | decEsc => exact stepEffect_replyStep (r := (s.setEsc, .ok .continues)) {} h
  | decLit b pos => exact stepEffect_replyStep (stepEffect_decAppend b pos s) h
  | decEscEnd pos =>
    exact stepEffect_replyStep (.trans (t := s.clearEsc) {} (stepEffect_decAppend slipEnd pos s.clearEsc)) h
  | decEscEsc pos =>
    exact stepEffect_replyStep (.trans (t := s.clearEsc) {} (stepEffect_decAppend slipEsc pos s.clearEsc)) h
  | decBadEsc b pos => exact stepEffect_replyStep (r := (s.clearEsc, .error (.badEsc pos))) {} h
  | encByteEnd pos => exact stepEffect_replyUnit (stepEffect_encAppend _ (some pos) s) h
  | encByteEsc pos => exact stepEffect_replyUnit (stepEffect_encAppend _ (some pos) s) h
  | encByteLit b pos => exact stepEffect_replyUnit (stepEffect_encAppend [b] (some pos) s) h
  | decFeed => exact stepEffect_decFeed h
  | decSlice => exact stepEffect_decSlice h
  | decReset => cases h; exact ⟨none, { dec := .clear .refl, arg := fun _ => parserWithin_none }⟩
  | encFeed bytes => exact stepEffect_replyUnit (stepEffect_encFeedFrom 0 bytes s) h
  | encFinish => exact stepEffect_replyUnit (stepEffect_encAppend [slipEnd] none s) h
  | encSlice => exact stepEffect_encSlice h
  | encReset => cases h; exact ⟨none, { enc := .clear .refl }⟩
  | crc16 | frameEncode | codeLookup | codeEncode | categorize | toFrame =>
    cases h; exact ⟨none, (StepEffect.refl s).returns _⟩
  | frameDecode => exact stepEffect_frameDecode h
  | argInit payload => cases h; exact ⟨none, { arg := fun _ => parserWithin_some.2 (Nat.zero_le _) }⟩
  | argU8 => exact stepEffect_argU8 h
  | argU16 => exact stepEffect_argU16 h
  | reqBuild => exact stepEffect_reqBuild h
  | reqExec => exact stepEffect_reqExec h
  | reset => exact absurd rfl hi
  | sRx => exact stepEffect_sRx h
  | sHunt => exact stepEffect_sHunt h
  | sDecode => exact stepEffect_sDecode h
  | sDispatch => exact stepEffect_sDispatch h
  | sRespond => exact stepEffect_sRespond h

theorem exec_bufferEffect {i : Instr} {s t : State} (h : exec i s = .next t) : BufferEffect s t := by
  by_cases hi : i = .reset
  · subst hi
    cases h
    exact bufferEffect_resetBlock s
  · obtain ⟨_, step⟩ := exec_stepEffect hi h
    exact step.toBufferEffect

/-! ## The obligations -/

/-- Settles O7: an instruction's runs of appends and clears keep the bounds of each buffer, and its parser's bound is
kept (R21 to R25, R28). -/
theorem everyInstructionKeepsBufferInv : Obligations.EveryInstructionKeepsBufferInv :=
  fun _ _ _ hs h => (exec_bufferEffect h).keeps_bufferInv hs

/-- Settles O5: the parameters are part of what no instruction's effect touches (R34). -/
theorem noInstructionWritesParameters : Obligations.NoInstructionWritesParameters :=
  fun _ _ _ h => (exec_bufferEffect h).cfg

/-- Settles O58: the one effect of the instruction records an error in `ERR` and in the history, or in neither (R31,
R287). -/
theorem errWritesAreRecorded : Obligations.ErrWritesAreRecorded := by
  intro i s t hi h
  obtain ⟨e, step⟩ := exec_stepEffect hi h
  cases e with
  | none => exact .inl ⟨step.err, by simpa using step.events⟩
  | some e => exact .inr ⟨e, step.err, step.events⟩

/-- Settles O1: each element's reset value is written in `State.reset` (R38), and a slice of no bytes is empty. -/
theorem resetLeavesTheResetValues : Obligations.ResetLeavesTheResetValues :=
  ⟨rfl, rfl, rfl, rfl, rfl, rfl, rfl, rfl, rfl, rfl, rfl, rfl⟩

end Sys2Proof.Proofs

namespace Sys2Proof.Proofs

open Sys2Proof.Machine

/-! ## Decoding what was encoded -/

/-- A serialized frame decodes to its code's instruction, when the payload fits and the code is looked up under its own
wire value (R158, R183). -/
theorem decodeFrame_frameEncode {p : Params} {code : Code} {payload : List Byte}
    (own : code = .gpioDirResp → tableCode p.gpioDirRespCode = none) (fits : payload.length ≤ p.payloadCap) :
    decodeFrame p (frameEncode p code payload) = .ok (frameInstr code payload) := by
  rw [decodeFrame, frameEncode, frameDecode_frameBytes p (codeLookup_codeEncode p own) fits]

theorem frameInstr_wf_iff {p : Params} {code : Code} {payload : List Byte} :
    (frameInstr code payload).wf p = true ↔
      payloadFits p payload = true ∧ (code = .gpioDirResp → tableCode p.gpioDirRespCode = none) := by
  cases code <;> simp [frameInstr, Instr.wf]

theorem decode_frame_of_wf {p : Params} {code : Code} {payload : List Byte} (pos : Nat)
    (hwf : (frameInstr code payload).wf p = true) :
    decode p pos (.frame (frameEncode p code payload)) = .ok (frameInstr code payload) := by
  obtain ⟨fits, own⟩ := frameInstr_wf_iff.1 hwf
  simp only [payloadFits, Bool.and_eq_true, decide_eq_true_eq] at fits
  exact decodeFrame_frameEncode own fits.1

/-- The 9-bit word of a decoder byte holds the flag and the byte its class is taken from (R72). -/
theorem decode_decWord (p : Params) (pos : Nat) (esc : Bool) (b : Byte) :
    decode p pos (.decByte (decWord esc b)) = .ok (decByteInstr esc b pos) := by
  rw [decode, decWord_flag, decWord_byte]

theorem decByteInstr_lit {b : Byte} (h : decClass false b = .lit) (pos : Nat) :
    decByteInstr false b pos = .decLit b pos := by
  rw [decByteInstr, h]

theorem decByteInstr_badEsc {b : Byte} (h : decClass true b = .badEsc) (pos : Nat) :
    decByteInstr true b pos = .decBadEsc b pos := by
  rw [decByteInstr, h]

theorem encByteInstr_lit {b : Byte} (h : encClass b = .lit) (pos : Nat) :
    encByteInstr b pos = .encByteLit b pos := by
  rw [encByteInstr, h]

/-- Settles O11, by the format of the bits: a frame by the frame codec's round trip (R158), a decoder byte by its 9-bit
word (R72), a source byte by its class (R73). -/
theorem decodeOfEncodeIsInstruction : Obligations.DecodeOfEncodeIsInstruction := by
  intro p i w hwf hw
  cases i with
  | ping | itfType | version | idGet | gpioDirSet | gpioDirGet | gpioRead | gpioWrite | good | gpioValue | errGeneric
  | errCrc | errUnknownCode | errInvalidArgs | errBusy | gpioDirResp =>
    cases hw
    exact decode_frame_of_wf 0 hwf
  | decEnd pos | decEsc pos | decEscEnd pos | decEscEsc pos =>
    cases hw
    exact decode_decWord p pos _ _
  | decLit b pos =>
    cases hw
    exact (decode_decWord p pos false b).trans (congrArg Except.ok (decByteInstr_lit (of_decide_eq_true hwf) pos))
  | decBadEsc b pos =>
    cases hw
    exact (decode_decWord p pos true b).trans (congrArg Except.ok (decByteInstr_badEsc (of_decide_eq_true hwf) pos))
  | encByteEnd | encByteEsc =>
    cases hw
    rfl
  | encByteLit b pos =>
    cases hw
    exact congrArg Except.ok (encByteInstr_lit (of_decide_eq_true hwf) pos)
  | decFeed | decSlice | decReset | encFeed | encFinish | encSlice | encReset | crc16 | frameDecode | frameEncode
  | codeLookup | codeEncode | categorize | argInit | argU8 | argU16 | reqBuild | reqExec | toFrame | reset | sRx
  | sHunt | sDecode | sDispatch | sRespond => cases hw

/-! ## The spec's words -/

/-- The frame of R224. -/
theorem frameEncode_ping (p : Params) : frameEncode p .ping [] = [0x00#8, 0x00#8, 0x1D#8, 0x0F#8] := by
  change frameBytes 0x0000#16 [] = _
  decide +kernel

/-- The frame of R231, for pin 5 and the value High. -/
theorem frameEncode_gpioWrite (p : Params) :
    frameEncode p .gpioWrite [0x05#8, 0x01#8] = [0x01#8, 0x03#8, 0x05#8, 0x01#8, 0x44#8, 0xF0#8] := by
  change frameBytes 0x0103#16 [0x05#8, 0x01#8] = _
  decide +kernel

/-- The frame of R258. -/
theorem frameEncode_good (p : Params) : frameEncode p .good [] = [0xFF#8, 0xFF#8, 0x00#8, 0x00#8] := by
  change frameBytes 0xFFFF#16 [] = _
  decide +kernel

/-- Settles O12: each frame is the encoding of its instruction, so the frame codec's round trip decodes it (R158); each
byte's class is computed (R72, R73). -/
theorem specWordsDecode : Obligations.SpecWordsDecode := by
  intro p hcap
  refine ⟨?ping, ?gpioWrite, ?good, rfl, rfl, rfl, rfl, rfl, rfl, rfl, rfl, rfl⟩
  case ping =>
    rw [← frameEncode_ping p]
    exact decodeFrame_frameEncode nofun (Nat.zero_le _)
  case gpioWrite =>
    rw [← frameEncode_gpioWrite p]
    exact decodeFrame_frameEncode nofun hcap
  case good =>
    rw [← frameEncode_good p]
    exact decodeFrame_frameEncode nofun (Nat.zero_le _)

/-! ## Response codes received inbound -/

/-- In `FRAME_READY` a frame code is accepted as S_DECODE accepts its frame (R277; log entry 17). -/
theorem exec_frameInstr_frameReady {s : State} (hs : s.phase = .frameReady) (code : Code) (payload : List Byte) :
    exec (frameInstr code payload) s = .next (acceptFrame code payload s) := by
  rw [exec_frameInstr, frameCode, hs]

/-- A response code received inbound is entered as NotARequest with its wire value, before any request is built (R184,
R306, R313). -/
theorem acceptFrame_response {code : Code} (hc : categorize code = .response) (payload : List Byte) (s : State) :
    acceptFrame code payload s =
      { s with frm := some { code := code, payload := payload }, arg := none,
               err := some (.notARequest (codeEncode s.cfg code)),
               events := s.events ++ [.err (.notARequest (codeEncode s.cfg code))],
               rsp := some (.errGeneric (s.cfg.diagOf (.notARequest (codeEncode s.cfg code)))),
               phase := .responding } := by
  rw [acceptFrame, if_pos hc]
  exact State.takeError_of_response .responding rfl

/-- Settles O41: in `FRAME_READY` the frame code is accepted, and each of the eight codes is of the category R184
rejects. -/
theorem inboundResponseCodesRejected : Obligations.InboundResponseCodesRejected := by
  intro payload s hs
  have reject (code : Code) (hc : categorize code = .response) :=
    (exec_frameInstr_frameReady hs code payload).trans (congrArg Host.Outcome.next (acceptFrame_response hc payload s))
  exact ⟨reject .good rfl, reject .gpioValue rfl, reject .errGeneric rfl, reject .errCrc rfl,
    reject .errUnknownCode rfl, reject .errInvalidArgs rfl, reject .errBusy rfl, reject .gpioDirResp rfl⟩

end Sys2Proof.Proofs

namespace Sys2Proof.Proofs

open Sys2Proof.Machine

/-! ## The byte operations of the decoder (R101 to R107) -/

theorem decClass_lit {b : Byte} (notEnd : b ≠ slipEnd) (notEsc : b ≠ slipEsc) : decClass false b = .lit := by
  simp [decClass, notEnd, notEsc]

theorem decClass_badEsc {b : Byte} (notEscEnd : b ≠ slipEscEnd) (notEscEsc : b ≠ slipEscEsc) :
    decClass true b = .badEsc := by
  simp [decClass, notEscEnd, notEscEsc]

/-- The instruction of a byte's class gives the caller what the byte step gives (R72, R107). -/
theorem exec_decByteInstr (b : Byte) (pos : Nat) (s : State) :
    exec (decByteInstr s.decEsc b pos) s = replyStep (decStep b pos s) := by
  cases hc : decClass s.decEsc b <;> rw [decByteInstr, decStep, hc] <;> rfl

/-- Settles O13: outside an escape the byte's class is the literal's, and `APPEND` answers by the room (R100, R101). -/
theorem decLitAppends : Obligations.DecLitAppends := by
  intro b pos s
  refine ⟨fun notEnd notEsc => decByteInstr_lit (decClass_lit notEnd notEsc) pos, fun room => ?_, fun full => ?_⟩
  · exact congrArg replyStep (decAppend_room b pos room)
  · exact congrArg replyStep (decAppend_full b pos full)

/-- Settles O14: none of the three operations reaches `APPEND` (R102, R103, R106). -/
theorem decFlagBytesWriteNoBuffer : Obligations.DecFlagBytesWriteNoBuffer := by
  intro b pos s
  exact ⟨rfl, rfl, rfl, rfl,
    fun notEscEnd notEscEsc => decByteInstr_badEsc (decClass_badEsc notEscEnd notEscEsc) pos, rfl⟩

/-- Settles O15: `APPEND` runs on the state with the flag cleared, whose room is that of the state before (R104,
R105). -/
theorem decEscapedBytesAppend : Obligations.DecEscapedBytesAppend := by
  intro pos s
  refine ⟨rfl, rfl, fun room => ?_, fun full => ?_⟩
  · have append (v : Byte) := congrArg replyStep (decAppend_room (s := s.clearEsc) v pos room)
    exact ⟨append slipEnd, append slipEsc⟩
  · have append (v : Byte) := congrArg replyStep (decAppend_full (s := s.clearEsc) v pos full)
    exact ⟨append slipEnd, append slipEsc⟩

/-- Settles O17: the class picks the same operation for the instruction and for the byte step, and the class is the
case split of R72. -/
theorem decStepRunsItsClass : Obligations.DecStepRunsItsClass := by
  intro b pos s
  refine ⟨exec_decByteInstr b pos s, ?_⟩
  cases esc : s.decEsc with
  | true =>
    by_cases escEnd : b = 0xDC#8
    · subst escEnd
      rw [decStep, esc]
      rfl
    by_cases escEsc : b = 0xDD#8
    · subst escEsc
      rw [decStep, esc]
      rfl
    · rw [decStep, esc, decClass_badEsc escEnd escEsc, if_pos rfl, if_neg escEnd, if_neg escEsc]
      rfl
  | false =>
    by_cases isEnd : b = 0xC0#8
    · subst isEnd
      rw [decStep, esc]
      rfl
    by_cases isEsc : b = 0xDB#8
    · subst isEsc
      rw [decStep, esc]
      rfl
    · rw [decStep, esc, decClass_lit isEnd isEsc, if_neg Bool.false_ne_true, if_neg isEnd, if_neg isEsc]

/-- Settles O21: the resets write the cursors and what DEC_RESET ends, and the parser's reads find no value (R37,
R110, R137). -/
theorem codecResetsClearCursors : Obligations.CodecResetsClearCursors := fun _ => ⟨rfl, rfl, rfl, rfl⟩

/-! ## The slices (R109, R136) -/

/-- A slice from index 0 holds the byte last written at each written index below its length. -/
theorem readN_getElem?_of_read {m : Memory} {space : Space} {n k : Nat} {b : Byte} (below : k < n)
    (written : m.read k = some b) : (m.readN space 0 n)[k]? = some b := by
  rw [Memory.readN_getElem? m space below, Nat.zero_add, Memory.byteAt_of_read space written]

theorem exec_decSlice {s : State} (bound : s.decLen ≤ s.cfg.decCap) :
    exec .decSlice s = .next (s.returns (.bytes s.decBytes)) := if_pos bound

theorem exec_encSlice {s : State} (bound : s.encLen ≤ s.cfg.encCap) :
    exec .encSlice s = .next (s.returns (.bytes s.encBytes)) := if_pos bound

/-- Settles O20: a cursor within the capacity lets the slice be read, one byte at each index below it. -/
theorem slicesReadBelowCursor : Obligations.SlicesReadBelowCursor := fun s =>
  ⟨fun bound => ⟨s.decBytes, exec_decSlice bound, s.decBytes_length, fun _ _ => readN_getElem?_of_read⟩,
   fun bound => ⟨s.encBytes, exec_encSlice bound, Memory.readN_length .., fun _ _ => readN_getElem?_of_read⟩⟩

/-! ## A feed (R108, R112) -/

/-- What DEC_FEED gives its caller, by what its run over the chunk came to (R12, R108). -/
def feedResult : Except Err (Nat × Bool) → Result
  | .ok (consumed, done) => .feed consumed done
  | .error e => .raised e

/-- The state DEC_FEED leaves, by what its run over the chunk came to (R12, R31, R108). -/
def feedReply : State × Except Err (Nat × Bool) → State
  | (t, .ok (consumed, done)) => t.returns (.feed consumed done)
  | (t, .error e) => t.raises e

theorem exec_decFeed (chunk : List Byte) (s : State) :
    exec (.decFeed chunk) s = .next (feedReply (decFeedFrom 0 chunk s)) := by
  rw [exec, execDecFeed]
  rcases decFeedFrom 0 chunk s with ⟨t, e | ⟨consumed, done⟩⟩ <;> rfl

@[simp] theorem feedReply_decBuf (r : State × Except Err (Nat × Bool)) : (feedReply r).decBuf = r.1.decBuf := by
  obtain ⟨t, e | _⟩ := r <;> rfl

@[simp] theorem feedReply_decLen (r : State × Except Err (Nat × Bool)) : (feedReply r).decLen = r.1.decLen := by
  obtain ⟨t, e | _⟩ := r <;> rfl

@[simp] theorem feedReply_decEsc (r : State × Except Err (Nat × Bool)) : (feedReply r).decEsc = r.1.decEsc := by
  obtain ⟨t, e | _⟩ := r <;> rfl

@[simp] theorem feedReply_ret (r : State × Except Err (Nat × Bool)) : (feedReply r).ret = feedResult r.2 := by
  obtain ⟨t, e | _⟩ := r <;> rfl

/-- The reply to a run that wrote the decoder only adds `ERR`, the history and the result to what is written. -/
theorem feedReply_frame {s : State} {r : State × Except Err (Nat × Bool)} (h : r.1 = s.withDecoder r.1) :
    feedReply r = { s with
      decBuf := (feedReply r).decBuf, decLen := (feedReply r).decLen, decEsc := (feedReply r).decEsc,
      err := (feedReply r).err, events := (feedReply r).events, ret := (feedReply r).ret } := by
  obtain ⟨t, e | _⟩ := r <;> rw [show t = s.withDecoder t from h] <;> rfl

/-- Only a chunk that was consumed whole without an END is answered with its length and no frame. -/
theorem decFeedFrom_of_feedReply_ret {chunk : List Byte} {s : State} {n : Nat}
    (h : (feedReply (decFeedFrom 0 chunk s)).ret = .feed n false) :
    ∃ d, decFeedFrom 0 chunk s = (d, .ok (n, false)) := by
  rcases hf : decFeedFrom 0 chunk s with ⟨d, e | ⟨m, done⟩⟩ <;> rw [hf] at h <;> cases h
  exact ⟨d, rfl⟩

/-- A feed of one byte is its byte step. -/
theorem feedReply_decFeedFrom_singleton (b : Byte) (i : Nat) (s : State) :
    feedReply (decFeedFrom i [b] s) = match decStep b i s with
      | (u, .ok .continues) => u.returns (.feed (i + 1) false)
      | (u, .ok .completes) => u.returns (.feed (i + 1) true)
      | (u, .error e) => u.raises e := by
  rw [decFeedFrom]
  rcases decStep b i s with ⟨u, e | _ | _⟩ <;> rfl

/-- A byte step neither reads nor writes the result register. -/
theorem decStep_returns (b : Byte) (pos : Nat) (s : State) (r : Result) :
    decStep b pos (s.returns r) = ((decStep b pos s).1.returns r, (decStep b pos s).2) := by
  have writes : (s.returns r).withDecoder (decStep b pos s).1 = (decStep b pos s).1.returns r :=
    congrArg (·.returns r) (decStep_frame b pos s).symm
  rw [← writes]
  exact decStep_congr b pos rfl rfl

@[simp] theorem decStep_cfg (b : Byte) (pos : Nat) (s : State) : (decStep b pos s).1.cfg = s.cfg := by
  rw [decStep_frame]
  rfl

/-- A feed depends on the decoder and the capacity only. -/
theorem decFeedFrom_congr {s s' : State} (i : Nat) (chunk : List Byte) (hc : s'.cfg = s.cfg)
    (hd : s'.withDecoder s = s') :
    decFeedFrom i chunk s' = (s'.withDecoder (decFeedFrom i chunk s).1, (decFeedFrom i chunk s).2) := by
  induction chunk generalizing i s s' with
  | nil => rw [decFeedFrom_nil, decFeedFrom_nil, hd]
  | cons b rest ih =>
    have ht := decStep_cfg b i s
    rw [decFeedFrom, decFeedFrom, decStep_congr b i hc hd]
    generalize decStep b i s = r at ht ⊢
    obtain ⟨t, e | _ | _⟩ := r
    · rfl
    · exact ih (i + 1) (hc.trans ht.symm) rfl
    · rfl

/-- Settles O16: a feed consumed whole goes on with the next byte from where it stands, one that ended does not look
at what follows (R108). -/
theorem feedRunsByteByByte : Obligations.FeedRunsByteByByte := by
  intro chunk s
  obtain ⟨frame, cursor, outside⟩ := decFeedFrom_frame 0 chunk s
  refine ⟨rfl, _, exec_decFeed chunk s, feedReply_frame frame, by simpa using cursor, by simpa using outside,
    fun whole b => ?_, fun ended more => ?_⟩
  · obtain ⟨d, hd⟩ := decFeedFrom_of_feedReply_ret whole
    obtain ⟨_, next⟩ := decFeedFrom_append_of_more [b] hd
    rw [exec_decFeed, next, hd, Nat.zero_add, feedReply_decFeedFrom_singleton, feedReply, decStep_returns]
    rcases decStep b chunk.length d with ⟨u, e | _ | _⟩ <;> rfl
  · have stays : ∀ n, (decFeedFrom 0 chunk s).2 ≠ .ok (n, false) := by
      intro n hn
      have whole : decFeedFrom 0 chunk s = ((decFeedFrom 0 chunk s).1, .ok (n, false)) := Prod.ext rfl hn
      obtain ⟨hlen, _⟩ := decFeedFrom_append_of_more [] whole
      exact ended (by rw [whole, hlen, Nat.zero_add]; rfl)
    rw [exec_decFeed, decFeedFrom_append_of_ended more rfl stays]

/-- An error of the decoder with its position moved by `k` bytes (R112). -/
def shiftErr (k : Nat) : Err → Err
  | .badEsc pos => .badEsc (k + pos)
  | .bufferFullDec pos => .bufferFullDec (k + pos)
  | e => e

theorem shiftFeed_raised (k : Nat) (e : Err) : shiftFeed k (.raised e) = .raised (shiftErr k e) := by
  cases e <;> rfl

/-- What a feed came to with its offsets moved by `k` bytes (R112). -/
def shiftOutcome (k : Nat) : Except Err (Nat × Bool) → Except Err (Nat × Bool)
  | .ok (consumed, done) => .ok (k + consumed, done)
  | .error e => .error (shiftErr k e)

theorem feedResult_shiftOutcome (k : Nat) (o : Except Err (Nat × Bool)) :
    feedResult (shiftOutcome k o) = shiftFeed k (feedResult o) := by
  obtain e | _ := o
  · exact (shiftFeed_raised k e).symm
  · rfl

/-- `APPEND` uses its position for nothing but the position of its error (R100). -/
theorem decAppend_shift (k pos : Nat) (v : Byte) (s : State) :
    decAppend v (k + pos) s = ((decAppend v pos s).1, (decAppend v pos s).2.mapError (shiftErr k)) := by
  rcases decAppend_cases v pos s with ⟨room, eq⟩ | ⟨full, eq⟩ <;> rw [eq]
  · exact decAppend_room v _ room
  · exact decAppend_full v _ full

/-- The byte step uses its position for nothing but the position of its error (R107). -/
theorem decStep_shift (k pos : Nat) (b : Byte) (s : State) :
    decStep b (k + pos) s = ((decStep b pos s).1, (decStep b pos s).2.mapError (shiftErr k)) := by
  rw [decStep, decStep]
  cases decClass s.decEsc b with
  | lit | escEnd | escEsc => exact decAppend_shift k pos _ _
  | esc | endFrame | badEsc => rfl

/-- A feed from a later index leaves the same state and comes to the same, its offsets moved (R112). -/
theorem decFeedFrom_shift (k i : Nat) (chunk : List Byte) (s : State) :
    decFeedFrom (k + i) chunk s = ((decFeedFrom i chunk s).1, shiftOutcome k (decFeedFrom i chunk s).2) := by
  induction chunk generalizing i s with
  | nil => rfl
  | cons b rest ih =>
    rw [decFeedFrom, decFeedFrom, decStep_shift]
    rcases decStep b i s with ⟨t, e | _ | _⟩
    · rfl
    · exact ih (i + 1) t
    · rfl

/-- Settles O18: the second chunk is fed at once from the index the first one ended at, and alone from index 0, on
states that agree in the decoder (R112). -/
theorem feedChunkingIsIrrelevant : Obligations.FeedChunkingIsIrrelevant := by
  intro c1 c2 s t ht whole
  rw [exec_decFeed] at ht
  cases ht
  obtain ⟨d, hd⟩ := decFeedFrom_of_feedReply_ret whole
  have alone : decFeedFrom 0 c2 (feedReply (decFeedFrom 0 c1 s)) =
      ((d.returns (.feed c1.length false)).withDecoder (decFeedFrom 0 c2 d).1, (decFeedFrom 0 c2 d).2) := by
    rw [hd]
    exact decFeedFrom_congr 0 c2 rfl rfl
  have atOnce : decFeedFrom 0 (c1 ++ c2) s =
      ((decFeedFrom 0 c2 d).1, shiftOutcome c1.length (decFeedFrom 0 c2 d).2) := by
    rw [(decFeedFrom_append_of_more c2 hd).2, Nat.zero_add]
    exact decFeedFrom_shift c1.length 0 c2 d
  refine ⟨_, _, exec_decFeed c2 _, exec_decFeed (c1 ++ c2) s, ?_⟩
  rw [atOnce, alone]
  simp [State.withDecoder, feedResult_shiftOutcome]

/-! ## Escaped bytes are decoded back (R113) -/

/-- Feeding the escaped form of bytes that fit appends them, and the feed goes on after it (R113). -/
theorem decFeedFrom_slipEnc {s : State} (p : List Byte) (i : Nat) (rest : List Byte) (hesc : s.decEsc = false)
    (room : s.decLen + p.length ≤ s.cfg.decCap) :
    decFeedFrom i (slipEnc p ++ rest) s =
      decFeedFrom (i + (slipEnc p).length) rest
        { s with decBuf := s.decBuf.writeN s.decLen p, decLen := s.decLen + p.length } := by
  induction p generalizing i s with
  | nil => rfl
  | cons b p ih =>
    rw [List.length_cons] at room
    rw [slipEnc_cons, List.append_assoc, decFeedFrom_encUnit b i _ hesc (by omega), ih]
    · simp only [Memory.writeN, List.length_append, List.length_cons, Nat.add_assoc, Nat.add_comm 1]
    · exact hesc
    · simp only; omega

/-- An END outside an escape completes the frame; what follows it is not looked at (R103, R108). -/
theorem decFeedFrom_slipEnd {s : State} (i : Nat) (rest : List Byte) (hesc : s.decEsc = false) :
    decFeedFrom i (slipEnd :: rest) s = (s, .ok (i + 1, true)) := by
  rw [decFeedFrom, decStep, hesc]
  rfl

/-- The decoder after the bytes `p` were appended to an empty one. -/
def holding (s : State) (p : List Byte) : State :=
  { s with decBuf := s.decBuf.writeN 0 p, decLen := p.length }

theorem holding_decBytes (s : State) (p : List Byte) : (holding s p).decBytes = p :=
  s.decBuf.readN_writeN .dec 0 p

/-- From a reset decoder, the escaped form of bytes that fit and an END complete a frame of them (R113). -/
theorem decFeedFrom_frame_of_reset {s : State} {p : List Byte} (i : Nat) (rest : List Byte)
    (fits : p.length ≤ s.cfg.decCap) (hlen : s.decLen = 0) (hesc : s.decEsc = false) :
    decFeedFrom i (slipEnc p ++ slipEnd :: rest) s =
      (holding s p, .ok (i + (slipEnc p).length + 1, true)) := by
  rw [decFeedFrom_slipEnc p i _ hesc (by omega), hlen, Nat.zero_add]
  exact decFeedFrom_slipEnd _ rest hesc

/-- Settles O19: the feed completes a frame of the bytes, which the slice then reads back (R109, R113). -/
theorem slipDecodesWhatItEncodes : Obligations.SlipDecodesWhatItEncodes := by
  intro p s fits hlen hesc
  have feed := decFeedFrom_frame_of_reset 0 [] fits hlen hesc
  refine ⟨(holding s p).returns (.feed ((slipEnc p).length + 1) true), ?_, rfl, ?_⟩
  · rw [Nat.zero_add] at feed
    exact (exec_decFeed _ s).trans (by rw [show 0xC0#8 = slipEnd from rfl, feed, feedReply])
  · refine (exec_decSlice (s := (holding s p).returns _) fits).trans ?_
    exact congrArg (fun bytes => Host.Outcome.next (State.returns _ (.bytes bytes))) (holding_decBytes s p)

/-! ## The pipeline receives what a feed decodes (R272 to R274) -/

/-- The state `s` after S_RX has accepted the bytes `taken`: in `phase`, with the decoder of `d`, and `rest` still
offered. -/
def afterAccepting (s d : State) (taken rest : List Byte) (phase : Phase) : State :=
  { s.withDecoder d with
    input := rest, events := s.events ++ taken.map .inByte, arg := none, rxCnt := s.rxCnt + taken.length,
    phase := phase }

/-- Accepting more bytes goes on from the bytes accepted before. -/
theorem afterAccepting_afterAccepting (s d d' : State) (taken taken' rest rest' : List Byte) (phase phase' : Phase) :
    afterAccepting (afterAccepting s d taken rest phase) d' taken' rest' phase' =
      afterAccepting s d' (taken ++ taken') rest' phase' := by
  simp [afterAccepting, State.withDecoder, Nat.add_assoc]

/-- A feed goes on after accepted bytes as it does in the decoder they left. -/
theorem decFeedFrom_afterAccepting {s d : State} (i : Nat) (chunk : List Byte) (cfg : s.cfg = d.cfg)
    (taken rest : List Byte) (phase : Phase) :
    decFeedFrom i chunk (afterAccepting s d taken rest phase) =
      (afterAccepting s (decFeedFrom i chunk d).1 taken rest phase, (decFeedFrom i chunk d).2) :=
  decFeedFrom_congr i chunk cfg rfl

/-- In a phase that receives a frame, with a byte offered and no call waiting, the step is S_RX (R271, R272). -/
theorem step_of_receiving {s : State} {b : Byte} {rest : List Byte} (hcalls : s.calls = [])
    (hphase : s.phase = .idle ∨ s.phase = .accum) (hin : s.input = b :: rest) :
    step s = .next (rxByte b rest s) := by
  rcases hphase with hphase | hphase <;> simp [step, nextInstr, hcalls, hphase, phaseStep, exec, execSRx, hin]

/-- S_RX runs the byte step at the count of accepted bytes, on the state with the byte accepted (R273). -/
theorem decStep_accept (b : Byte) (rest : List Byte) (s : State) :
    decStep b s.rxCnt { s.accept b rest with rxCnt := s.rxCnt + 1 } =
      (afterAccepting s (decStep b s.rxCnt s).1 [b] rest s.phase, (decStep b s.rxCnt s).2) :=
  decStep_congr b s.rxCnt rfl rfl

theorem rxByte_of_continues {b : Byte} {s d : State} (rest : List Byte)
    (h : decStep b s.rxCnt s = (d, .ok .continues)) : rxByte b rest s = afterAccepting s d [b] rest .accum := by
  rw [rxByte, decStep_accept, h]
  rfl

theorem rxByte_of_completes {b : Byte} {s d : State} (rest : List Byte)
    (h : decStep b s.rxCnt s = (d, .ok .completes)) (nonempty : d.decLen ≠ 0) :
    rxByte b rest s = afterAccepting s d [b] rest .frameReady := by
  rw [rxByte, decStep_accept, h]
  exact if_neg fun empty => nonempty empty.1

/-- A feed that completes a frame that is not empty is a run of as many S_RX steps as bytes it consumed, to
`FRAME_READY`: the decoder is as the feed leaves it, and the bytes after the END are still offered. -/
theorem run_of_decFeedFrom_completes {bytes : List Byte} {s d : State} {n : Nat} (hcalls : s.calls = [])
    (hphase : s.phase = .idle ∨ s.phase = .accum) (hin : s.input = bytes)
    (feed : decFeedFrom s.rxCnt bytes s = (d, .ok (n, true))) (nonempty : d.decLen ≠ 0) :
    ∃ k, n = s.rxCnt + k ∧ Sys2Proof.core.run k s =
      .next (afterAccepting s d (bytes.take k) (bytes.drop k) .frameReady) := by
  induction bytes generalizing s d with
  | nil => cases feed
  | cons b rest ih =>
    have first := step_of_receiving hcalls hphase hin
    rw [decFeedFrom] at feed
    rcases hd : decStep b s.rxCnt s with ⟨t, e | _ | _⟩ <;> rw [hd] at feed
    · cases feed
    · rw [rxByte_of_continues rest hd] at first
      have cfg : s.cfg = t.cfg := by rw [← decStep_cfg b s.rxCnt s, hd]
      have later := decFeedFrom_afterAccepting (s.rxCnt + 1) rest cfg [b] rest .accum
      rw [show decFeedFrom (s.rxCnt + 1) rest t = (d, .ok (n, true)) from feed] at later
      obtain ⟨k, hn, run⟩ := ih (s := afterAccepting s t [b] rest .accum) hcalls (.inr rfl) rfl later nonempty
      rw [afterAccepting_afterAccepting] at run
      have counted : n = s.rxCnt + 1 + k := hn
      exact ⟨k + 1, by omega, (run_succ_of_next k first).trans run⟩
    · cases feed
      rw [rxByte_of_completes rest hd nonempty] at first
      exact ⟨1, rfl, run_one_of_next first⟩

/-- Accepting bytes writes nothing to `OUT` and calls no provider (R287). -/
theorem afterAccepting_events (s d : State) (taken rest : List Byte) (phase : Phase) :
    outWrites (afterAccepting s d taken rest phase).events = outWrites s.events
      ∧ gpioCalls (afterAccepting s d taken rest phase).events = gpioCalls s.events := by
  simp [afterAccepting, outWrites, gpioCalls, List.filterMap_map]

/-- Settles O54: the feed of the offered bytes completes a frame of `p`, and the pipeline's run is that feed (R113,
R272, R274). -/
theorem offeredFrameIsReceived : Obligations.OfferedFrameIsReceived := by
  intro p rest s hp fits hcalls hphase hlen hesc hin
  have feed := decFeedFrom_frame_of_reset s.rxCnt rest fits hlen hesc
  obtain ⟨k, hk, run⟩ := run_of_decFeedFrom_completes hcalls (.inl hphase) hin feed
    (List.length_pos_iff.2 hp).ne'
  obtain rfl : k = (slipEnc p).length + 1 := by omega
  refine ⟨_, run, rfl, holding_decBytes s p, ?_, afterAccepting_events ..⟩
  simp [afterAccepting]

end Sys2Proof.Proofs

namespace Sys2Proof.Proofs

open Sys2Proof.Machine

/-! ## The encoder's operations (R130 to R135) -/

/-- Settles O23: ENC_FINISH is an append of one END, and a feed is decided by the room for its units (R134, R135). -/
theorem encFeedAndFinishAppend : Obligations.EncFeedAndFinishAppend := by
  intro bytes s
  refine ⟨fun room => ?_, fun full => ?_, fun room => ?_, fun pre b post split fit overflow => ?_⟩
  · exact congrArg replyUnit (encAppend_room (bytes := [slipEnd]) none room)
  · exact congrArg replyUnit (encAppend_full (bytes := [slipEnd]) none (Nat.lt_succ_of_le full))
  · exact congrArg replyUnit (encFeedFrom_room 0 room)
  · have feed := encFeedFrom_full post 0 fit overflow
    rw [Nat.zero_add, ← split] at feed
    exact congrArg replyUnit feed

theorem encClass_lit {b : Byte} (notEnd : b ≠ slipEnd) (notEsc : b ≠ slipEsc) : encClass b = .lit := by
  simp [encClass, notEnd, notEsc]

/-- Settles O22: each byte operation is an append of its unit, which is whole or not at all (R130 to R133). -/
theorem encByteUnitsAppendWhole : Obligations.EncByteUnitsAppendWhole := by
  intro b pos s
  refine ⟨rfl, rfl, fun notEnd notEsc => encByteInstr_lit (encClass_lit notEnd notEsc) pos,
    fun room => ?_, fun room => ?_, fun full => ?_, fun full => ?_⟩
  · have append (second : Byte) :=
      congrArg replyUnit (encAppend_room (s := s) (bytes := [slipEsc, second]) (some pos) room)
    exact ⟨append slipEscEnd, append slipEscEsc⟩
  · exact congrArg replyUnit (encAppend_room (bytes := [b]) (some pos) room)
  · have refuse (second : Byte) :=
      congrArg replyUnit (encAppend_full (s := s) (bytes := [slipEsc, second]) (some pos) full)
    exact ⟨refuse slipEscEnd, refuse slipEscEsc⟩
  · exact congrArg replyUnit (encAppend_full (bytes := [b]) (some pos) full)

/-! ## The encoded length (R138, R140) -/

/-- Settles O24: the length is counted unit by unit, an END is counted twice, and no unit is longer (R131 to R133,
R140). -/
theorem slipLengthFormula : Obligations.SlipLengthFormula := by
  intro p
  refine ⟨congrArg (· + 1) (slipEnc_length p), Nat.succ_le_succ (slipEnc_length_le p), fun n => ?_⟩
  have ends : (List.replicate n (0xC0#8 : Byte)).count slipEnd = n := List.count_replicate_self
  have noEsc : (List.replicate n (0xC0#8 : Byte)).count slipEsc = 0 := by
    rw [List.count_replicate]
    rfl
  rw [slipEnc_length, List.length_replicate, ends, noEsc]
  omega

/-- A response's payload is within `RESP_PAYLOAD_MAX` when its diagnostic is within `ERR_MSG_MAX` (R8). -/
theorem responseFrame_payload_length_le {p : Params} {r : Response} (within : msgWithin p r) :
    (responseFrame p r).2.length ≤ p.respPayloadMax := by
  cases r with
  | good | errCrc | errUnknownCode | errBusy => exact Nat.zero_le _
  | gpioValue | gpioDirResp => simp [responseFrame, Params.respPayloadMax]
  | errGeneric msg | errInvalidArgs msg =>
    have bound : msg.length ≤ p.errMsgMax := within
    simp [responseFrame, Params.respPayloadMax, bound]
  | ident kind => cases kind <;> simp [responseFrame, Params.identResp, Params.respPayloadMax]

/-- The whole SLIP frame of such a response fits the recommended `ENC_CAP` (R138). -/
theorem wireBytes_responseFrame_fits {p : Params} {r : Response} (within : msgWithin p r)
    (recommended : 2 * (4 + p.respPayloadMax) + 1 ≤ p.encCap) :
    (wireBytes p (responseFrame p r).1 (responseFrame p r).2).length ≤ p.encCap := by
  have wire := wireBytes_length_le p (responseFrame p r).1 (responseFrame p r).2
  have payload := responseFrame_payload_length_le within
  omega

/-- S_RESPOND sends the frame of the response in `RSP` (R279). -/
theorem exec_sRespond_of_rsp {s : State} {r : Response} (phase : s.phase = .responding) (rsp : s.rsp = some r) :
    exec .sRespond s = sendFrame (responseFrame s.cfg r).1 (responseFrame s.cfg r).2 s := by
  rw [show exec .sRespond s = execSRespond s from rfl, execSRespond, phase, rsp]

/-- Settles O50: the invariant gives the response, an empty encoder and the bound of the diagnostic, so the whole frame
fits and S_RESPOND writes it (R138, R279). -/
theorem recommendedEncoderNeverOverflows : Obligations.RecommendedEncoderNeverOverflows := by
  intro s inv recommended phase
  obtain ⟨r, rsp⟩ := Option.isSome_iff_exists.1 (inv.rspLive.2 phase)
  have fits := wireBytes_responseFrame_fits (inv.msgBounded r rsp) recommended
  exact ⟨r, _, rsp, (exec_sRespond_of_rsp phase rsp).trans (sendFrame_fits inv.encEmpty fits), rfl, rfl, rfl⟩

end Sys2Proof.Proofs

namespace Sys2Proof.Proofs

open Sys2Proof.Machine

/-! ## The CRC (R150, R151) -/

/-- Settles O25: a run over one byte more is one byte step more, and that is the eight bit steps of R150. -/
theorem crc16IsBitSerial : Obligations.Crc16IsBitSerial := by
  refine ⟨fun _ _ => rfl, crc16_nil, fun m b => ?_⟩
  rw [crc16_append_byte]
  rfl

/-- A word's own high byte, XORed in where `CRC16` takes a byte, leaves its low byte. -/
theorem be16_xor_high (h l : Byte) : be16 h l ^^^ (h.setWidth 16 <<< 8) = l.setWidth 16 := by
  apply BitVec.eq_of_getLsbD_eq
  intro i hi
  rw [BitVec.getLsbD_xor, be16, BitVec.getLsbD_append, BitVec.getLsbD_shiftLeft, BitVec.getLsbD_setWidth,
    BitVec.getLsbD_setWidth]
  by_cases low : i < 8
  · simp [low, hi]
  · have above : l.getLsbD i = false := BitVec.getLsbD_of_ge l i (Nat.le_of_not_lt low)
    simp [low, hi, above, show i - 8 < 16 by omega]

/-- From any state, its own two bytes lead to 0: the first leaves the low byte, moved up, and the second cancels it. -/
theorem crcByte_be16 (h l : Byte) : crcByte (crcByte (be16 h l) h) l = 0#16 := by
  have first : crcByte (be16 h l) h = l.setWidth 16 <<< 8 :=
    (congrArg crcShift8 (be16_xor_high h l)).trans (crcShift8_low l)
  rw [first, crcByte, BitVec.xor_self]
  rfl

/-- A message with two bytes after it has residue 0 exactly when they are its CRC. -/
theorem crc16_append_pair_eq_zero_iff (m : List Byte) (h l : Byte) :
    crc16 (m ++ [h, l]) = 0#16 ↔ crc16 m = be16 h l := by
  have steps : crc16 (m ++ [h, l]) = crcByte (crcByte (crc16 m) h) l := by simp [crc16]
  rw [steps]
  constructor
  · intro zero
    exact crcByte_injective (crcByte_injective (zero.trans (crcByte_be16 h l).symm))
  · intro own
    rw [own, crcByte_be16]

/-- Settles O26: the two bytes appended are the message's CRC (R151). -/
theorem crcResidueIsZero : Obligations.CrcResidueIsZero := fun m =>
  (crc16_append_pair_eq_zero_iff m _ _).2 (be16_hiByte_loByte (crc16 m)).symm

/-- Another byte in one place of a message gives another CRC: the states differ after it, and equal bytes keep different
states apart. -/
theorem crc16_set_ne {S : List Byte} {i : Nat} {a b : Byte} (at_i : S[i]? = some b) (ne : a ≠ b) :
    crc16 (S.set i a) ≠ crc16 S := by
  obtain ⟨inside, rfl⟩ := List.getElem?_eq_some_iff.1 at_i
  intro same
  have split : S = S.take i ++ S[i] :: S.drop (i + 1) := by simp
  rw [List.set_eq_take_append_cons_drop, if_pos inside] at same
  conv at same => rhs; rw [split]
  simp only [crc16, List.foldl_append, List.foldl_cons] at same
  exact ne (crcByte_byte_injective (crc_foldl_injective same))

/-! ## `FRAME_DECODE` and `FRAME_ENCODE` (R152 to R159) -/

theorem exec_frameDecode_of_ok {S payload : List Byte} {s : State} {code : Code}
    (h : frameDecode s.cfg S = .ok (code, payload)) :
    exec (.frameDecode S) s = .next { s with ret := .frame code payload } := by
  rw [show exec (.frameDecode S) s = execFrameDecode S s from rfl, execFrameDecode, h]
  rfl

theorem exec_frameDecode_of_error {S : List Byte} {s : State} {e : Err} (h : frameDecode s.cfg S = .error e) :
    exec (.frameDecode S) s =
      .next { s with err := some e, events := s.events ++ [.err e], ret := .raised e } := by
  rw [show exec (.frameDecode S) s = execFrameDecode S s from rfl, execFrameDecode, h]
  rfl

theorem frameDecode_of_short (p : Params) {S : List Byte} (short : S.length < 4) :
    frameDecode p S = .error (.invalidLength S.length) := by
  rw [frameDecode, if_pos short]

/-- Settles O27: below 4 bytes no check but the first is made; from there on the checks are those of the frame's parts
(R152 to R156). -/
theorem frameDecodeChecksInOrder : Obligations.FrameDecodeChecksInOrder := by
  intro S s
  refine ⟨fun short => exec_frameDecode_of_error (frameDecode_of_short s.cfg short), ?_⟩
  rintro h l payload ch cl rfl
  have parts := frameDecode_parts s.cfg h l ch cl payload
  refine ⟨fun badCrc => ?_, fun goodCrc unregistered => ?_, fun code goodCrc registered =>
    ⟨fun tooLong => ?_, fun fits => ?_⟩⟩
  · exact exec_frameDecode_of_error (by rw [parts, if_pos badCrc])
  · exact exec_frameDecode_of_error (by rw [parts, if_neg (not_not.2 goodCrc), unregistered])
  · exact exec_frameDecode_of_error (by
      rw [parts, if_neg (not_not.2 goodCrc), registered]; simp [tooLong])
  · exact exec_frameDecode_of_ok (by
      rw [parts, if_neg (not_not.2 goodCrc), registered]; simp [Nat.not_lt.2 fits])

/-- Settles O28: the encoded frame is laid out so, and `be16` reads back the bytes it is written in (R52, R157). -/
theorem frameEncodeLayout : Obligations.FrameEncodeLayout := fun _ _ _ =>
  ⟨rfl, fun w => ⟨be16_hiByte_loByte w, be16_toNat (hiByte w) (loByte w)⟩⟩

/-- Settles O29: the frame carries the code's wire value, which is looked up as the code (R158, R183). -/
theorem frameRoundTrip : Obligations.FrameRoundTrip := fun _ _ s own fits =>
  exec_frameDecode_of_ok (frameDecode_frameBytes s.cfg (codeLookup_codeEncode s.cfg own) fits)

/-- With four bytes or more and a residue that is not 0, the CRC check fails (R153, R154). -/
theorem frameDecode_of_residue_ne_zero (p : Params) {S : List Byte} (long : 4 ≤ S.length)
    (residue : crc16 S ≠ 0#16) :
    ∃ computed received, frameDecode p S = .error (.invalidCrc computed received) := by
  obtain ⟨h, l, payload, ch, cl, rfl⟩ := exists_frame_parts long
  have badCrc : crc16 (h :: l :: payload) ≠ be16 ch cl := mt (crc16_append_pair_eq_zero_iff _ ch cl).2 residue
  exact ⟨_, _, by rw [frameDecode_parts, if_pos badCrc]⟩

/-- An accepted frame has four bytes or more and residue 0 (R151 to R154). -/
theorem residue_eq_zero_of_frameDecode_ok {p : Params} {S : List Byte} {r : Code × List Byte}
    (accepted : frameDecode p S = .ok r) : 4 ≤ S.length ∧ crc16 S = 0#16 := by
  have long : 4 ≤ S.length := by
    by_contra short
    rw [frameDecode_of_short p (Nat.lt_of_not_le short)] at accepted
    cases accepted
  refine ⟨long, ?_⟩
  by_contra residue
  obtain ⟨computed, received, rejected⟩ := frameDecode_of_residue_ne_zero p long residue
  rw [rejected] at accepted
  cases accepted

theorem flip_bit_ne (b : Byte) {j : Nat} (hj : j < 8) : b ^^^ (1#8 <<< j) ≠ b := by
  intro same
  have bit := congrArg (fun w : Byte => w.getLsbD j) same
  simp [hj] at bit

/-- Settles O30: the flipped byte takes the residue away from the accepted frame's 0, at the same length (R151,
R159). -/
theorem singleBitFlipIsInvalidCrc : Obligations.SingleBitFlipIsInvalidCrc := by
  intro p S code payload i j b accepted at_i hj
  obtain ⟨long, zero⟩ := residue_eq_zero_of_frameDecode_ok accepted
  have residue := crc16_set_ne at_i (flip_bit_ne b hj)
  rw [zero] at residue
  exact frameDecode_of_residue_ne_zero p (by rwa [List.length_set]) residue

end Sys2Proof.Proofs

namespace Sys2Proof.Proofs

open Sys2Proof.Machine

/-! ## The code registry (R80 to R82, R180 to R183) -/

/-- No wire value has two rows, so the search finds every row. -/
theorem mem_codeTable_iff {c16 : Word} {code : Code} : (c16, code) ∈ codeTable ↔ tableCode c16 = some code := by
  constructor
  · have found : ∀ row ∈ codeTable, tableCode row.1 = some row.2 := by decide
    exact found (c16, code)
  · intro found
    obtain ⟨before, after, split, _⟩ := List.lookup_eq_some_iff.1 found
    rw [split]
    exact List.mem_append_right before List.mem_cons_self

theorem codeLookup_of_tableCode (p : Params) {c16 : Word} {code : Code} (row : tableCode c16 = some code) :
    codeLookup p c16 = some code := by
  rw [codeLookup, row]

theorem codeLookup_of_no_row (p : Params) {c16 : Word} (noRow : tableCode c16 = none) :
    codeLookup p c16 = if c16 = p.gpioDirRespCode then some .gpioDirResp else none := by
  rw [codeLookup, noRow]

/-- `CODE_ENCODE` undoes `CODE_LOOKUP`, whatever `GPIO_DIR_RESP_CODE` is (R183). -/
theorem codeEncode_of_codeLookup {p : Params} {c16 : Word} {code : Code} (found : codeLookup p c16 = some code) :
    codeEncode p code = c16 := by
  cases row : tableCode c16 with
  | some named =>
    obtain rfl : named = code := by simpa [codeLookup_of_tableCode p row] using found
    exact (codeEncode_of_tableCode p row).1
  | none =>
    rw [codeLookup_of_no_row p row] at found
    obtain ⟨rfl, rfl⟩ : c16 = p.gpioDirRespCode ∧ Code.gpioDirResp = code := by simpa using found
    rfl

/-- Settles O33: encode and lookup undo each other, and a shared value's lookup finds the table's row first (R180 to
R183). -/
theorem registryIsBijective : Obligations.RegistryIsBijective := fun p =>
  ⟨fun own => ⟨fun _ => codeLookup_codeEncode p fun _ => own, fun _ _ => codeEncode_of_codeLookup⟩,
    fun _ named => codeLookup_codeEncode p fun isResp => absurd isResp named,
    fun _ shared => codeLookup_of_tableCode p shared⟩

theorem exec_codeLookup (c16 : Word) (s : State) :
    exec (.codeLookup c16) s = .next { s with ret := .code (codeLookup s.cfg c16) } := rfl

theorem exec_codeEncode (code : Code) (s : State) :
    exec (.codeEncode code) s = .next { s with ret := .word (codeEncode s.cfg code) } := rfl

theorem exec_categorize (code : Code) (s : State) :
    exec (.categorize code) s = .next { s with ret := .category (categorize code) } := rfl

/-- Settles O31: the operations answer by the registry's functions, and the table's rows are what its search finds
(R180, R181). -/
theorem registryFollowsTable : Obligations.RegistryFollowsTable := by
  intro c16 s
  refine ⟨fun code row => ?_, fun noRow => ?_, fun code row => ?_, exec_codeEncode .gpioDirResp s⟩
  · rw [exec_codeLookup, codeLookup_of_tableCode s.cfg (mem_codeTable_iff.1 row)]
  · have unfound : tableCode c16 = none :=
      Option.eq_none_iff_forall_ne_some.2 fun code found => noRow code (mem_codeTable_iff.2 found)
    rw [exec_codeLookup, codeLookup_of_no_row s.cfg unfound]
  · rw [exec_codeEncode, (codeEncode_of_tableCode s.cfg (mem_codeTable_iff.1 row)).1]

/-- Row by row, the category is that of the range the wire value is in (R80, R81). -/
theorem categorize_of_mem_codeTable : ∀ row ∈ codeTable,
    (categorize row.2 =
      if row.1 ≤ 0x0003#16 then .genericRequest
      else if 0x0100#16 ≤ row.1 ∧ row.1 ≤ 0x0103#16 then .gpioRequest
      else .response)
    ∧ (row.1 ≤ 0x0003#16 ∨ 0x0100#16 ≤ row.1 ∧ row.1 ≤ 0x0103#16 ∨ row.1 = 0xFEFF#16 ∨ 0xFFFA#16 ≤ row.1) := by
  decide

/-- Settles O32: every code but `GpioDirResp` stands in the table, at its wire value (R81, R182). -/
theorem categoriesAreTheRanges : Obligations.CategoriesAreTheRanges := by
  intro code s
  refine ⟨?_, fun named => ?_⟩
  · rintro rfl
    exact exec_categorize .gpioDirResp s
  · obtain ⟨category, inRange⟩ := categorize_of_mem_codeTable (codeEncode s.cfg code, code)
      (mem_codeTable_iff.2 (tableCode_codeEncode s.cfg named))
    refine ⟨?_, inRange⟩
    rw [exec_categorize, category]

end Sys2Proof.Proofs

namespace Sys2Proof.Proofs

open Sys2Proof.Machine

/-! ## The argument parser (R200 to R202) -/

theorem parserU8_of_byte_left (done : List Byte) (h : Byte) (rest : List Byte) :
    parserU8 { view := done ++ h :: rest, cur := done.length } =
      (some h, { view := done ++ h :: rest, cur := done.length + 1 }) := by
  have byteLeft : ¬ done.length + 1 > (done ++ h :: rest).length := by simp
  rw [parserU8, if_neg byteLeft]
  simp

theorem parserU16_of_word_left (done : List Byte) (h l : Byte) (rest : List Byte) :
    parserU16 { view := done ++ h :: l :: rest, cur := done.length } =
      (some (be16 h l), { view := done ++ h :: l :: rest, cur := done.length + 2 }) := by
  have wordLeft : ¬ done.length + 2 > (done ++ h :: l :: rest).length := by simp
  rw [parserU16, if_neg wordLeft]
  simp

theorem exec_argU8 {s : State} {a : ArgParser} (arg : s.arg = some a) :
    exec .argU8 s = .next { s with arg := some (parserU8 a).2, ret := .u8 (parserU8 a).1 } := by
  rw [show exec .argU8 s = execArgU8 s from rfl, execArgU8, arg]
  rfl

theorem exec_argU16 {s : State} {a : ArgParser} (arg : s.arg = some a) :
    exec .argU16 s = .next { s with arg := some (parserU16 a).2, ret := .u16 (parserU16 a).1 } := by
  rw [show exec .argU16 s = execArgU16 s from rfl, execArgU16, arg]
  rfl

/-- A read past the view's end answers `None` and leaves the parser as it was (R201). -/
theorem exec_argU8_of_short {s : State} {a : ArgParser} (arg : s.arg = some a) (short : a.view.length < a.cur + 1) :
    exec .argU8 s = .next { s with ret := .u8 none } := by
  have stays : parserU8 a = (none, a) := if_pos short
  rw [exec_argU8 arg, stays, ← arg]

/-- A read past the view's end answers `None` and leaves the parser as it was, with one byte left too (R202). -/
theorem exec_argU16_of_short {s : State} {a : ArgParser} (arg : s.arg = some a) (short : a.view.length < a.cur + 2) :
    exec .argU16 s = .next { s with ret := .u16 none } := by
  have stays : parserU16 a = (none, a) := if_pos short
  rw [exec_argU16 arg, stays, ← arg]

/-- Settles O34: a read with its bytes left answers them and moves the cursor, any other changes only the answer (R200
to R202). -/
theorem argReadsAdvanceOrStay : Obligations.ArgReadsAdvanceOrStay := by
  intro s done h l rest
  refine ⟨rfl, fun arg => ?byte, fun arg => ?noByte, fun arg => ?word, fun arg => ?oneByte, fun arg => ?noBytes⟩
  case byte => rw [exec_argU8 arg, parserU8_of_byte_left]
  case noByte => exact exec_argU8_of_short arg (Nat.lt_succ_self _)
  case word => rw [exec_argU16 arg, parserU16_of_word_left]
  case oneByte => exact exec_argU16_of_short arg (by simp)
  case noBytes => exact exec_argU16_of_short arg (by simp)

end Sys2Proof.Proofs

namespace Sys2Proof.Proofs

open Sys2Proof.Machine

/-! ## One provider call, its answer folded (R221, R223, R241) -/

/-- One call of a GPIO request and its folded answer: `draw` is what the provider draws on a valid pin, `shown` how an
Ok stands in the call's event, `onOk` the response to it. -/
def providerCall {α : Type} (s : State) (code : Code) (pin : Byte) (call : GpioCall) (draw : Option α)
    (shown : α → GpioAnswer) (onOk : α → Response) : State × Response × Option Err :=
  (s.calling call (answerEvent shown (answerOf s.cfg pin draw)), fold s.cfg code pin (answerOf s.cfg pin draw) onOk)

/-! Each GPIO request executes as one such call (R228 to R231). -/

theorem execRequest_gpioDirSet (pin : Byte) (dir : GpioDir) (s : State) :
    execRequest (.gpioDirSet pin dir) s = providerCall s .gpioDirSet pin (.setDirection pin dir)
      (Config.drawUnit s.draws (.setDirection pin dir)) (fun _ => .done) (fun _ => .good) := rfl

theorem execRequest_gpioDirGet (pin : Byte) (s : State) :
    execRequest (.gpioDirGet pin) s = providerCall s .gpioDirGet pin (.getDirection pin)
      (Config.drawDir s.draws (.getDirection pin)) .dir (.gpioDirResp pin) := rfl

theorem execRequest_gpioWrite (pin : Byte) (value : GpioValue) (s : State) :
    execRequest (.gpioWrite pin value) s = providerCall s .gpioWrite pin (.setValue pin value)
      (Config.drawUnit s.draws (.setValue pin value)) (fun _ => .done) (fun _ => .good) := rfl

theorem execRequest_gpioRead (pin : Byte) (s : State) :
    execRequest (.gpioRead pin) s = providerCall s .gpioRead pin (.getValue pin)
      (Config.drawValue s.draws (.getValue pin)) .value (.gpioValue pin) := rfl

section ProviderCall

variable {α : Type} {s : State} {code : Code} {pin : Byte} {call : GpioCall} {draw : Option α}
  {shown : α → GpioAnswer} {onOk : α → Response} {r : Request}

theorem answerOf_of_invalid {p : Params} (invalid : pin.toNat ∉ p.validPins) : answerOf p pin draw = .invalidPin := by
  simp [answerOf, invalid]

theorem answerOf_of_valid {p : Params} (valid : pin.toNat ∈ p.validPins) :
    answerOf p pin draw = draw.elim .hwError .ok := by
  cases draw <;> simp [answerOf, valid]

theorem providerCall_of_invalid (invalid : pin.toNat ∉ s.cfg.validPins) :
    providerCall s code pin call draw shown onOk = (s.calling call .invalidPin,
      .errInvalidArgs (s.cfg.diagOf (.invalidPin code pin)), some (.invalidPin code pin)) := by
  rw [providerCall, answerOf_of_invalid invalid]
  rfl

theorem providerCall_of_valid (valid : pin.toNat ∈ s.cfg.validPins) :
    providerCall s code pin call draw shown onOk = draw.elim
      (s.calling call .hwError, .errGeneric (s.cfg.diagOf (.hwError code pin)), some (.hwError code pin))
      fun x => (s.calling call (shown x), onOk x, none) := by
  rw [providerCall, answerOf_of_valid valid]
  cases draw <;> rfl

/-! ### By REQ_EXEC (R242) -/

/-- REQ_EXEC gives its caller the response; the error that S_DISPATCH would record is left out. -/
theorem exec_reqExec (r : Request) (s : State) :
    exec (.reqExec r) s = .next ((execRequest r s).1.returns (.response (execRequest r s).2.1)) := rfl

theorem exec_reqExec_of_invalid (eq : execRequest r s = providerCall s code pin call draw shown onOk)
    (invalid : pin.toNat ∉ s.cfg.validPins) :
    exec (.reqExec r) s = .next { s with
      draws := s.draws + 1, events := s.events ++ [.gpio call .invalidPin],
      ret := .response (.errInvalidArgs (s.cfg.diagOf (.invalidPin code pin))) } := by
  rw [exec_reqExec, eq, providerCall_of_invalid invalid]
  rfl

theorem exec_reqExec_of_valid (eq : execRequest r s = providerCall s code pin call draw shown onOk)
    (valid : pin.toNat ∈ s.cfg.validPins) :
    exec (.reqExec r) s = draw.elim
      (.next { s with
        draws := s.draws + 1, events := s.events ++ [.gpio call .hwError],
        ret := .response (.errGeneric (s.cfg.diagOf (.hwError code pin))) })
      fun x => .next { s with
        draws := s.draws + 1, events := s.events ++ [.gpio call (shown x)], ret := .response (onOk x) } := by
  rw [exec_reqExec, eq, providerCall_of_valid valid]
  cases draw <;> rfl

/-! ### In `DISPATCHING` (R278) -/

/-- In `DISPATCHING` the code of the request in `REQ` dispatches it, whatever its payload (log entries 17, 34). -/
theorem exec_frameInstr_dispatching (phase : s.phase = .dispatching) (req : s.req = some r) (payload : List Byte) :
    exec (frameInstr (requestCode r) payload) s = .next (dispatchRequest r s) := by
  rw [exec_frameInstr, frameCode, phase, req]
  exact if_pos rfl

/-- The request's one call, answered: an Ok by its response, an error by its own and with `ERR` written. -/
theorem exec_frameInstr_of_providerCall (phase : s.phase = .dispatching) (req : s.req = some r)
    (eq : execRequest r s = providerCall s (requestCode r) pin call draw shown onOk) (payload : List Byte) :
    exec (frameInstr (requestCode r) payload) s =
      if pin.toNat ∈ s.cfg.validPins then
        draw.elim
          (.next { s with
            draws := s.draws + 1, events := s.events ++ [.gpio call .hwError, .err (.hwError (requestCode r) pin)],
            err := some (.hwError (requestCode r) pin), arg := none, req := none,
            rsp := some (.errGeneric (s.cfg.diagOf (.hwError (requestCode r) pin))), phase := .responding })
          fun x => .next { s with
            draws := s.draws + 1, events := s.events ++ [.gpio call (shown x)], arg := none, req := none,
            rsp := some (onOk x), phase := .responding }
      else .next { s with
        draws := s.draws + 1, events := s.events ++ [.gpio call .invalidPin, .err (.invalidPin (requestCode r) pin)],
        err := some (.invalidPin (requestCode r) pin), arg := none, req := none,
        rsp := some (.errInvalidArgs (s.cfg.diagOf (.invalidPin (requestCode r) pin))), phase := .responding } := by
  rw [exec_frameInstr_dispatching phase req, dispatchRequest, eq]
  by_cases valid : pin.toNat ∈ s.cfg.validPins
  · rw [providerCall_of_valid valid, if_pos valid]
    cases draw <;> simp [State.calling, State.recordErr]
  · rw [providerCall_of_invalid valid, if_neg valid]
    simp [State.calling, State.recordErr]

end ProviderCall

/-- Settles O36: a generic request answers at once; each GPIO request is one provider call, whose answer is decided by
the pin and, on a valid one, by the draw (R223, R241, R242). -/
theorem reqExecFoldsAnswer : Obligations.ReqExecFoldsAnswer := by
  intro pin dir value s
  refine ⟨rfl, rfl, rfl, rfl, fun invalid => ?_, fun valid => ?_⟩
  · exact ⟨exec_reqExec_of_invalid (execRequest_gpioDirSet pin dir s) invalid,
      exec_reqExec_of_invalid (execRequest_gpioDirGet pin s) invalid,
      exec_reqExec_of_invalid (execRequest_gpioWrite pin value s) invalid,
      exec_reqExec_of_invalid (execRequest_gpioRead pin s) invalid⟩
  · refine ⟨(exec_reqExec_of_valid (execRequest_gpioDirSet pin dir s) valid).trans ?_,
      (exec_reqExec_of_valid (execRequest_gpioDirGet pin s) valid).trans ?_,
      (exec_reqExec_of_valid (execRequest_gpioWrite pin value s) valid).trans ?_,
      (exec_reqExec_of_valid (execRequest_gpioRead pin s) valid).trans ?_⟩
    · cases Config.drawUnit s.draws (.setDirection pin dir) <;> rfl
    · cases Config.drawDir s.draws (.getDirection pin) <;> rfl
    · cases Config.drawUnit s.draws (.setValue pin value) <;> rfl
    · cases Config.drawValue s.draws (.getValue pin) <;> rfl

/-- Settles O40: in `DISPATCHING` the frame code dispatches the request in `REQ`, and that is one provider call (R228 to
R231, R278). -/
theorem gpioRequestsExecute : Obligations.GpioRequestsExecute := by
  intro pin dir value payload s phase
  refine ⟨fun req => ?dirSet, fun req => ?dirGet, fun req => ?read, fun req => ?write⟩
  case dirSet =>
    refine (exec_frameInstr_of_providerCall phase req (execRequest_gpioDirSet pin dir s) payload).trans ?_
    cases Config.drawUnit s.draws (.setDirection pin dir) <;> rfl
  case dirGet =>
    refine (exec_frameInstr_of_providerCall phase req (execRequest_gpioDirGet pin s) payload).trans ?_
    cases Config.drawDir s.draws (.getDirection pin) <;> rfl
  case read =>
    refine (exec_frameInstr_of_providerCall phase req (execRequest_gpioRead pin s) payload).trans ?_
    cases Config.drawValue s.draws (.getValue pin) <;> rfl
  case write =>
    refine (exec_frameInstr_of_providerCall phase req (execRequest_gpioWrite pin value s) payload).trans ?_
    cases Config.drawUnit s.draws (.setValue pin value) <;> rfl

end Sys2Proof.Proofs

namespace Sys2Proof.Proofs

open Sys2Proof.Machine

/-! ## Where a pipeline step or a frame code goes on (R271) -/

theorem execSRx_next_inv {s t : State} (h : execSRx s = .next t) :
    (s.phase = .idle ∨ s.phase = .accum)
    ∧ (s.input = [] ∧ t = s ∨ ∃ b rest, s.input = b :: rest ∧ t = rxByte b rest s) := by
  have phase : s.phase = .idle ∨ s.phase = .accum := by
    cases hp : s.phase <;> simp_all [execSRx]
  refine ⟨phase, ?_⟩
  cases hin : s.input with
  | nil => rcases phase with hp | hp <;> rw [execSRx, hp, hin] at h <;> cases h <;> exact .inl ⟨rfl, rfl⟩
  | cons b rest =>
    rcases phase with hp | hp <;> rw [execSRx, hp, hin] at h <;> cases h <;> exact .inr ⟨b, rest, rfl, rfl⟩

theorem execSHunt_next_inv {s t : State} (h : execSHunt s = .next t) :
    s.phase = .hunt ∧ (s.input = [] ∧ t = s ∨ ∃ b rest, s.input = b :: rest ∧ t = huntByte b rest s) := by
  rw [execSHunt] at h
  split at h
  next phase =>
    refine ⟨phase, ?_⟩
    split at h <;> cases h
    next empty => exact .inl ⟨empty, rfl⟩
    next b rest offered => exact .inr ⟨b, rest, offered, rfl⟩
  all_goals cases h

theorem execSDecode_next_inv {s t : State} (h : execSDecode s = .next t) :
    s.phase = .frameReady ∧ t = decodeBytes s.decBytes s := by
  rw [execSDecode] at h
  split at h
  next phase =>
    split at h <;> cases h
    exact ⟨phase, rfl⟩
  all_goals cases h

theorem execSDispatch_next_inv {s t : State} (h : execSDispatch s = .next t) :
    ∃ r, s.phase = .dispatching ∧ s.req = some r ∧ t = dispatchRequest r s := by
  rw [execSDispatch] at h
  split at h
  next phase =>
    split at h <;> cases h
    next r req => exact ⟨r, phase, req, rfl⟩
  all_goals cases h

theorem execSRespond_next_inv {s t : State} (h : execSRespond s = .next t) :
    ∃ r, s.phase = .responding ∧ s.rsp = some r
      ∧ sendFrame (responseFrame s.cfg r).1 (responseFrame s.cfg r).2 s = .next t := by
  rw [execSRespond] at h
  split at h
  next phase =>
    split at h
    · cases h
    next r rsp => exact ⟨r, phase, rsp, h⟩
  all_goals cases h

/-- A frame code acts by the phase its frame is in: in `DISPATCHING` for the request in `REQ`, in `RESPONDING` for the
response in `RSP` (log entry 17). -/
theorem frameCode_next_inv {code : Code} {payload : List Byte} {s t : State}
    (h : frameCode code payload s = .next t) :
    (s.phase = .frameReady ∧ t = acceptFrame code payload s)
    ∨ (∃ r, s.phase = .dispatching ∧ s.req = some r ∧ requestCode r = code ∧ t = dispatchRequest r s)
    ∨ ∃ r, s.phase = .responding ∧ s.rsp = some r ∧ responseFrame s.cfg r = (code, payload)
      ∧ sendFrame code payload s = .next t := by
  rw [frameCode] at h
  split at h
  next phase =>
    cases h
    exact .inl ⟨phase, rfl⟩
  next phase =>
    split at h
    · cases h
    next r req =>
      split at h <;> cases h
      next own => exact .inr (.inl ⟨r, phase, req, own, rfl⟩)
  next phase =>
    split at h
    · cases h
    next r rsp =>
      split at h
      next own => exact .inr (.inr ⟨r, phase, rsp, own, h⟩)
      · cases h
  all_goals cases h

/-! ## What an instruction does to the provider and to the choice of ErrBusy -/

/-- From any state: the provider calls grow by `made`, and ErrBusy is in `RSP` only where it was before (R240, R265).
A field left out stands for what the update does not touch. -/
structure ProviderEffect (s : State) (made : Option (GpioCall × GpioAnswer)) (t : State) : Prop where
  calls : gpioCalls t.events = gpioCalls s.events ++ made.toList := by simp [gpioCalls]
  busy : t.rsp = some .errBusy → s.rsp = some .errBusy := by exact id

/-- What an operation that makes no call leaves goes on to the next one. -/
theorem ProviderEffect.trans {s t u : State} {made : Option (GpioCall × GpioAnswer)}
    (first : ProviderEffect s none t) (second : ProviderEffect t made u) : ProviderEffect s made u where
  calls := by rw [second.calls, first.calls, Option.toList_none, List.append_nil]
  busy := first.busy ∘ second.busy

/-! ### The interface operations -/

theorem providerEffect_decAppend (v : Byte) (pos : Nat) (s : State) :
    ProviderEffect s none (decAppend v pos s).1 := by
  rcases decAppend_cases v pos s with ⟨_, eq⟩ | ⟨_, eq⟩ <;> rw [eq] <;> exact {}

theorem providerEffect_encAppend (bytes : List Byte) (pos : Option Nat) (s : State) :
    ProviderEffect s none (encAppend bytes pos s).1 := by
  rcases encAppend_cases bytes pos s with ⟨_, eq⟩ | ⟨_, eq⟩ <;> rw [eq] <;> exact {}

theorem providerEffect_encFeedFrom (i : Nat) (bytes : List Byte) (s : State) :
    ProviderEffect s none (encFeedFrom i bytes s).1 := by
  obtain ⟨m, n, r, eq, _⟩ := encFeedFrom_effect i bytes s
  rw [eq]
  exact {}

theorem providerEffect_replyStep {s t : State} {r : State × Except Err DecResult} (hr : ProviderEffect s none r.1)
    (h : replyStep r = .next t) : ProviderEffect s none t := by
  obtain ⟨u, e | d⟩ := r <;> cases h <;> exact hr.trans {}

theorem providerEffect_replyUnit {s t : State} {r : State × Except Err Unit} (hr : ProviderEffect s none r.1)
    (h : replyUnit r = .next t) : ProviderEffect s none t := by
  obtain ⟨u, e | d⟩ := r <;> cases h <;> exact hr.trans {}

theorem providerEffect_decFeed {chunk : List Byte} {s t : State} (h : exec (.decFeed chunk) s = .next t) :
    ProviderEffect s none t := by
  rw [exec_decFeed] at h
  cases h
  have feed : ProviderEffect s none (decFeedFrom 0 chunk s).1 := by
    rw [(decFeedFrom_frame 0 chunk s).1]
    exact { calls := by simp [gpioCalls, State.withDecoder] }
  generalize decFeedFrom 0 chunk s = fed at feed ⊢
  obtain ⟨u, e | _⟩ := fed <;> exact feed.trans { calls := by simp [gpioCalls, feedReply] }

theorem providerEffect_decSlice {s t : State} (h : execDecSlice s = .next t) : ProviderEffect s none t := by
  rw [execDecSlice] at h
  split at h <;> cases h
  exact {}

theorem providerEffect_encSlice {s t : State} (h : execEncSlice s = .next t) : ProviderEffect s none t := by
  rw [execEncSlice] at h
  split at h <;> cases h
  exact {}

theorem providerEffect_frameDecode {bytes : List Byte} {s t : State} (h : exec (.frameDecode bytes) s = .next t) :
    ProviderEffect s none t := by
  rcases hd : frameDecode s.cfg bytes with e | ⟨code, payload⟩
  · rw [exec_frameDecode_of_error hd] at h
    cases h
    exact {}
  · rw [exec_frameDecode_of_ok hd] at h
    cases h
    exact {}

theorem providerEffect_argU8 {s t : State} (h : execArgU8 s = .next t) : ProviderEffect s none t := by
  rw [execArgU8] at h
  split at h <;> cases h
  exact {}

theorem providerEffect_argU16 {s t : State} (h : execArgU16 s = .next t) : ProviderEffect s none t := by
  rw [execArgU16] at h
  split at h <;> cases h
  exact {}

/-- Building makes no call, whatever the code (R240). -/
theorem providerEffect_reqBuild {code : Code} {payload : List Byte} {s t : State}
    (h : execReqBuild code payload s = .next t) : ProviderEffect s none t := by
  rw [execReqBuild] at h
  split at h <;> cases h
  · rcases unstatedBuild_cases code payload s with ⟨r, eq⟩ | ⟨cause, eq⟩ <;> rw [eq] <;> exact {}
  all_goals exact {}

/-- REQ_EXEC makes at most the call its request stands for (R240, R242). -/
theorem providerEffect_reqExec {r : Request} {s t : State} (h : exec (.reqExec r) s = .next t) :
    ∃ made, (∀ c ∈ made, requestCall r = some c.1) ∧ ProviderEffect s made t := by
  rw [exec_reqExec] at h
  cases h
  rcases execRequest_cases r s with
    ⟨rsp, _, eq⟩ | ⟨call, answer, stands, ⟨rsp, _, eq⟩ | ⟨code, pin, eq⟩ | ⟨code, pin, eq⟩⟩ <;> rw [eq]
  · exact ⟨none, nofun, {}⟩
  all_goals exact ⟨some (call, answer), by rintro _ ⟨⟩; exact stands, {}⟩

/-! ### The pipeline -/

theorem providerEffect_rxByte (b : Byte) (rest : List Byte) (s : State) :
    ProviderEffect s none (rxByte b rest s) := by
  rcases rxByte_cases b rest s with ⟨v, _, eq⟩ | ⟨_, eq⟩ | ⟨_, _, _, eq⟩ | ⟨_, eq⟩ | ⟨e, ph, _, eq⟩ <;> rw [eq] <;>
    exact {}

theorem providerEffect_huntByte (b : Byte) (rest : List Byte) (s : State) :
    ProviderEffect s none (huntByte b rest s) := by
  rw [huntByte]
  split <;> exact {}

theorem providerEffect_acceptFrame (code : Code) (payload : List Byte) (s : State) :
    ProviderEffect s none (acceptFrame code payload s) := by
  rcases acceptFrame_cases code payload s with ⟨_, r, _, eq⟩ | ⟨e, rsp, rfl | rfl, eq⟩ <;> rw [eq]
  · exact {}
  all_goals exact { busy := nofun }

theorem providerEffect_decodeBytes (bytes : List Byte) (s : State) :
    ProviderEffect s none (decodeBytes bytes s) := by
  rcases hd : frameDecode s.cfg bytes with e | ⟨code, payload⟩
  · obtain ⟨rsp, _, notBusy, _, eq⟩ := decodeBytes_error hd
    rw [eq]
    exact { busy := fun chosen => absurd (Option.some.inj chosen) notBusy }
  · rw [decodeBytes_ok hd]
    exact providerEffect_acceptFrame code payload s

theorem plainResponse_ne_errBusy {rsp : Response} (plain : plainResponse rsp = true) : rsp ≠ .errBusy := by
  rintro rfl
  cases plain

/-- Dispatching makes at most the call its request stands for (R240, R278). -/
theorem providerEffect_dispatchRequest (r : Request) (s : State) :
    ∃ made, (∀ c ∈ made, requestCall r = some c.1) ∧ ProviderEffect s made (dispatchRequest r s) := by
  rcases dispatchRequest_cases r s with
    ⟨rsp, plain, eq⟩ | ⟨call, answer, stands, ⟨rsp, plain, eq⟩ | ⟨e, rsp, rfl | rfl, eq⟩⟩ <;> rw [eq]
  · exact ⟨none, nofun, { busy := fun chosen => absurd (Option.some.inj chosen) (plainResponse_ne_errBusy plain) }⟩
  · exact ⟨some (call, answer), by rintro _ ⟨⟩; exact stands,
      { busy := fun chosen => absurd (Option.some.inj chosen) (plainResponse_ne_errBusy plain) }⟩
  all_goals exact ⟨some (call, answer), by rintro _ ⟨⟩; exact stands, { busy := nofun }⟩

theorem providerEffect_sendFrame {code : Code} {payload : List Byte} {s t : State}
    (h : sendFrame code payload s = .next t) : ProviderEffect s none t := by
  rcases sendFrame_effect code payload s with ⟨m, bs, eq⟩ | ⟨m, pos, eq⟩ <;> rw [eq] at h <;> cases h
  all_goals exact { calls := by simp [gpioCalls, State.responded], busy := nofun }

/-! ### Every instruction -/

/-- The instruction may make the call: it executes a request that stands for it, by REQ_EXEC, or in `DISPATCHING`, with
the request in `REQ`, by S_DISPATCH or the request's frame code (R240, R314). -/
def ExecutesCall (i : Instr) (s : State) (call : GpioCall) : Prop :=
  ∃ r, requestCall r = some call ∧ (i = .reqExec r
    ∨ (s.phase = .dispatching ∧ s.req = some r
      ∧ (i = .sDispatch ∨ ∃ payload, i = frameInstr (requestCode r) payload)))

/-- What an instruction does to the provider and to the choice of ErrBusy: at most one call, and one it executes. -/
def ExecEffect (i : Instr) (s t : State) : Prop :=
  ∃ made, (∀ c ∈ made, ExecutesCall i s c.1) ∧ ProviderEffect s made t

theorem ExecEffect.of_no_call {i : Instr} {s t : State} (h : ProviderEffect s none t) : ExecEffect i s t :=
  ⟨none, nofun, h⟩

/-- Dispatching the request in `REQ`, by whichever of the two instructions dispatches it. -/
theorem execEffect_dispatchRequest {i : Instr} {r : Request} {s : State} (phase : s.phase = .dispatching)
    (req : s.req = some r) (dispatches : i = .sDispatch ∨ ∃ payload, i = frameInstr (requestCode r) payload) :
    ExecEffect i s (dispatchRequest r s) := by
  obtain ⟨made, stands, effect⟩ := providerEffect_dispatchRequest r s
  exact ⟨made, fun c hc => ⟨r, stands c hc, .inr ⟨phase, req, dispatches⟩⟩, effect⟩

theorem execEffect_frameInstr {code : Code} {payload : List Byte} {s t : State}
    (h : exec (frameInstr code payload) s = .next t) : ExecEffect (frameInstr code payload) s t := by
  rw [exec_frameInstr] at h
  rcases frameCode_next_inv h with ⟨_, rfl⟩ | ⟨r, phase, req, rfl, rfl⟩ | ⟨_, _, _, _, sent⟩
  · exact .of_no_call (providerEffect_acceptFrame code payload s)
  · exact execEffect_dispatchRequest phase req (.inr ⟨payload, rfl⟩)
  · exact .of_no_call (providerEffect_sendFrame sent)

/-- The frame codes by what their phase runs; of the others only REQ_EXEC and S_DISPATCH execute a request. -/
theorem exec_execEffect {i : Instr} {s t : State} (h : exec i s = .next t) : ExecEffect i s t := by
  rcases parts : frameParts i with _ | ⟨code, payload⟩
  case some =>
    obtain rfl := frameInstr_of_frameParts parts
    exact execEffect_frameInstr h
  cases i with
  | ping | itfType | version | idGet | gpioDirSet | gpioDirGet | gpioRead | gpioWrite | good | gpioValue | errGeneric
  | errCrc | errUnknownCode | errInvalidArgs | errBusy | gpioDirResp => cases parts
  | reqExec r =>
    obtain ⟨made, stands, effect⟩ := providerEffect_reqExec h
    exact ⟨made, fun c hc => ⟨r, stands c hc, .inl rfl⟩, effect⟩
  | sDispatch =>
    obtain ⟨r, phase, req, rfl⟩ := execSDispatch_next_inv h
    exact execEffect_dispatchRequest phase req (.inl rfl)
  | decEnd => exact .of_no_call (providerEffect_replyStep (r := (s, .ok .completes)) {} h)
  | decEsc => exact .of_no_call (providerEffect_replyStep (r := (s.setEsc, .ok .continues)) {} h)
  | decBadEsc b pos => exact .of_no_call (providerEffect_replyStep (r := (s.clearEsc, .error (.badEsc pos))) {} h)
  | decLit b pos => exact .of_no_call (providerEffect_replyStep (providerEffect_decAppend b pos s) h)
  | decEscEnd pos =>
    exact .of_no_call (providerEffect_replyStep
      (.trans (t := s.clearEsc) {} (providerEffect_decAppend slipEnd pos s.clearEsc)) h)
  | decEscEsc pos =>
    exact .of_no_call (providerEffect_replyStep
      (.trans (t := s.clearEsc) {} (providerEffect_decAppend slipEsc pos s.clearEsc)) h)
  | encByteEnd pos => exact .of_no_call (providerEffect_replyUnit (providerEffect_encAppend _ (some pos) s) h)
  | encByteEsc pos => exact .of_no_call (providerEffect_replyUnit (providerEffect_encAppend _ (some pos) s) h)
  | encByteLit b pos => exact .of_no_call (providerEffect_replyUnit (providerEffect_encAppend [b] (some pos) s) h)
  | encFeed bytes => exact .of_no_call (providerEffect_replyUnit (providerEffect_encFeedFrom 0 bytes s) h)
  | encFinish => exact .of_no_call (providerEffect_replyUnit (providerEffect_encAppend [slipEnd] none s) h)
  | decReset | encReset | crc16 | frameEncode | codeLookup | codeEncode | categorize | argInit | toFrame =>
    cases h
    exact .of_no_call {}
  | reset =>
    cases h
    exact .of_no_call { busy := nofun }
  | decFeed => exact .of_no_call (providerEffect_decFeed h)
  | decSlice => exact .of_no_call (providerEffect_decSlice h)
  | encSlice => exact .of_no_call (providerEffect_encSlice h)
  | frameDecode => exact .of_no_call (providerEffect_frameDecode h)
  | argU8 => exact .of_no_call (providerEffect_argU8 h)
  | argU16 => exact .of_no_call (providerEffect_argU16 h)
  | reqBuild => exact .of_no_call (providerEffect_reqBuild h)
  | sRx =>
    obtain ⟨_, ⟨_, rfl⟩ | ⟨b, rest, _, rfl⟩⟩ := execSRx_next_inv h
    · exact .of_no_call {}
    · exact .of_no_call (providerEffect_rxByte b rest s)
  | sHunt =>
    obtain ⟨_, ⟨_, rfl⟩ | ⟨b, rest, _, rfl⟩⟩ := execSHunt_next_inv h
    · exact .of_no_call {}
    · exact .of_no_call (providerEffect_huntByte b rest s)
  | sDecode =>
    obtain ⟨_, rfl⟩ := execSDecode_next_inv h
    exact .of_no_call (providerEffect_decodeBytes s.decBytes s)
  | sRespond =>
    obtain ⟨_, _, _, sent⟩ := execSRespond_next_inv h
    exact .of_no_call (providerEffect_sendFrame sent)

/-- Settles O57: every instruction's effect has at most one call, of a request it executes (R240, R314). -/
theorem atMostOneProviderCall : Obligations.AtMostOneProviderCall := by
  intro i s t h
  obtain ⟨made, executes, effect⟩ := exec_execEffect h
  cases made with
  | none => exact .inl (by simpa using effect.calls)
  | some c =>
    obtain ⟨r, stands, how⟩ := executes c rfl
    exact .inr ⟨r, c.1, c.2, stands, effect.calls, how⟩

/-- Settles O59: no instruction's effect puts ErrBusy in `RSP` (R265). -/
theorem neverChoosesErrBusy : Obligations.NeverChoosesErrBusy := by
  refine ⟨fun i s t h => ?_, fun s => rfl⟩
  obtain ⟨_, _, effect⟩ := exec_execEffect h
  exact effect.busy

end Sys2Proof.Proofs

namespace Sys2Proof.Proofs

open Sys2Proof.Machine

/-! ## The fields of a request (R77 to R79, R220) -/

theorem gpioDirOf_cases (v : Byte) :
    (v = 0#8 ∧ gpioDirOf v = some .pullDownInput) ∨ (v = 1#8 ∧ gpioDirOf v = some .pullUpInput)
    ∨ (v = 2#8 ∧ gpioDirOf v = some .output) ∨ (v ≠ 0#8 ∧ v ≠ 1#8 ∧ v ≠ 2#8 ∧ gpioDirOf v = none) := by
  unfold gpioDirOf
  split_ifs <;> simp_all

theorem gpioValueOf_cases (v : Byte) :
    (v = 0#8 ∧ gpioValueOf v = some .low) ∨ (v = 1#8 ∧ gpioValueOf v = some .high)
    ∨ (v ≠ 0#8 ∧ v ≠ 1#8 ∧ gpioValueOf v = none) := by
  unfold gpioValueOf
  split_ifs <;> simp_all

theorem parserU8_first (b : Byte) (rest : List Byte) :
    parserU8 (parserInit (b :: rest)) = (some b, { view := b :: rest, cur := 1 }) :=
  parserU8_of_byte_left [] b rest

theorem parserU8_second (a b : Byte) (rest : List Byte) :
    parserU8 { view := a :: b :: rest, cur := 1 } = (some b, { view := a :: b :: rest, cur := 2 }) :=
  parserU8_of_byte_left [a] b rest

theorem buildRequest_no_field {code : Code} (gpio : categorize code = .gpioRequest) :
    buildRequest code [] = some ({ view := [], cur := 0 }, .error (.invalidArg code .missing)) := by
  cases code with
  | gpioDirSet | gpioDirGet | gpioRead | gpioWrite => rfl
  | ping | itfType | version | idGet | gpioValue | good | errGeneric | errCrc | errUnknownCode | errInvalidArgs
  | errBusy | gpioDirResp => cases gpio

theorem buildRequest_no_second_field {code : Code} (two : code = .gpioDirSet ∨ code = .gpioWrite) (pin : Byte) :
    buildRequest code [pin] = some ({ view := [pin], cur := 1 }, .error (.invalidArg code .missing)) := by
  rcases two with rfl | rfl <;> rfl

theorem buildRequest_gpioDirGet (pin : Byte) (rest : List Byte) :
    buildRequest .gpioDirGet (pin :: rest) = some ({ view := pin :: rest, cur := 1 }, .ok (.gpioDirGet pin)) := by
  simp only [buildRequest, parserU8_first]

theorem buildRequest_gpioRead (pin : Byte) (rest : List Byte) :
    buildRequest .gpioRead (pin :: rest) = some ({ view := pin :: rest, cur := 1 }, .ok (.gpioRead pin)) := by
  simp only [buildRequest, parserU8_first]

theorem buildRequest_gpioDirSet {v : Byte} {dir : GpioDir} (named : gpioDirOf v = some dir) (pin : Byte)
    (rest : List Byte) : buildRequest .gpioDirSet (pin :: v :: rest) =
      some ({ view := pin :: v :: rest, cur := 2 }, .ok (.gpioDirSet pin dir)) := by
  simp only [buildRequest, parserU8_first, parserU8_second, named]

theorem buildRequest_gpioDirSet_badDir {v : Byte} (outside : gpioDirOf v = none) (pin : Byte) (rest : List Byte) :
    buildRequest .gpioDirSet (pin :: v :: rest) =
      some ({ view := pin :: v :: rest, cur := 2 }, .error (.invalidArg .gpioDirSet (.badDir v))) := by
  simp only [buildRequest, parserU8_first, parserU8_second, outside]

theorem buildRequest_gpioWrite {v : Byte} {value : GpioValue} (named : gpioValueOf v = some value) (pin : Byte)
    (rest : List Byte) : buildRequest .gpioWrite (pin :: v :: rest) =
      some ({ view := pin :: v :: rest, cur := 2 }, .ok (.gpioWrite pin value)) := by
  simp only [buildRequest, parserU8_first, parserU8_second, named]

theorem buildRequest_gpioWrite_badValue {v : Byte} (outside : gpioValueOf v = none) (pin : Byte) (rest : List Byte) :
    buildRequest .gpioWrite (pin :: v :: rest) =
      some ({ view := pin :: v :: rest, cur := 2 }, .error (.invalidArg .gpioWrite (.badValue v))) := by
  simp only [buildRequest, parserU8_first, parserU8_second, outside]

/-! ## A request built, or its InvalidArg, by each of its callers -/

section Built

variable {code : Code} {payload : List Byte} {a : ArgParser} {r : Request} {cause : ArgCause}

theorem exec_reqBuild_of_ok (built : buildRequest code payload = some (a, .ok r)) (s : State) :
    exec (.reqBuild code payload) s = .next { s with arg := none, ret := .request r } := by
  rw [show exec (.reqBuild code payload) s = execReqBuild code payload s from rfl, execReqBuild, built]
  rfl

theorem exec_reqBuild_of_error (raised : buildRequest code payload = some (a, .error (.invalidArg code cause)))
    (s : State) : exec (.reqBuild code payload) s = .next { s with
      arg := none, err := some (.invalidArg code cause), events := s.events ++ [.err (.invalidArg code cause)],
      ret := .raised (.invalidArg code cause) } := by
  rw [show exec (.reqBuild code payload) s = execReqBuild code payload s from rfl, execReqBuild, raised]
  rfl

theorem exec_reqBuild_of_response (response : categorize code = .response) (payload : List Byte) (s : State) :
    exec (.reqBuild code payload) s = .next (unstatedBuild code payload s) := by
  rw [show exec (.reqBuild code payload) s = execReqBuild code payload s from rfl, execReqBuild,
    buildRequest_eq_none payload response]

/-- A code with an arm of REQ_BUILD is a request's (R220). -/
theorem categorize_ne_response_of_buildRequest {built : ArgParser × Except Err Request}
    (h : buildRequest code payload = some built) : categorize code ≠ .response := by
  intro response
  rw [buildRequest_eq_none payload response] at h
  cases h

/-- In `FRAME_READY` a frame whose request is built goes on to `DISPATCHING` (R277). -/
theorem exec_frameInstr_of_built {s : State} (phase : s.phase = .frameReady)
    (built : buildRequest code payload = some (a, .ok r)) :
    exec (frameInstr code payload) s = .next { s with
      frm := some { code := code, payload := payload }, arg := none, req := some r, phase := .dispatching } := by
  rw [exec_frameInstr_frameReady phase, acceptFrame, if_neg (categorize_ne_response_of_buildRequest built), built]

/-- In `FRAME_READY` a frame with an InvalidArg is answered ErrInvalidArgs and builds no request (R277, R311). -/
theorem exec_frameInstr_of_invalidArg {s : State} (phase : s.phase = .frameReady)
    (raised : buildRequest code payload = some (a, .error (.invalidArg code cause))) :
    exec (frameInstr code payload) s = .next { s with
      frm := some { code := code, payload := payload }, arg := none, err := some (.invalidArg code cause),
      events := s.events ++ [.err (.invalidArg code cause)],
      rsp := some (.errInvalidArgs (s.cfg.diagOf (.invalidArg code cause))), phase := .responding } := by
  rw [exec_frameInstr_frameReady phase, acceptFrame, if_neg (categorize_ne_response_of_buildRequest raised), raised]
  exact congrArg Host.Outcome.next (State.takeError_of_response .responding rfl)

end Built

/-- In `DISPATCHING` a request that makes no call is answered, and nothing else is recorded (R278). -/
theorem exec_frameInstr_of_no_call {s : State} {r : Request} {rsp : Response} (phase : s.phase = .dispatching)
    (req : s.req = some r) (answers : execRequest r s = (s, rsp, none)) (payload : List Byte) :
    exec (frameInstr (requestCode r) payload) s = .next { s with
      arg := none, req := none, rsp := some rsp, phase := .responding } := by
  rw [exec_frameInstr_dispatching phase req, dispatchRequest, answers]

/-- Settles O35: what `buildRequest` gives for each payload's shape, REQ_BUILD gives its caller (R220). -/
theorem reqBuildTakesFields : Obligations.ReqBuildTakesFields := by
  intro pin v rest s
  have builds {code : Code} {payload : List Byte} {a : ArgParser} {r : Request}
      (h : buildRequest code payload = some (a, .ok r)) := And.intro h (exec_reqBuild_of_ok h s)
  have raises {code : Code} {payload : List Byte} {a : ArgParser} {cause : ArgCause}
      (h : buildRequest code payload = some (a, .error (.invalidArg code cause))) :=
    And.intro h (exec_reqBuild_of_error h s)
  refine ⟨builds rfl, builds rfl, builds rfl, builds rfl, fun code gpio => raises (buildRequest_no_field gpio),
    fun code two => raises (buildRequest_no_second_field two pin), builds (buildRequest_gpioDirGet pin rest),
    builds (buildRequest_gpioRead pin rest), ?dirSet, ?write, fun code response => ?noRequest⟩
  case dirSet =>
    rcases gpioDirOf_cases v with ⟨rfl, named⟩ | ⟨rfl, named⟩ | ⟨rfl, named⟩ | ⟨not0, not1, not2, outside⟩
    · exact builds (buildRequest_gpioDirSet named pin rest)
    · exact builds (buildRequest_gpioDirSet named pin rest)
    · exact builds (buildRequest_gpioDirSet named pin rest)
    · rw [if_neg not0, if_neg not1, if_neg not2]
      exact raises (buildRequest_gpioDirSet_badDir outside pin rest)
  case write =>
    rcases gpioValueOf_cases v with ⟨rfl, named⟩ | ⟨rfl, named⟩ | ⟨not0, not1, outside⟩
    · exact builds (buildRequest_gpioWrite named pin rest)
    · exact builds (buildRequest_gpioWrite named pin rest)
    · rw [if_neg not0, if_neg not1]
      exact raises (buildRequest_gpioWrite_badValue outside pin rest)
  case noRequest =>
    rw [exec_reqBuild_of_response response, unstatedBuild]
    cases Config.unstatedBuild s.draws code rest <;> rfl

/-- Settles O37: the code and payload are `responseFrame`'s, by the variant (R258 to R267). -/
theorem toFrameLayouts : Obligations.ToFrameLayouts := fun _ _ _ =>
  ⟨rfl, rfl, rfl, rfl, rfl, rfl, rfl, rfl, rfl, rfl, rfl, rfl, rfl⟩

/-- Settles O38: the four codes build whatever the payload, and their requests answer without a call (R220, R224 to
R227). -/
theorem genericRequestsBuildAndExecute : Obligations.GenericRequestsBuildAndExecute := fun payload _ =>
  ⟨fun phase =>
      ⟨exec_frameInstr_of_built (code := .ping) phase rfl, exec_frameInstr_of_built (code := .itfType) phase rfl,
        exec_frameInstr_of_built (code := .version) phase rfl, exec_frameInstr_of_built (code := .idGet) phase rfl⟩,
    fun phase req => exec_frameInstr_of_no_call phase req rfl payload,
    fun phase req => exec_frameInstr_of_no_call phase req rfl payload,
    fun phase req => exec_frameInstr_of_no_call phase req rfl payload,
    fun phase req => exec_frameInstr_of_no_call phase req rfl payload⟩

/-- Settles O39: what `buildRequest` gives for each payload's shape decides the frame in `FRAME_READY` (R228 to R231,
R277). -/
theorem gpioRequestsBuild : Obligations.GpioRequestsBuild := by
  intro pin v rest s phase
  have built {code : Code} {payload : List Byte} {a : ArgParser} {r : Request}
      (h : buildRequest code payload = some (a, .ok r)) := exec_frameInstr_of_built phase h
  have rejected {code : Code} {payload : List Byte} {a : ArgParser} {cause : ArgCause}
      (h : buildRequest code payload = some (a, .error (.invalidArg code cause))) :=
    exec_frameInstr_of_invalidArg phase h
  refine ⟨rejected (buildRequest_no_field (code := .gpioDirSet) rfl),
    rejected (buildRequest_no_second_field (code := .gpioDirSet) (.inl rfl) pin), ?dirSet,
    rejected (buildRequest_no_field (code := .gpioDirGet) rfl), built (buildRequest_gpioDirGet pin rest),
    rejected (buildRequest_no_field (code := .gpioRead) rfl), built (buildRequest_gpioRead pin rest),
    rejected (buildRequest_no_field (code := .gpioWrite) rfl),
    rejected (buildRequest_no_second_field (code := .gpioWrite) (.inr rfl) pin), ?write⟩
  case dirSet =>
    rcases gpioDirOf_cases v with ⟨rfl, named⟩ | ⟨rfl, named⟩ | ⟨rfl, named⟩ | ⟨not0, not1, not2, outside⟩
    · exact built (buildRequest_gpioDirSet named pin rest)
    · exact built (buildRequest_gpioDirSet named pin rest)
    · exact built (buildRequest_gpioDirSet named pin rest)
    · rw [if_neg not0, if_neg not1, if_neg not2]
      exact rejected (buildRequest_gpioDirSet_badDir outside pin rest)
  case write =>
    rcases gpioValueOf_cases v with ⟨rfl, named⟩ | ⟨rfl, named⟩ | ⟨not0, not1, outside⟩
    · exact built (buildRequest_gpioWrite named pin rest)
    · exact built (buildRequest_gpioWrite named pin rest)
    · rw [if_neg not0, if_neg not1]
      exact rejected (buildRequest_gpioWrite_badValue outside pin rest)

end Sys2Proof.Proofs

namespace Sys2Proof.Proofs

open Sys2Proof.Machine

/-! ## What a step runs (R271) -/

theorem step_of_call {s : State} {i : Instr} {rest : List Instr} (calls : s.calls = i :: rest) :
    step s = exec i { s with calls := rest } := by
  rw [step, nextInstr, calls]

theorem step_of_no_call {s : State} (calls : s.calls = []) : step s = exec (phaseStep s.phase) s := by
  rw [step, nextInstr, calls]

/-- Settles O8: a waiting call is taken off the queue, and with none the phase gives the step (R271). -/
theorem stepRunsNextInstruction : Obligations.StepRunsNextInstruction := by
  intro s
  refine ⟨fun i rest => step_of_call, fun calls receiving => ?receiving, fun calls phase => ?_, fun calls phase => ?_,
    fun calls phase => ?_, fun calls phase => ?_⟩
  case receiving => rcases receiving with phase | phase <;> rw [step_of_no_call calls, phase] <;> rfl
  all_goals rw [step_of_no_call calls, phase]; rfl

/-! ## Each pipeline step in its phase (R272 to R280) -/

theorem exec_sRx_of_offered {s : State} {b : Byte} {rest : List Byte} (phase : s.phase = .idle ∨ s.phase = .accum)
    (offered : s.input = b :: rest) : exec .sRx s = .next (rxByte b rest s) := by
  rcases phase with phase | phase <;> rw [exec, execSRx, phase, offered]

theorem exec_sRx_of_empty {s : State} (phase : s.phase = .idle ∨ s.phase = .accum) (empty : s.input = []) :
    exec .sRx s = .next s := by
  rcases phase with phase | phase <;> rw [exec, execSRx, phase, empty]

theorem exec_sHunt_of_offered {s : State} {b : Byte} {rest : List Byte} (phase : s.phase = .hunt)
    (offered : s.input = b :: rest) : exec .sHunt s = .next (huntByte b rest s) := by
  rw [exec, execSHunt, phase, offered]

theorem exec_sHunt_of_empty {s : State} (phase : s.phase = .hunt) (empty : s.input = []) :
    exec .sHunt s = .next s := by
  rw [exec, execSHunt, phase, empty]

theorem exec_sDecode_of_within {s : State} (phase : s.phase = .frameReady) (within : s.decLen ≤ s.cfg.decCap) :
    exec .sDecode s = .next (decodeBytes s.decBytes s) := by
  rw [exec, execSDecode, phase]
  exact if_pos within

theorem exec_sDecode_of_beyond {s : State} (phase : s.phase = .frameReady) (beyond : s.cfg.decCap < s.decLen) :
    exec .sDecode s = .fault (.outsideBuffer .dec) := by
  rw [exec, execSDecode, phase]
  exact if_neg (Nat.not_le.2 beyond)

theorem exec_sDispatch_of_req {s : State} {r : Request} (phase : s.phase = .dispatching) (req : s.req = some r) :
    exec .sDispatch s = .next (dispatchRequest r s) := by
  rw [exec, execSDispatch, phase, req]

/-- In `RESPONDING` the frame code of the response in `RSP` sends its frame (log entry 17). -/
theorem exec_frameInstr_responding {s : State} {r : Response} {code : Code} {payload : List Byte}
    (phase : s.phase = .responding) (rsp : s.rsp = some r) (own : responseFrame s.cfg r = (code, payload)) :
    exec (frameInstr code payload) s = sendFrame code payload s := by
  rw [exec_frameInstr, frameCode, phase, rsp]
  exact if_pos own

/-- S_RESPOND is the frame code its response is sent as (R279). -/
theorem exec_sRespond_eq_frameInstr {s : State} {r : Response} {code : Code} {payload : List Byte}
    (phase : s.phase = .responding) (rsp : s.rsp = some r) (own : responseFrame s.cfg r = (code, payload)) :
    exec .sRespond s = exec (frameInstr code payload) s := by
  rw [exec_frameInstr_responding phase rsp own, exec_sRespond_of_rsp phase rsp, own]

/-- Only a frame that `FRAME_DECODE` accepts decodes to an instruction, that of its code (R92). -/
theorem decodeFrame_ok {p : Params} {bytes : List Byte} {i : Instr} (h : decodeFrame p bytes = .ok i) :
    ∃ code payload, frameDecode p bytes = .ok (code, payload) ∧ i = frameInstr code payload := by
  rw [decodeFrame] at h
  split at h <;> cases h
  next code payload decoded => exact ⟨code, payload, decoded, rfl⟩

/-- S_DECODE of an accepted frame is the instruction of its code (R277; log entry 17). -/
theorem exec_sDecode_eq_frameInstr {s : State} {code : Code} {payload : List Byte} (phase : s.phase = .frameReady)
    (within : s.decLen ≤ s.cfg.decCap) (decoded : frameDecode s.cfg s.decBytes = .ok (code, payload)) :
    exec .sDecode s = exec (frameInstr code payload) s := by
  rw [exec_sDecode_of_within phase within, decodeBytes_ok decoded, exec_frameInstr_frameReady phase]

/-- Settles O9: in each of the three phases the pipeline step does what the frame code in flight does (R277 to
R279). -/
theorem stepRunsDecodedFrame : Obligations.StepRunsDecodedFrame := by
  intro s calls
  refine ⟨fun i phase within decoded => ?_, fun r payload phase req => ?_, fun r phase rsp => ?_⟩ <;>
    rw [step_of_no_call calls, phase, phaseStep]
  · obtain ⟨code, payload, accepted, rfl⟩ := decodeFrame_ok decoded
    exact exec_sDecode_eq_frameInstr phase within accepted
  · rw [exec_sDispatch_of_req phase req, exec_frameInstr_dispatching phase req]
  · exact exec_sRespond_eq_frameInstr phase rsp rfl

/-! ## Outside its phase (R271) -/

theorem exec_sRx_of_ne {s : State} (notIdle : s.phase ≠ .idle) (notAccum : s.phase ≠ .accum) :
    exec .sRx s = .fault (.notEnabled s.phase) := by
  rw [exec, execSRx]
  split
  · contradiction
  · contradiction
  all_goals rfl

theorem exec_sHunt_of_ne {s : State} (other : s.phase ≠ .hunt) : exec .sHunt s = .fault (.notEnabled s.phase) := by
  rw [exec, execSHunt]
  split
  · contradiction
  all_goals rfl

theorem exec_sDecode_of_ne {s : State} (other : s.phase ≠ .frameReady) :
    exec .sDecode s = .fault (.notEnabled s.phase) := by
  rw [exec, execSDecode]
  split
  · contradiction
  all_goals rfl

theorem exec_sDispatch_of_ne {s : State} (other : s.phase ≠ .dispatching) :
    exec .sDispatch s = .fault (.notEnabled s.phase) := by
  rw [exec, execSDispatch]
  split
  · contradiction
  all_goals rfl

theorem exec_sRespond_of_ne {s : State} (other : s.phase ≠ .responding) :
    exec .sRespond s = .fault (.notEnabled s.phase) := by
  rw [exec, execSRespond]
  split
  · contradiction
  all_goals rfl

/-- A phase that receives bytes has no frame in flight (log entry 17). -/
theorem exec_frameInstr_of_receiving {s : State} (phase : s.phase = .idle ∨ s.phase = .accum ∨ s.phase = .hunt)
    (code : Code) (payload : List Byte) : exec (frameInstr code payload) s = .fault (.notEnabled s.phase) := by
  rw [exec_frameInstr, frameCode]
  rcases phase with phase | phase | phase <;> rw [phase]

/-- Settles O10: each of the five steps faults outside its phase, a frame code where its phase's register does not hold
what it stands for, and a slice past the capacity (R37, R50, R271). -/
theorem stopsWhereNoRuleApplies : Obligations.StopsWhereNoRuleApplies := by
  intro s
  refine ⟨exec_sRx_of_ne, exec_sHunt_of_ne, exec_sDecode_of_ne, exec_sDispatch_of_ne, exec_sRespond_of_ne,
    exec_frameInstr_of_receiving, fun r code payload phase req other => ?otherRequest,
    fun r code payload phase rsp other => ?otherResponse, fun phase req => ?noReq, fun phase rsp => ?noRsp,
    fun arg => ?noArg, fun beyond => ⟨if_neg (Nat.not_le.2 beyond), fun phase => exec_sDecode_of_beyond phase beyond⟩,
    fun beyond => if_neg (Nat.not_le.2 beyond)⟩
  case otherRequest =>
    rw [exec_frameInstr, frameCode, phase, req]
    exact if_neg other
  case otherResponse =>
    rw [exec_frameInstr, frameCode, phase, rsp]
    exact if_neg other
  case noReq =>
    refine ⟨by rw [exec, execSDispatch, phase, req], fun code payload => ?_⟩
    rw [exec_frameInstr, frameCode, phase, req]
  case noRsp =>
    refine ⟨by rw [exec, execSRespond, phase, rsp], fun code payload => ?_⟩
    rw [exec_frameInstr, frameCode, phase, rsp]
  case noArg =>
    exact ⟨by rw [exec, execArgU8, arg], by rw [exec, execArgU16, arg]⟩

end Sys2Proof.Proofs

namespace Sys2Proof.Proofs

open Sys2Proof.Machine

/-! ## The byte step by its class (R101 to R107) -/

theorem decStep_esc {s : State} {b : Byte} (pos : Nat) (esc : s.decEsc = false) (isEsc : b = slipEsc) :
    decStep b pos s = (s.setEsc, .ok .continues) := by
  rw [decStep, esc, isEsc]
  rfl

theorem decStep_end {s : State} {b : Byte} (pos : Nat) (esc : s.decEsc = false) (isEnd : b = slipEnd) :
    decStep b pos s = (s, .ok .completes) := by
  rw [decStep, esc, isEnd]
  rfl

theorem decStep_lit {s : State} {b : Byte} (pos : Nat) (esc : s.decEsc = false) (notEnd : b ≠ slipEnd)
    (notEsc : b ≠ slipEsc) : decStep b pos s = decAppend b pos s := by
  rw [decStep, esc, decClass_lit notEnd notEsc]

/-- The second byte of a legal escape appends the byte it stands for (R104, R105). -/
theorem decStep_escaped {s : State} {b : Byte} (pos : Nat) (esc : s.decEsc = true)
    (legal : b = slipEscEnd ∨ b = slipEscEsc) :
    decStep b pos s = decAppend (if b = slipEscEnd then slipEnd else slipEsc) pos s.clearEsc := by
  rw [decStep, esc]
  rcases legal with rfl | rfl <;> rfl

theorem decStep_badEsc {s : State} {b : Byte} (pos : Nat) (esc : s.decEsc = true) (notEscEnd : b ≠ slipEscEnd)
    (notEscEsc : b ≠ slipEscEsc) : decStep b pos s = (s.clearEsc, .error (.badEsc pos)) := by
  rw [decStep, esc, decClass_badEsc notEscEnd notEscEsc]

/-! ## Receiving a byte (R272 to R276) -/

/-- Settles O43: the byte step continues, by the flag or by an append with room (R272, R273). -/
theorem rxContinues : Obligations.RxContinues := by
  intro b rest s phase offered
  rw [exec_sRx_of_offered phase offered]
  refine ⟨fun esc isEsc => ?esc, fun esc notEnd notEsc room => ?lit, fun esc legal room => ?escaped⟩
  case esc =>
    rw [rxByte_of_continues rest (decStep_esc s.rxCnt esc isEsc)]
    rfl
  case lit =>
    have step := (decStep_lit s.rxCnt esc notEnd notEsc).trans (decAppend_room b s.rxCnt room)
    rw [rxByte_of_continues rest step]
    rfl
  case escaped =>
    have step := (decStep_escaped s.rxCnt esc legal).trans (decAppend_room _ s.rxCnt room)
    rw [rxByte_of_continues rest step]
    rfl

/-- An END of an empty frame under DROP resets the decoder (R274). -/
theorem rxByte_of_dropped {b : Byte} {s d : State} (rest : List Byte)
    (h : decStep b s.rxCnt s = (d, .ok .completes)) (dropped : d.decLen = 0 ∧ s.cfg.emptyFrameMode = .drop) :
    rxByte b rest s =
      { (afterAccepting s d [b] rest s.phase).decReset with rxCnt := 0, phase := .idle } := by
  rw [rxByte, decStep_accept, h]
  exact if_pos dropped

/-- An END of any other frame makes it ready (R274). -/
theorem rxByte_of_ready {b : Byte} {s d : State} (rest : List Byte)
    (h : decStep b s.rxCnt s = (d, .ok .completes)) (kept : ¬(d.decLen = 0 ∧ s.cfg.emptyFrameMode = .drop)) :
    rxByte b rest s = afterAccepting s d [b] rest .frameReady := by
  rw [rxByte, decStep_accept, h]
  exact if_neg kept

/-- Settles O44: the byte step completes, and an empty frame under DROP is the one that is not kept (R103, R274). -/
theorem rxCompletesOrDrops : Obligations.RxCompletesOrDrops := by
  intro rest s phase offered esc
  rw [exec_sRx_of_offered phase offered]
  have step : decStep 0xC0#8 s.rxCnt s = (s, .ok .completes) := decStep_end s.rxCnt esc rfl
  refine ⟨fun empty drop => ?_, fun kept => ?_⟩
  · rw [rxByte_of_dropped rest step ⟨empty, drop⟩]
    rfl
  · have kept : ¬(s.decLen = 0 ∧ s.cfg.emptyFrameMode = .drop) := by
      rintro ⟨empty, drop⟩
      simp [empty, drop] at kept
    rw [rxByte_of_ready rest step kept]
    rfl

/-- An error without a response resets the decoder and resyncs (R275, R311). -/
theorem framingError_of_silent {e : Err} {t : State} (b : Byte) (silent : errorResponse t.cfg e = none) :
    framingError e b t = { t.decReset with
      rxCnt := 0, err := some e, events := t.events ++ [.err e],
      phase := if t.cfg.resyncMode = .hunt ∧ b ≠ slipEnd then .hunt else .idle } :=
  takeError_none _ silent

/-- A byte at which the decoder raises an error without a response is recorded, and the decoder is reset (R275). -/
theorem rxByte_of_error {b : Byte} {s d : State} {e : Err} (rest : List Byte)
    (h : decStep b s.rxCnt s = (d, .error e)) (silent : errorResponse s.cfg e = none) :
    rxByte b rest s = { (afterAccepting s d [b] rest s.phase).decReset with
      rxCnt := 0, err := some e, events := s.events ++ [.inByte b, .err e],
      phase := if s.cfg.resyncMode = .hunt ∧ b ≠ slipEnd then .hunt else .idle } := by
  rw [rxByte, decStep_accept, h]
  have history : (afterAccepting s d [b] rest s.phase).events ++ [.err e] = s.events ++ [.inByte b, .err e] :=
    List.append_assoc s.events [.inByte b] [.err e]
  rw [← history]
  exact framingError_of_silent b silent

/-- Settles O45: a byte after ESC that completes no escape is BadEsc, and an append at a full buffer is BufferFull; both
leave the buffer as it was, and neither has a response (R101, R104 to R106, R275, R311). -/
theorem rxFramingErrorResyncs : Obligations.RxFramingErrorResyncs := by
  intro b rest s phase offered
  rw [exec_sRx_of_offered phase offered]
  refine ⟨fun esc notEscEnd notEscEsc => ?badEsc, fun esc legal full => ?escaped, fun esc notEnd notEsc full => ?lit⟩
  case badEsc =>
    rw [rxByte_of_error rest (decStep_badEsc s.rxCnt esc notEscEnd notEscEsc) rfl]
    rfl
  case escaped =>
    have step := (decStep_escaped s.rxCnt esc legal).trans (decAppend_full _ s.rxCnt full)
    rw [rxByte_of_error rest step rfl]
    rfl
  case lit =>
    have step := (decStep_lit s.rxCnt esc notEnd notEsc).trans (decAppend_full b s.rxCnt full)
    rw [rxByte_of_error rest step rfl]
    rfl

/-- Settles O46: S_HUNT discards the byte whatever it is, and only an END changes the phase (R276); an empty poll
returns the state (R288). -/
theorem huntDiscardsToEndAndPollsAreEmpty : Obligations.HuntDiscardsToEndAndPollsAreEmpty := by
  intro s
  refine ⟨fun b rest phase offered => ?_, exec_sHunt_of_empty, exec_sRx_of_empty⟩
  rw [exec_sHunt_of_offered phase offered, huntByte]
  by_cases isEnd : b = slipEnd
  · rw [if_pos isEnd, show (if b = 0xC0#8 then Phase.idle else .hunt) = .idle from if_pos isEnd]
    rfl
  · rw [if_neg isEnd, show (if b = 0xC0#8 then Phase.idle else .hunt) = .hunt from if_neg isEnd, ← phase]
    rfl

/-! ## Decoding, dispatching, responding (R277 to R280) -/

/-- A response the block chooses: not ErrBusy (R265), and its diagnostic within `ERR_MSG_MAX` (R8). -/
structure Sendable (p : Params) (rsp : Response) : Prop where
  notBusy : rsp ≠ .errBusy
  within : msgWithin p rsp

theorem sendable_of_plain (p : Params) {rsp : Response} (plain : plainResponse rsp = true) : Sendable p rsp := by
  refine ⟨plainResponse_ne_errBusy plain, ?_⟩
  cases rsp with
  | errGeneric | errInvalidArgs => cases plain
  | good | gpioValue | gpioDirResp | errCrc | errUnknownCode | errBusy | ident => trivial

/-- The two responses that carry the diagnostic of an error. -/
theorem sendable_of_diag {s : State} {e : Err} {rsp : Response}
    (diag : rsp = .errGeneric (s.cfg.diagOf e) ∨ rsp = .errInvalidArgs (s.cfg.diagOf e)) : Sendable s.cfg rsp := by
  rcases diag with rfl | rfl <;> exact ⟨nofun, diagOf_length_le s.cfgOk e⟩

/-- Everything S_DECODE can do: build a request of the frame, or answer an error, with `FRM` written where the frame was
accepted (R277). -/
theorem decodeBytes_cases (bytes : List Byte) (s : State) :
    (∃ f a r, frameDecode s.cfg bytes = .ok (f.code, f.payload) ∧ buildRequest f.code f.payload = some (a, .ok r)
      ∧ decodeBytes bytes s = { s with frm := some f, arg := none, req := some r, phase := .dispatching })
    ∨ ∃ frm e rsp, (frm = s.frm ∨ ∃ f, frm = some f ∧ frameDecode s.cfg bytes = .ok (f.code, f.payload))
      ∧ Sendable s.cfg rsp
      ∧ decodeBytes bytes s = { s with
        frm := frm, arg := none, err := some e, events := s.events ++ [.err e], rsp := some rsp,
        phase := .responding } := by
  rcases decoded : frameDecode s.cfg bytes with e | ⟨code, payload⟩
  · obtain ⟨rsp, _, notBusy, within, eq⟩ := decodeBytes_error decoded
    exact .inr ⟨s.frm, e, rsp, .inl rfl, ⟨notBusy, within⟩, eq⟩
  · rw [decodeBytes_ok decoded]
    rcases acceptFrame_cases code payload s with ⟨a, r, built, eq⟩ | ⟨e, rsp, diag, eq⟩
    · exact .inl ⟨⟨code, payload⟩, a, r, rfl, built, eq⟩
    · exact .inr ⟨some ⟨code, payload⟩, e, rsp, .inr ⟨_, rfl, rfl⟩, sendable_of_diag diag, eq⟩

/-- S_DECODE goes on to `DISPATCHING` or to `RESPONDING` (R277). -/
theorem decodeBytes_phase (bytes : List Byte) (s : State) :
    (decodeBytes bytes s).phase = .dispatching ∨ (decodeBytes bytes s).phase = .responding := by
  rcases decodeBytes_cases bytes s with ⟨_, _, _, _, _, eq⟩ | ⟨_, _, _, _, _, eq⟩ <;> rw [eq]
  · exact .inl rfl
  · exact .inr rfl

/-- Settles O47: each of the three errors of FRAME_DECODE has a response and is entered with it; an accepted frame is
its code's instruction (R277, R311, R313). -/
theorem decodeStepAnswersOrRuns : Obligations.DecodeStepAnswersOrRuns := by
  intro s phase within
  have decode := exec_sDecode_of_within phase within
  have answered {e : Err} {rsp : Response} (chosen : errorResponse s.cfg e = some rsp)
      (rejected : frameDecode s.cfg s.decBytes = .error e) :
      exec .sDecode s = .next { s with
        arg := none, err := some e, events := s.events ++ [.err e], rsp := some rsp, phase := .responding } := by
    rw [decode, decodeBytes, rejected]
    exact congrArg Host.Outcome.next (takeError_some .responding chosen)
  exact ⟨fun n => answered rfl, fun c r => answered rfl, fun c => answered rfl,
    fun code payload decoded =>
      ⟨exec_sDecode_eq_frameInstr phase within decoded, _, decode, decodeBytes_phase s.decBytes s⟩,
    fun e => frameDecode_error⟩

/-- S_DISPATCH always chooses a response; besides that it writes the draw counter, the history and `ERR` (R278). -/
theorem dispatchRequest_answers (r : Request) (s : State) :
    ∃ draws events err rsp, Sendable s.cfg rsp ∧ dispatchRequest r s = { s with
      draws := draws, events := events, err := err, arg := none, req := none, rsp := some rsp,
      phase := .responding } := by
  rcases dispatchRequest_cases r s with
    ⟨rsp, plain, eq⟩ | ⟨call, answer, _, ⟨rsp, plain, eq⟩ | ⟨e, rsp, diag, eq⟩⟩
  · exact ⟨_, _, _, rsp, sendable_of_plain s.cfg plain, eq⟩
  · exact ⟨_, _, _, rsp, sendable_of_plain s.cfg plain, eq⟩
  · exact ⟨_, _, _, rsp, sendable_of_diag diag, eq⟩

/-- Settles O48: both instructions dispatch the request in `REQ`, and dispatching answers (R242, R278). -/
theorem dispatchStepExecutesRequest : Obligations.DispatchStepExecutesRequest := by
  intro r payload s phase req
  have dispatch := exec_sDispatch_of_req phase req
  refine ⟨dispatch.trans (exec_frameInstr_dispatching phase req payload).symm, ?_⟩
  obtain ⟨draws, events, err, rsp, _, eq⟩ := dispatchRequest_answers r s
  exact ⟨_, rsp, dispatch.trans (congrArg Host.Outcome.next eq), rfl, rfl, rfl, rfl⟩

/-- Settles O42: both instructions send the frame of the response in `RSP`, which fits; which frame code that is follows
from the variant (R258 to R264, R279). -/
theorem respondStepWritesFrame : Obligations.RespondStepWritesFrame := by
  intro code payload r s phase rsp own empty fits
  refine ⟨exec_sRespond_eq_frameInstr phase rsp own, ?sent, ?good, ?value, ?dir, ?generic, ?crc, ?unknown, ?args⟩
  case sent => exact (exec_frameInstr_responding phase rsp own).trans (sendFrame_fits empty fits)
  case good | crc | unknown =>
    rintro rfl
    cases own
    rfl
  case value | dir =>
    rintro pin field rfl
    cases own
    rfl
  case generic | args =>
    rintro msg rfl
    cases own
    rfl

/-- Settles O49: a frame that does not fit has a first unit that does not, or only the END does not; either way nothing
is written to `OUT` and the state is that of a dropped response (R134, R135, R280). -/
theorem respondStepDropsOnOverflow : Obligations.RespondStepDropsOnOverflow := by
  intro r s phase rsp empty
  rw [exec_sRespond_of_rsp phase rsp]
  refine ⟨fun pre b post split fits overflow => sendFrame_unit_overflow empty split fits overflow,
    fun fits => sendFrame_end_overflow empty fits, fun overflow => wireBytes_overflow ?_⟩
  rwa [wireBytes_length]

end Sys2Proof.Proofs

namespace Sys2Proof.Proofs

open Sys2Proof.Machine

/-! ## The invariants in three parts (R284) -/

/-- What `PipelineInv` says in every phase alike. -/
structure BetweenSteps (s : State) : Prop where
  onlyResets : ∀ i ∈ s.calls, i = .reset
  buffers : BufferInv s
  encEmpty : s.encLen = 0
  argIdle : s.arg = none

/-- What `PipelineInv` says of the decoder and of `RX.cnt`, by the phase (R284 items 2 and 5, R40). -/
structure ReceiverInv (s : State) : Prop where
  freshDecoder : s.phase = .idle ∨ s.phase = .hunt → s.decLen = 0 ∧ s.decEsc = false ∧ s.rxCnt = 0
  accumStarted : s.phase = .accum → 0 < s.decLen ∨ s.decEsc = true
  completeClean : s.phase = .frameReady ∨ s.phase = .dispatching ∨ s.phase = .responding → s.decEsc = false
  rxAccum : s.phase = .accum → s.rxCnt ≤ rxAllowance s
  rxComplete : s.rxCnt ≤ rxAllowance s + 1

/-- What `PipelineInv` says of `FRM`, `REQ` and `RSP`, by the phase (R284 items 3 and 4, R29, R51, R265). -/
structure TransientsInv (s : State) : Prop where
  reqLive : s.req.isSome = true ↔ s.phase = .dispatching
  rspLive : s.rsp.isSome = true ↔ s.phase = .responding
  frmLive : s.frm.isSome = true → s.phase = .dispatching ∨ s.phase = .responding
  frmCurrent : ∀ f, s.frm = some f → frameDecode s.cfg s.decBytes = .ok (f.code, f.payload)
  reqBuilt : ∀ r, s.req = some r → ∃ f a, s.frm = some f ∧ buildRequest f.code f.payload = some (a, .ok r)
  neverBusy : s.rsp ≠ some .errBusy
  msgBounded : ∀ r, s.rsp = some r → msgWithin s.cfg r

theorem rxAllowance_of_clean {s : State} (clean : s.decEsc = false) : rxAllowance s = 2 * s.decLen := by
  simp [rxAllowance, clean]

theorem rxAllowance_le (s : State) : rxAllowance s ≤ 2 * s.decLen + 1 := by
  rw [rxAllowance]
  split <;> omega

/-- The bound of `RX.cnt` follows from its count by phase and the decoder's bound: an END is counted only with no escape
pending. -/
theorem pipelineInv_of_parts {s : State} (between : BetweenSteps s) (receiver : ReceiverInv s)
    (transients : TransientsInv s) : PipelineInv s where
  __ := between
  __ := receiver
  __ := transients
  rxBound := by
    have within := between.buffers.decBound
    have allowed := rxAllowance_le s
    cases phase : s.phase with
    | idle => have fresh := receiver.freshDecoder (.inl phase); omega
    | hunt => have fresh := receiver.freshDecoder (.inr phase); omega
    | accum => have counted := receiver.rxAccum phase; omega
    | frameReady | dispatching | responding =>
      have clean := receiver.completeClean (by simp [phase])
      have counted := receiver.rxComplete
      rw [rxAllowance_of_clean clean] at counted
      omega

section Parts

variable {s : State}

theorem receiverInv_of_fresh (phase : s.phase = .idle ∨ s.phase = .hunt) (len : s.decLen = 0)
    (esc : s.decEsc = false) (count : s.rxCnt = 0) : ReceiverInv s where
  freshDecoder _ := ⟨len, esc, count⟩
  accumStarted accum := by simp [accum] at phase
  completeClean _ := esc
  rxAccum _ := by omega
  rxComplete := by omega

theorem receiverInv_of_accum (phase : s.phase = .accum) (started : 0 < s.decLen ∨ s.decEsc = true)
    (counted : s.rxCnt ≤ rxAllowance s) : ReceiverInv s where
  freshDecoder := by simp [phase]
  accumStarted _ := started
  completeClean := by simp [phase]
  rxAccum _ := counted
  rxComplete := by omega

theorem receiverInv_of_complete (phase : s.phase = .frameReady ∨ s.phase = .dispatching ∨ s.phase = .responding)
    (clean : s.decEsc = false) (counted : s.rxCnt ≤ rxAllowance s + 1) : ReceiverInv s where
  freshDecoder receiving := by rcases phase with phase | phase | phase <;> simp [phase] at receiving
  accumStarted accum := by simp [accum] at phase
  completeClean _ := clean
  rxAccum accum := by simp [accum] at phase
  rxComplete := counted

theorem transientsInv_of_none (notDispatching : s.phase ≠ .dispatching) (notResponding : s.phase ≠ .responding)
    (frm : s.frm = none) (req : s.req = none) (rsp : s.rsp = none) : TransientsInv s where
  reqLive := by simp [req, notDispatching]
  rspLive := by simp [rsp, notResponding]
  frmLive live := by simp [frm] at live
  frmCurrent f live := by simp [frm] at live
  reqBuilt r live := by simp [req] at live
  neverBusy := by simp [rsp]
  msgBounded r live := by simp [rsp] at live

theorem transientsInv_of_dispatching {f : Frame} {a : ArgParser} {r : Request} (phase : s.phase = .dispatching)
    (frm : s.frm = some f) (req : s.req = some r) (rsp : s.rsp = none)
    (current : frameDecode s.cfg s.decBytes = .ok (f.code, f.payload))
    (built : buildRequest f.code f.payload = some (a, .ok r)) : TransientsInv s where
  reqLive := by simp [req, phase]
  rspLive := by simp [rsp, phase]
  frmLive _ := .inl phase
  frmCurrent g live := by cases frm.symm.trans live; exact current
  reqBuilt q live := by cases req.symm.trans live; exact ⟨f, a, frm, built⟩
  neverBusy := by simp [rsp]
  msgBounded q live := by simp [rsp] at live

theorem transientsInv_of_responding {rsp : Response} (phase : s.phase = .responding) (req : s.req = none)
    (chosen : s.rsp = some rsp) (sendable : Sendable s.cfg rsp)
    (current : ∀ f, s.frm = some f → frameDecode s.cfg s.decBytes = .ok (f.code, f.payload)) : TransientsInv s where
  reqLive := by simp [req, phase]
  rspLive := by simp [chosen, phase]
  frmLive _ := .inr phase
  frmCurrent := current
  reqBuilt r live := by simp [req] at live
  neverBusy busy := sendable.notBusy (Option.some.inj (chosen.symm.trans busy))
  msgBounded r live := by cases chosen.symm.trans live; exact sendable.within

/-- Settles O2: at reset the block is idle with nothing held, and its buffers are empty (R38). -/
theorem resetMeetsPipelineInv : Obligations.ResetMeetsPipelineInv :=
  pipelineInv_of_parts
    { onlyResets := nofun, encEmpty := rfl, argIdle := rfl
      buffers := {
        decWf := .nil, encWf := .nil, decBound := Nat.zero_le _, encBound := Nat.zero_le _
        decWritten := nofun, encWritten := nofun, decInside := nofun, encInside := nofun, argBound := nofun } }
    (receiverInv_of_fresh (.inl rfl) rfl rfl rfl) (transientsInv_of_none nofun nofun rfl rfl rfl)

/-! ## What the invariants give a step -/

/-- Before a frame is decoded `FRM`, `REQ` and `RSP` hold no value (R284 items 3 and 4). -/
theorem noTransients_of_inv (inv : PipelineInv s) (notDispatching : s.phase ≠ .dispatching)
    (notResponding : s.phase ≠ .responding) : s.frm = none ∧ s.req = none ∧ s.rsp = none := by
  refine ⟨?_, ?_, ?_⟩
  · simpa [notDispatching, notResponding] using inv.frmLive
  · simpa [notDispatching] using inv.reqLive
  · simpa [notResponding] using inv.rspLive

/-- While a frame is received, no more bytes have been accepted than the decoder accounts for (R40). -/
theorem rxCnt_le_of_receiving (inv : PipelineInv s) (phase : s.phase = .idle ∨ s.phase = .accum) :
    s.rxCnt ≤ rxAllowance s := by
  rcases phase with phase | phase
  · obtain ⟨_, _, count⟩ := inv.freshDecoder (.inl phase)
    omega
  · exact inv.rxAccum phase

/-! ## Each step keeps them -/

theorem pipelineInv_resetBlock (inv : PipelineInv s) : PipelineInv s.resetBlock :=
  pipelineInv_of_parts
    ⟨inv.onlyResets, (bufferEffect_resetBlock s).keeps_bufferInv inv.buffers, rfl, rfl⟩
    (receiverInv_of_fresh (.inl rfl) rfl rfl rfl) (transientsInv_of_none nofun nofun rfl rfl rfl)

/-- A byte received is counted with the append or the pending escape it makes (R40, R272 to R275). -/
theorem pipelineInv_rxByte (inv : PipelineInv s) (phase : s.phase = .idle ∨ s.phase = .accum) (b : Byte)
    (rest : List Byte) : PipelineInv (rxByte b rest s) := by
  obtain ⟨frm, req, rsp⟩ := noTransients_of_inv inv (by rintro h; simp [h] at phase) (by rintro h; simp [h] at phase)
  have counted := rxCnt_le_of_receiving inv phase
  obtain ⟨_, effect⟩ := stepEffect_rxByte b rest s
  have buffers := effect.keeps_bufferInv inv.buffers
  rcases rxByte_cases b rest s with
    ⟨v, _, eq⟩ | ⟨clean, eq⟩ | ⟨_, _, _, eq⟩ | ⟨clean, eq⟩ | ⟨e, ph, handler, eq⟩ <;> rw [eq] at buffers ⊢
  · refine pipelineInv_of_parts ⟨inv.onlyResets, buffers, inv.encEmpty, rfl⟩
      (receiverInv_of_accum rfl (.inl (Nat.succ_pos _)) ?_) (transientsInv_of_none nofun nofun frm req rsp)
    have allowed := rxAllowance_le s
    simp only [rxAllowance]
    omega
  · refine pipelineInv_of_parts ⟨inv.onlyResets, buffers, inv.encEmpty, rfl⟩
      (receiverInv_of_accum rfl (.inr rfl) ?_) (transientsInv_of_none nofun nofun frm req rsp)
    rw [rxAllowance_of_clean clean] at counted
    exact Nat.succ_le_succ counted
  · exact pipelineInv_of_parts ⟨inv.onlyResets, buffers, inv.encEmpty, rfl⟩
      (receiverInv_of_fresh (.inl rfl) rfl rfl rfl) (transientsInv_of_none nofun nofun rfl req rsp)
  · exact pipelineInv_of_parts ⟨inv.onlyResets, buffers, inv.encEmpty, rfl⟩
      (receiverInv_of_complete (.inl rfl) clean (Nat.succ_le_succ counted))
      (transientsInv_of_none nofun nofun frm req rsp)
  · refine pipelineInv_of_parts ⟨inv.onlyResets, buffers, inv.encEmpty, rfl⟩
      (receiverInv_of_fresh handler.symm rfl rfl rfl) (transientsInv_of_none ?_ ?_ rfl req rsp)
    all_goals rcases handler with rfl | rfl <;> nofun

theorem pipelineInv_huntByte (inv : PipelineInv s) (phase : s.phase = .hunt) (b : Byte) (rest : List Byte) :
    PipelineInv (huntByte b rest s) := by
  obtain ⟨frm, req, rsp⟩ := noTransients_of_inv inv (by simp [phase]) (by simp [phase])
  obtain ⟨len, esc, count⟩ := inv.freshDecoder (.inr phase)
  have buffers := (stepEffect_huntByte b rest s).keeps_bufferInv inv.buffers
  rw [huntByte] at buffers ⊢
  split at buffers
  next isEnd =>
    rw [if_pos isEnd]
    exact pipelineInv_of_parts ⟨inv.onlyResets, buffers, inv.encEmpty, rfl⟩
      (receiverInv_of_fresh (.inl rfl) len esc count) (transientsInv_of_none nofun nofun frm req rsp)
  next notEnd =>
    rw [if_neg notEnd]
    exact pipelineInv_of_parts ⟨inv.onlyResets, buffers, inv.encEmpty, rfl⟩
      (receiverInv_of_fresh (.inr phase) len esc count)
      (transientsInv_of_none (by simp [phase]) (by simp [phase]) frm req rsp)

/-- The decoder is not changed, so `FRM` is what `FRAME_DECODE` gives for its bytes (R51, R277). -/
theorem pipelineInv_decodeBytes (inv : PipelineInv s) (phase : s.phase = .frameReady) :
    PipelineInv (decodeBytes s.decBytes s) := by
  obtain ⟨frm, req, rsp⟩ := noTransients_of_inv inv (by simp [phase]) (by simp [phase])
  have clean := inv.completeClean (.inl phase)
  obtain ⟨_, effect⟩ := stepEffect_decodeBytes s.decBytes s
  have buffers := effect.keeps_bufferInv inv.buffers
  rcases decodeBytes_cases s.decBytes s with ⟨f, a, r, current, built, eq⟩ | ⟨frm', e, rsp', written, sendable, eq⟩ <;>
    rw [eq] at buffers ⊢
  · exact pipelineInv_of_parts ⟨inv.onlyResets, buffers, inv.encEmpty, rfl⟩
      (receiverInv_of_complete (.inr (.inl rfl)) clean inv.rxComplete)
      (transientsInv_of_dispatching rfl rfl rfl rsp current built)
  · refine pipelineInv_of_parts ⟨inv.onlyResets, buffers, inv.encEmpty, rfl⟩
      (receiverInv_of_complete (.inr (.inr rfl)) clean inv.rxComplete)
      (transientsInv_of_responding rfl req rfl sendable fun g live => ?_)
    obtain rfl | ⟨f, rfl, current⟩ := written
    · exact inv.frmCurrent g live
    · cases live
      exact current

theorem pipelineInv_dispatchRequest (inv : PipelineInv s) (phase : s.phase = .dispatching) (r : Request) :
    PipelineInv (dispatchRequest r s) := by
  obtain ⟨_, effect⟩ := stepEffect_dispatchRequest r s
  have buffers := effect.keeps_bufferInv inv.buffers
  obtain ⟨draws, events, err, rsp, sendable, eq⟩ := dispatchRequest_answers r s
  rw [eq] at buffers ⊢
  exact pipelineInv_of_parts ⟨inv.onlyResets, buffers, inv.encEmpty, rfl⟩
    (receiverInv_of_complete (.inr (.inr rfl)) (inv.completeClean (.inr (.inl phase))) inv.rxComplete)
    (transientsInv_of_responding rfl rfl rfl sendable inv.frmCurrent)

/-- S_RESPOND always goes on, to the state it leaves whatever it wrote (R279, R280). -/
theorem sendFrame_responds (code : Code) (payload : List Byte) (s : State) :
    ∃ m e ev, sendFrame code payload s = .next (s.responded m e ev) := by
  rcases sendFrame_effect code payload s with ⟨m, bs, eq⟩ | ⟨m, pos, eq⟩ <;> exact ⟨_, _, _, eq⟩

theorem pipelineInv_sendFrame {t : State} {code : Code} {payload : List Byte} (inv : PipelineInv s)
    (phase : s.phase = .responding) (h : sendFrame code payload s = .next t) : PipelineInv t := by
  obtain ⟨_, effect⟩ := stepEffect_sendFrame h
  have buffers := effect.keeps_bufferInv inv.buffers
  have req : s.req = none := by simpa [phase] using inv.reqLive
  obtain ⟨m, e, ev, eq⟩ := sendFrame_responds code payload s
  cases eq.symm.trans h
  exact pipelineInv_of_parts ⟨inv.onlyResets, buffers, rfl, rfl⟩ (receiverInv_of_fresh (.inl rfl) rfl rfl rfl)
    (transientsInv_of_none nofun nofun rfl req rfl)

end Parts

/-- The step of the phase, with no call taken. -/
theorem pipelineInv_phaseStep {s t : State} (inv : PipelineInv s) (h : exec (phaseStep s.phase) s = .next t) :
    PipelineInv t := by
  cases phase : s.phase <;> rw [phase] at h
  case idle | accum =>
    obtain ⟨receiving, ⟨_, rfl⟩ | ⟨b, rest, _, rfl⟩⟩ := execSRx_next_inv h
    · exact inv
    · exact pipelineInv_rxByte inv receiving b rest
  case hunt =>
    obtain ⟨_, ⟨_, rfl⟩ | ⟨b, rest, _, rfl⟩⟩ := execSHunt_next_inv h
    · exact inv
    · exact pipelineInv_huntByte inv phase b rest
  case frameReady =>
    obtain ⟨_, rfl⟩ := execSDecode_next_inv h
    exact pipelineInv_decodeBytes inv phase
  case dispatching =>
    obtain ⟨r, _, _, rfl⟩ := execSDispatch_next_inv h
    exact pipelineInv_dispatchRequest inv phase r
  case responding =>
    obtain ⟨_, _, _, sent⟩ := execSRespond_next_inv h
    exact pipelineInv_sendFrame inv phase sent

/-- The calls that wait are in no other invariant, so taking the oldest one keeps them all. -/
theorem pipelineInv_of_call_taken {s : State} {i : Instr} {rest : List Instr} (inv : PipelineInv s)
    (calls : s.calls = i :: rest) : PipelineInv { s with calls := rest } :=
  pipelineInv_of_parts
    { onlyResets := fun j waits => inv.onlyResets j (calls ▸ List.mem_cons_of_mem i waits)
      buffers := { inv.buffers with }, encEmpty := inv.encEmpty, argIdle := inv.argIdle }
    { inv with } { inv with }

/-- Settles O51: a waiting call is the external reset, which begins anew, and the step of each phase keeps the three
parts of the invariants (R284). -/
theorem stepKeepsPipelineInv : Obligations.StepKeepsPipelineInv := by
  intro s t inv h
  cases calls : s.calls with
  | nil =>
    rw [step_of_no_call calls] at h
    exact pipelineInv_phaseStep inv h
  | cons i rest =>
    obtain rfl : i = .reset := inv.onlyResets i (by simp [calls])
    rw [step_of_call calls] at h
    cases h
    exact pipelineInv_resetBlock (pipelineInv_of_call_taken inv calls)

end Sys2Proof.Proofs

namespace Sys2Proof.Proofs

open Sys2Proof.Machine

/-! ## What an instruction does at the ports (R270, R287) -/

/-- From any state: the bytes `taken` are accepted from the head of `IN`, the byte sequences `written` go to `OUT`, both
are recorded, and no waiting call is touched. A field left out stands for what the update does not touch. -/
structure PortEffect (s : State) (taken : List Byte) (written : List (List Byte)) (t : State) : Prop where
  input : s.input = taken ++ t.input := by rfl
  accepted : inBytes t.events = inBytes s.events ++ taken := by simp [inBytes]
  out : outWrites t.events = outWrites s.events ++ written := by simp [outWrites]
  calls : t.calls = s.calls := by rfl

/-- What an operation that leaves the ports alone leaves goes on to the next one. -/
theorem PortEffect.trans {s t u : State} {taken : List Byte} {written : List (List Byte)}
    (first : PortEffect s [] [] t) (second : PortEffect t taken written u) : PortEffect s taken written u where
  input := first.input.trans second.input
  accepted := by rw [second.accepted, first.accepted, List.append_nil]
  out := by rw [second.out, first.out, List.append_nil]
  calls := second.calls.trans first.calls

/-! ### The interface operations leave the ports alone -/

theorem portEffect_decAppend (v : Byte) (pos : Nat) (s : State) : PortEffect s [] [] (decAppend v pos s).1 := by
  rcases decAppend_cases v pos s with ⟨_, eq⟩ | ⟨_, eq⟩ <;> rw [eq] <;> exact {}

theorem portEffect_encAppend (bytes : List Byte) (pos : Option Nat) (s : State) :
    PortEffect s [] [] (encAppend bytes pos s).1 := by
  rcases encAppend_cases bytes pos s with ⟨_, eq⟩ | ⟨_, eq⟩ <;> rw [eq] <;> exact {}

theorem portEffect_encFeedFrom (i : Nat) (bytes : List Byte) (s : State) :
    PortEffect s [] [] (encFeedFrom i bytes s).1 := by
  obtain ⟨m, n, r, eq, _⟩ := encFeedFrom_effect i bytes s
  rw [eq]
  exact {}

theorem portEffect_replyStep {s t : State} {r : State × Except Err DecResult} (hr : PortEffect s [] [] r.1)
    (h : replyStep r = .next t) : PortEffect s [] [] t := by
  obtain ⟨u, e | d⟩ := r <;> cases h <;> exact hr.trans {}

theorem portEffect_replyUnit {s t : State} {r : State × Except Err Unit} (hr : PortEffect s [] [] r.1)
    (h : replyUnit r = .next t) : PortEffect s [] [] t := by
  obtain ⟨u, e | d⟩ := r <;> cases h <;> exact hr.trans {}

theorem portEffect_decFeed {chunk : List Byte} {s t : State} (h : exec (.decFeed chunk) s = .next t) :
    PortEffect s [] [] t := by
  rw [exec_decFeed] at h
  cases h
  have feed : PortEffect s [] [] (decFeedFrom 0 chunk s).1 := by
    rw [(decFeedFrom_frame 0 chunk s).1]
    exact { accepted := by simp [State.withDecoder], out := by simp [State.withDecoder] }
  generalize decFeedFrom 0 chunk s = fed at feed ⊢
  obtain ⟨u, e | _⟩ := fed <;>
    exact feed.trans { accepted := by simp [inBytes, feedReply], out := by simp [outWrites, feedReply] }

theorem portEffect_slice {s t : State} (h : exec .decSlice s = .next t ∨ exec .encSlice s = .next t) :
    PortEffect s [] [] t := by
  rcases h with h | h
  · rw [exec, execDecSlice] at h
    split at h <;> cases h
    exact {}
  · rw [exec, execEncSlice] at h
    split at h <;> cases h
    exact {}

theorem portEffect_frameDecode {bytes : List Byte} {s t : State} (h : exec (.frameDecode bytes) s = .next t) :
    PortEffect s [] [] t := by
  rcases decoded : frameDecode s.cfg bytes with e | ⟨code, payload⟩
  · rw [exec_frameDecode_of_error decoded] at h
    cases h
    exact {}
  · rw [exec_frameDecode_of_ok decoded] at h
    cases h
    exact {}

theorem portEffect_argRead {s t : State} (h : exec .argU8 s = .next t ∨ exec .argU16 s = .next t) :
    PortEffect s [] [] t := by
  rcases h with h | h
  · rw [exec, execArgU8] at h
    split at h <;> cases h
    exact {}
  · rw [exec, execArgU16] at h
    split at h <;> cases h
    exact {}

theorem portEffect_reqBuild {code : Code} {payload : List Byte} {s t : State}
    (h : execReqBuild code payload s = .next t) : PortEffect s [] [] t := by
  rw [execReqBuild] at h
  split at h <;> cases h
  · rcases unstatedBuild_cases code payload s with ⟨r, eq⟩ | ⟨cause, eq⟩ <;> rw [eq] <;> exact {}
  all_goals exact {}

theorem portEffect_reqExec {r : Request} {s t : State} (h : exec (.reqExec r) s = .next t) :
    PortEffect s [] [] t := by
  rw [exec_reqExec] at h
  cases h
  rcases execRequest_cases r s with
    ⟨rsp, _, eq⟩ | ⟨call, answer, _, ⟨rsp, _, eq⟩ | ⟨code, pin, eq⟩ | ⟨code, pin, eq⟩⟩ <;> rw [eq] <;> exact {}

/-! ### The pipeline's operations -/

/-- Whatever becomes of the byte, it is accepted (R273 to R275). -/
theorem portEffect_rxByte {b : Byte} {rest : List Byte} {s : State} (offered : s.input = b :: rest) :
    PortEffect s [b] [] (rxByte b rest s) := by
  rcases rxByte_cases b rest s with ⟨v, _, eq⟩ | ⟨_, eq⟩ | ⟨_, _, _, eq⟩ | ⟨_, eq⟩ | ⟨e, ph, _, eq⟩ <;> rw [eq] <;>
    exact { input := offered }

theorem portEffect_huntByte {b : Byte} {rest : List Byte} {s : State} (offered : s.input = b :: rest) :
    PortEffect s [b] [] (huntByte b rest s) := by
  rw [huntByte]
  split <;> exact { input := offered }

theorem portEffect_acceptFrame (code : Code) (payload : List Byte) (s : State) :
    PortEffect s [] [] (acceptFrame code payload s) := by
  rcases acceptFrame_cases code payload s with ⟨_, r, _, eq⟩ | ⟨e, rsp, _, eq⟩ <;> rw [eq] <;> exact {}

theorem portEffect_decodeBytes (bytes : List Byte) (s : State) : PortEffect s [] [] (decodeBytes bytes s) := by
  rcases decodeBytes_cases bytes s with ⟨_, _, _, _, _, eq⟩ | ⟨_, _, _, _, _, eq⟩ <;> rw [eq] <;> exact {}

theorem portEffect_dispatchRequest (r : Request) (s : State) : PortEffect s [] [] (dispatchRequest r s) := by
  rcases dispatchRequest_cases r s with
    ⟨rsp, _, eq⟩ | ⟨call, answer, _, ⟨rsp, _, eq⟩ | ⟨e, rsp, _, eq⟩⟩ <;> rw [eq] <;> exact {}

/-- Responding writes one byte sequence, or none where the encoder overflows (R279, R280). -/
theorem portEffect_sendFrame {code : Code} {payload : List Byte} {s t : State}
    (h : sendFrame code payload s = .next t) : PortEffect s [] [] t ∨ ∃ bytes, PortEffect s [] [bytes] t := by
  rcases sendFrame_effect code payload s with ⟨m, bytes, eq⟩ | ⟨m, pos, eq⟩ <;> rw [eq] at h <;> cases h
  · exact .inr ⟨bytes,
      { accepted := by simp [inBytes, State.responded], out := by simp [outWrites, State.responded] }⟩
  · exact .inl { accepted := by simp [inBytes, State.responded], out := by simp [outWrites, State.responded] }

/-! ### Every instruction -/

/-- What an instruction can do at the ports: leave them alone, accept one byte by S_RX or S_HUNT in a phase that
receives, or write once to `OUT` by responding (R271, R282, R285). -/
inductive ExecPorts (i : Instr) (s t : State) : Prop
  | quiet (effect : PortEffect s [] [] t)
  | accepts (b : Byte) (effect : PortEffect s [b] [] t)
      (phase : s.phase = .idle ∨ s.phase = .accum ∨ s.phase = .hunt) (receives : i = .sRx ∨ i = .sHunt)
  | writes (bytes : List Byte) (effect : PortEffect s [] [bytes] t) (phase : s.phase = .responding)
      (responds : i = .sRespond ∨ ∃ c, frameParts i = some c)

theorem execPorts_sendFrame {i : Instr} {code : Code} {payload : List Byte} {s t : State}
    (phase : s.phase = .responding) (responds : i = .sRespond ∨ ∃ c, frameParts i = some c)
    (h : sendFrame code payload s = .next t) : ExecPorts i s t := by
  rcases portEffect_sendFrame h with effect | ⟨bytes, effect⟩
  · exact .quiet effect
  · exact .writes bytes effect phase responds

theorem execPorts_frameInstr {code : Code} {payload : List Byte} {s t : State}
    (h : exec (frameInstr code payload) s = .next t) : ExecPorts (frameInstr code payload) s t := by
  rw [exec_frameInstr] at h
  rcases frameCode_next_inv h with ⟨_, rfl⟩ | ⟨r, _, _, _, rfl⟩ | ⟨_, phase, _, _, sent⟩
  · exact .quiet (portEffect_acceptFrame code payload s)
  · exact .quiet (portEffect_dispatchRequest r s)
  · exact execPorts_sendFrame phase (.inr ⟨_, frameParts_frameInstr code payload⟩) sent

/-- The external reset is left out, because what `IN` offers after it is free (log entry 15). -/
theorem exec_execPorts {i : Instr} {s t : State} (notReset : i ≠ .reset) (h : exec i s = .next t) :
    ExecPorts i s t := by
  rcases parts : frameParts i with _ | ⟨code, payload⟩
  case some =>
    obtain rfl := frameInstr_of_frameParts parts
    exact execPorts_frameInstr h
  cases i with
  | ping | itfType | version | idGet | gpioDirSet | gpioDirGet | gpioRead | gpioWrite | good | gpioValue | errGeneric
  | errCrc | errUnknownCode | errInvalidArgs | errBusy | gpioDirResp => cases parts
  | reset => exact absurd rfl notReset
  | decEnd => exact .quiet (portEffect_replyStep (r := (s, .ok .completes)) {} h)
  | decEsc => exact .quiet (portEffect_replyStep (r := (s.setEsc, .ok .continues)) {} h)
  | decBadEsc b pos => exact .quiet (portEffect_replyStep (r := (s.clearEsc, .error (.badEsc pos))) {} h)
  | decLit b pos => exact .quiet (portEffect_replyStep (portEffect_decAppend b pos s) h)
  | decEscEnd pos =>
    exact .quiet (portEffect_replyStep (.trans (t := s.clearEsc) {} (portEffect_decAppend slipEnd pos s.clearEsc)) h)
  | decEscEsc pos =>
    exact .quiet (portEffect_replyStep (.trans (t := s.clearEsc) {} (portEffect_decAppend slipEsc pos s.clearEsc)) h)
  | encByteEnd pos => exact .quiet (portEffect_replyUnit (portEffect_encAppend _ (some pos) s) h)
  | encByteEsc pos => exact .quiet (portEffect_replyUnit (portEffect_encAppend _ (some pos) s) h)
  | encByteLit b pos => exact .quiet (portEffect_replyUnit (portEffect_encAppend [b] (some pos) s) h)
  | encFeed bytes => exact .quiet (portEffect_replyUnit (portEffect_encFeedFrom 0 bytes s) h)
  | encFinish => exact .quiet (portEffect_replyUnit (portEffect_encAppend [slipEnd] none s) h)
  | decReset | encReset | crc16 | frameEncode | codeLookup | codeEncode | categorize | argInit | toFrame =>
    cases h
    exact .quiet {}
  | decFeed => exact .quiet (portEffect_decFeed h)
  | decSlice => exact .quiet (portEffect_slice (.inl h))
  | encSlice => exact .quiet (portEffect_slice (.inr h))
  | frameDecode => exact .quiet (portEffect_frameDecode h)
  | argU8 => exact .quiet (portEffect_argRead (.inl h))
  | argU16 => exact .quiet (portEffect_argRead (.inr h))
  | reqBuild => exact .quiet (portEffect_reqBuild h)
  | reqExec => exact .quiet (portEffect_reqExec h)
  | sRx =>
    obtain ⟨phase, ⟨_, rfl⟩ | ⟨b, rest, offered, rfl⟩⟩ := execSRx_next_inv h
    · exact .quiet {}
    · exact .accepts b (portEffect_rxByte offered) (phase.imp_right .inl) (.inl rfl)
  | sHunt =>
    obtain ⟨phase, ⟨_, rfl⟩ | ⟨b, rest, offered, rfl⟩⟩ := execSHunt_next_inv h
    · exact .quiet {}
    · exact .accepts b (portEffect_huntByte offered) (.inr (.inr phase)) (.inr rfl)
  | sDecode =>
    obtain ⟨_, rfl⟩ := execSDecode_next_inv h
    exact .quiet (portEffect_decodeBytes s.decBytes s)
  | sDispatch =>
    obtain ⟨r, _, _, rfl⟩ := execSDispatch_next_inv h
    exact .quiet (portEffect_dispatchRequest r s)
  | sRespond =>
    obtain ⟨_, phase, _, sent⟩ := execSRespond_next_inv h
    exact execPorts_sendFrame phase (.inl rfl) sent

/-- Settles O55: only the accepting case takes a byte, and it takes the head of `IN` (R271, R285). -/
theorem inputAcceptedInOrder : Obligations.InputAcceptedInOrder := by
  intro i s t notReset h
  cases exec_execPorts notReset h with
  | quiet effect => exact .inl ⟨effect.input.symm, by simpa using effect.accepted⟩
  | accepts b effect phase receives => exact .inr ⟨b, effect.input, effect.accepted, phase, receives⟩
  | writes bytes effect => exact .inl ⟨effect.input.symm, by simpa using effect.accepted⟩

/-- Settles O56: only the responding case writes to `OUT`, one byte sequence; the external reset keeps the history
(R282; log entry 16). -/
theorem onlyRespondingWritesOut : Obligations.OnlyRespondingWritesOut := by
  intro i s t h
  by_cases isReset : i = .reset
  · subst isReset
    cases h
    exact .inl rfl
  · cases exec_execPorts isReset h with
    | quiet effect => exact .inl (by simpa using effect.out)
    | accepts b effect => exact .inl (by simpa using effect.out)
    | writes bytes effect phase responds => exact .inr ⟨phase, responds, bytes, effect.out⟩

/-! ## From a completed frame to its response (R281, R282) -/

section FrameReady

variable {s : State}

/-- S_DECODE and, where it built a request, S_DISPATCH choose the response (R277, R278). -/
theorem responding_of_frameReady (inv : PipelineInv s) (calls : s.calls = []) (phase : s.phase = .frameReady) :
    ∃ (k : Nat) (u : State), k ≤ 2 ∧ Sys2Proof.core.run k s = .next u ∧ u.phase = .responding ∧ PipelineInv u ∧ u.cfg = s.cfg
      ∧ PortEffect s [] [] u := by
  have ports := portEffect_decodeBytes s.decBytes s
  have cfg : (decodeBytes s.decBytes s).cfg = s.cfg := by
    obtain ⟨_, effect⟩ := stepEffect_decodeBytes s.decBytes s
    exact effect.cfg
  have inv' := pipelineInv_decodeBytes inv phase
  have decode : step s = .next (decodeBytes s.decBytes s) := by
    rw [step_of_no_call calls, phase]
    exact exec_sDecode_of_within phase inv.buffers.decBound
  have next := decodeBytes_phase s.decBytes s
  generalize decodeBytes s.decBytes s = u at ports cfg inv' decode next
  rcases next with dispatching | responding
  · obtain ⟨r, req⟩ := Option.isSome_iff_exists.1 (inv'.reqLive.2 dispatching)
    have dispatch : step u = .next (dispatchRequest r u) := by
      rw [step_of_no_call (ports.calls.trans calls), dispatching]
      exact exec_sDispatch_of_req dispatching req
    have answered : (dispatchRequest r u).phase = .responding ∧ (dispatchRequest r u).cfg = u.cfg := by
      obtain ⟨_, _, _, _, _, eq⟩ := dispatchRequest_answers r u
      rw [eq]
      exact ⟨rfl, rfl⟩
    exact ⟨2, _, Nat.le_refl 2, (run_succ_of_next 1 decode).trans (run_one_of_next dispatch), answered.1,
      pipelineInv_dispatchRequest inv' dispatching r, answered.2.trans cfg,
      ports.trans (portEffect_dispatchRequest r u)⟩
  · exact ⟨1, u, Nat.le_succ 1, run_one_of_next decode, responding, inv', cfg, ports⟩

/-- In `RESPONDING` the step sends the frame of the response in `RSP` (R279). -/
theorem step_of_responding {r : Response} (calls : s.calls = []) (phase : s.phase = .responding)
    (rsp : s.rsp = some r) : step s = sendFrame (responseFrame s.cfg r).1 (responseFrame s.cfg r).2 s := by
  rw [step_of_no_call calls, phase]
  exact exec_sRespond_of_rsp phase rsp

end FrameReady

theorem step_next_of_inv {s : State} (inv : PipelineInv s) : ∃ t, step s = .next t := by
  cases calls : s.calls with
  | cons i rest =>
    obtain rfl : i = .reset := inv.onlyResets i (by simp [calls])
    exact ⟨_, step_of_call calls⟩
  | nil =>
    rw [step_of_no_call calls]
    cases phase : s.phase with
    | idle | accum =>
      have receiving : s.phase = .idle ∨ s.phase = .accum := by simp [phase]
      cases offered : s.input with
      | nil => exact ⟨_, exec_sRx_of_empty receiving offered⟩
      | cons b rest => exact ⟨_, exec_sRx_of_offered receiving offered⟩
    | hunt =>
      cases offered : s.input with
      | nil => exact ⟨_, exec_sHunt_of_empty phase offered⟩
      | cons b rest => exact ⟨_, exec_sHunt_of_offered phase offered⟩
    | frameReady => exact ⟨_, exec_sDecode_of_within phase inv.buffers.decBound⟩
    | dispatching =>
      obtain ⟨r, req⟩ := Option.isSome_iff_exists.1 (inv.reqLive.2 phase)
      exact ⟨_, exec_sDispatch_of_req phase req⟩
    | responding =>
      obtain ⟨r, rsp⟩ := Option.isSome_iff_exists.1 (inv.rspLive.2 phase)
      obtain ⟨m, e, ev, sent⟩ := sendFrame_responds (responseFrame s.cfg r).1 (responseFrame s.cfg r).2 s
      exact ⟨_, (exec_sRespond_of_rsp phase rsp).trans sent⟩

/-- Settles O52: the invariants rule out every stop of the phase's step, and the step after the response is chosen
returns to `IDLE` whether the frame fits or not (R279 to R281). -/
theorem blockNeverHalts : Obligations.BlockNeverHalts := by
  refine fun s inv => ⟨step_next_of_inv inv, fun calls phase => ?_⟩
  obtain ⟨k, u, le, run, responding, inv', _, ports⟩ := responding_of_frameReady inv calls phase
  obtain ⟨r, rsp⟩ := Option.isSome_iff_exists.1 (inv'.rspLive.2 responding)
  obtain ⟨m, e, ev, sent⟩ := sendFrame_responds (responseFrame u.cfg r).1 (responseFrame u.cfg r).2 u
  have respond := (step_of_responding (ports.calls.trans calls) responding rsp).trans sent
  exact ⟨k + 1, _, Nat.succ_le_succ le, (run_add_of_next 1 run).trans (run_one_of_next respond), rfl⟩

theorem outWrites_responded (s : State) (m : Memory) (e : Option Err) (bytes : List Byte) :
    outWrites (s.responded m e (.out bytes)).events = outWrites s.events ++ [bytes] := by
  simp [State.responded, outWrites]

/-- Settles O53: the steps up to the chosen response leave the ports alone, and the response, which the invariants
bound, fits the recommended encoder (R138, R279, R282). -/
theorem completedFrameGetsOneResponse : Obligations.CompletedFrameGetsOneResponse := by
  intro s inv recommended calls phase
  obtain ⟨k, u, le, run, responding, inv', cfg, ports⟩ := responding_of_frameReady inv calls phase
  obtain ⟨r, rsp⟩ := Option.isSome_iff_exists.1 (inv'.rspLive.2 responding)
  have fits := wireBytes_responseFrame_fits (inv'.msgBounded r rsp) (by rwa [cfg])
  have respond := (step_of_responding (ports.calls.trans calls) responding rsp).trans
    (sendFrame_fits inv'.encEmpty fits)
  refine ⟨k, u, r, _, le, run, responding, rsp, (run_add_of_next 1 run).trans (run_one_of_next respond), rfl,
    ports.input.symm, ?_⟩
  rw [outWrites_responded, ports.out, List.append_nil, cfg]

end Sys2Proof.Proofs

namespace Sys2Proof.Proofs

open Sys2Proof.Machine

/-! ## Bytes offered later (R283, R286) -/

/-- The state with `more` offered on `IN` behind what is offered already (R270). -/
def offering (more : List Byte) (s : State) : State := { s with input := s.input ++ more }

/-! The operations that accept nothing commute with it. -/

theorem takeError_offering (more : List Byte) (e : Err) (handler : Phase) (s : State) :
    (offering more s).takeError e handler = offering more (s.takeError e handler) := by
  rcases chosen : errorResponse s.cfg e with _ | rsp
  · rw [takeError_none handler chosen, takeError_none (s := offering more s) handler chosen]
    rfl
  · rw [takeError_some handler chosen, takeError_some (s := offering more s) handler chosen]
    rfl

theorem acceptFrame_offering (more : List Byte) (code : Code) (payload : List Byte) (s : State) :
    acceptFrame code payload (offering more s) = offering more (acceptFrame code payload s) := by
  have entered (e : Err) := takeError_offering more e .responding
    { s with frm := some { code := code, payload := payload }, arg := none }
  rw [acceptFrame, acceptFrame]
  by_cases response : categorize code = .response
  · rw [if_pos response, if_pos response]
    exact entered _
  · rw [if_neg response, if_neg response]
    rcases buildRequest code payload with _ | ⟨a, e | r⟩
    · exact entered _
    · exact entered e
    · rfl

theorem decodeBytes_offering (more bytes : List Byte) (s : State) :
    decodeBytes bytes (offering more s) = offering more (decodeBytes bytes s) := by
  rcases decoded : frameDecode s.cfg bytes with e | ⟨code, payload⟩
  · rw [decodeBytes, decodeBytes, show frameDecode (offering more s).cfg bytes = .error e from decoded, decoded]
    exact takeError_offering more e .responding { s with arg := none }
  · rw [decodeBytes_ok decoded, decodeBytes_ok (s := offering more s) decoded]
    exact acceptFrame_offering more code payload s

/-- The provider answers by the draw counter and the call, not by what is offered (log entry 12). -/
theorem execRequest_offering (more : List Byte) (r : Request) (s : State) :
    execRequest r (offering more s) = (offering more (execRequest r s).1, (execRequest r s).2) := by
  cases r <;> rfl

theorem dispatchRequest_offering (more : List Byte) (r : Request) (s : State) :
    dispatchRequest r (offering more s) = offering more (dispatchRequest r s) := by
  rw [dispatchRequest, dispatchRequest, execRequest_offering]
  rcases execRequest r s with ⟨t, rsp, _ | e⟩ <;> rfl

theorem encAppend_offering (more bytes : List Byte) (pos : Option Nat) (s : State) :
    encAppend bytes pos (offering more s) =
      (offering more (encAppend bytes pos s).1, (encAppend bytes pos s).2) := by
  rcases encAppend_cases bytes pos s with ⟨room, eq⟩ | ⟨full, eq⟩ <;> rw [eq]
  · exact encAppend_room (s := offering more s) pos room
  · exact encAppend_full (s := offering more s) pos full

theorem encFeedFrom_offering (more : List Byte) (i : Nat) (bytes : List Byte) (s : State) :
    encFeedFrom i bytes (offering more s) =
      (offering more (encFeedFrom i bytes s).1, (encFeedFrom i bytes s).2) := by
  induction bytes generalizing i s with
  | nil => rfl
  | cons b rest ih =>
    rw [encFeedFrom, encFeedFrom, encAppend_offering]
    rcases encAppend (encUnit b) (some i) s with ⟨t, e | _⟩
    · rfl
    · exact ih (i + 1) t

/-- A response dropped or sent leaves what is offered as it was (R279, R280). -/
theorem sendFrame_offering {more : List Byte} {code : Code} {payload : List Byte} {s t : State}
    (h : sendFrame code payload s = .next t) :
    sendFrame code payload (offering more s) = .next (offering more t) := by
  have dropped (e : Err) (u : State) :
      ((offering more u).takeError e .idle).returnToIdle = offering more (u.takeError e .idle).returnToIdle := by
    rw [takeError_offering]
    rfl
  rw [sendFrame] at h ⊢
  rw [show (offering more s).cfg = s.cfg from rfl, encFeedFrom_offering]
  generalize encFeedFrom 0 (frameEncode s.cfg code payload) s = fed at h ⊢
  obtain ⟨u, e | _⟩ := fed
  · cases h
    exact congrArg Host.Outcome.next (dropped e u)
  · have finish : encFinishOp (offering more u) = (offering more (encFinishOp u).1, (encFinishOp u).2) :=
      encAppend_offering more [slipEnd] none u
    dsimp only at h ⊢
    rw [finish]
    generalize encFinishOp u = finished at h ⊢
    obtain ⟨v, e | _⟩ := finished <;> cases h
    · exact congrArg Host.Outcome.next (dropped e v)
    · rfl

/-! The two that accept a byte only pass on what stays offered. -/

theorem completeFrame_offering (more : List Byte) (s : State) :
    completeFrame (offering more s) = offering more (completeFrame s) := by
  rw [completeFrame, completeFrame, apply_ite (offering more)]
  rfl

theorem framingError_offering (more : List Byte) (e : Err) (b : Byte) (s : State) :
    framingError e b (offering more s) = offering more (framingError e b s) :=
  takeError_offering more e _ { s.decReset with rxCnt := 0 }

theorem rxByte_offering (more rest : List Byte) (b : Byte) (s : State) :
    rxByte b (rest ++ more) (offering more s) = offering more (rxByte b rest s) := by
  have step : decStep b s.rxCnt (offering more s) =
      ((offering more s).withDecoder (decStep b s.rxCnt s).1, (decStep b s.rxCnt s).2) :=
    decStep_congr b s.rxCnt rfl rfl
  rw [rxByte, rxByte, decStep_accept, decStep_accept, show (offering more s).rxCnt = s.rxCnt from rfl, step]
  rcases decStep b s.rxCnt s with ⟨d, e | _ | _⟩
  · exact framingError_offering more e b (afterAccepting s d [b] rest s.phase)
  · rfl
  · exact completeFrame_offering more (afterAccepting s d [b] rest s.phase)

theorem huntByte_offering (more rest : List Byte) (b : Byte) (s : State) :
    huntByte b (rest ++ more) (offering more s) = offering more (huntByte b rest s) := by
  rw [huntByte, huntByte]
  split <;> rfl

/-- Settles O60: a byte at the head of `IN` stays there, and the operation of the phase commutes with offering more
(R283, R286). -/
theorem bytesOfferedLaterWait : Obligations.BytesOfferedLaterWait := by
  intro s t more calls needs h
  change step (offering more s) = .next (offering more t)
  rw [step_of_no_call calls] at h
  rw [step_of_no_call (s := offering more s) calls, show (offering more s).phase = s.phase from rfl]
  cases phase : s.phase <;> rw [phase] at h
  case idle | accum =>
    obtain ⟨receiving, ⟨empty, _⟩ | ⟨b, rest, offered, rfl⟩⟩ := execSRx_next_inv h
    · simp [empty, phase] at needs
    · have behind : (offering more s).input = b :: (rest ++ more) := congrArg (· ++ more) offered
      exact (exec_sRx_of_offered (s := offering more s) receiving behind).trans (congrArg _ (rxByte_offering more rest b s))
  case hunt =>
    obtain ⟨_, ⟨empty, _⟩ | ⟨b, rest, offered, rfl⟩⟩ := execSHunt_next_inv h
    · simp [empty, phase] at needs
    · have behind : (offering more s).input = b :: (rest ++ more) := congrArg (· ++ more) offered
      exact (exec_sHunt_of_offered (s := offering more s) phase behind).trans (congrArg _ (huntByte_offering more rest b s))
  case frameReady =>
    have decode : exec .sDecode s = .next t := h
    obtain ⟨_, rfl⟩ := execSDecode_next_inv h
    have within : s.decLen ≤ s.cfg.decCap := by
      by_contra beyond
      rw [exec_sDecode_of_beyond phase (Nat.not_le.1 beyond)] at decode
      cases decode
    exact (exec_sDecode_of_within (s := offering more s) phase within).trans
      (congrArg _ (decodeBytes_offering more s.decBytes s))
  case dispatching =>
    obtain ⟨r, _, req, rfl⟩ := execSDispatch_next_inv h
    exact (exec_sDispatch_of_req (s := offering more s) phase req).trans
      (congrArg _ (dispatchRequest_offering more r s))
  case responding =>
    obtain ⟨r, _, rsp, sent⟩ := execSRespond_next_inv h
    exact (exec_sRespond_of_rsp (s := offering more s) phase rsp).trans (sendFrame_offering sent)

end Sys2Proof.Proofs

namespace Sys2Proof.Proofs

open Sys2Proof.Machine

/-! ## Instances (R325, R343) -/

/-- The check of R325 is its three constraints. -/
theorem params_ok_iff {p : Params} :
    p.ok = true ↔ p.gpioDirRespCode ∉ requestWords
      ∧ (∀ entry ∈ p.diag, entry.2.length ≤ p.errMsgMax) ∧ ∀ pin ∈ p.validPins, pin < 256 := by
  simp [Params.ok, and_assoc]

theorem powerOn_of_ok {p : Params} (ok : p.ok = true) :
    powerOn p = .next { State.reset with cfg := p, cfgOk := ok } := dif_pos ok

theorem powerOn_of_not_ok {p : Params} (bad : ¬ p.ok = true) : powerOn p = .refused .badInstance := dif_neg bad

/-- Settles O4: `powerOn` branches on the check, which is the constraints, and a state carries that its parameters pass
it (R325, R343). -/
theorem badInstanceRefusedAtReset : Obligations.BadInstanceRefusedAtReset := by
  refine ⟨fun p => ⟨fun within => ?_, fun broken => ?_⟩, fun s => ⟨?_, ?_⟩⟩
  · exact ⟨params_ok_iff.2 within, powerOn_of_ok _⟩
  · exact powerOn_of_not_ok (mt params_ok_iff.1 broken)
  · exact params_ok_iff.1 s.cfgOk
  · exact diagOf_length_le s.cfgOk

end Sys2Proof.Proofs

namespace Sys2Proof.Proofs

open Sys2Proof.Machine

/-! ## The external reset (R340) -/

/-- RESET answers a next state from every state. -/
theorem exec_reset (s : State) : exec .reset s = .next s.resetBlock := rfl

/-- Settles O3: RESET goes to `resetBlock`, whose field lemmas give each element its reset value (R38) and leave the
buffers, the parameters, the history and the waiting calls. -/
theorem resetClearsEveryStateElement : Obligations.ResetClearsEveryStateElement := by
  intro s
  refine ⟨s.resetBlock, exec_reset s, ?_⟩
  simp

end Sys2Proof.Proofs
